-- ==== Sys2Proof/Word.lean ====
section
/-! DEFINITION. The words of the machine and the width XLEN (00_scope.md R9, R11).
An XLEN-bit value is held in a 64-bit word whose bits above XLEN are 0 (log entry 13). -/

namespace Sys2Proof

abbrev Byte := BitVec 8

/-- A word of XLEN bits, zero-extended to 64. -/
abbrev Word := BitVec 64

/-- A vector register of VLEN = 128 bits (10_state.md R53). -/
abbrev VWord := BitVec 128

/-- The parameter XLEN, 32 or 64 (00_scope.md R9). -/
inductive Xlen where
  | rv32
  | rv64
  deriving DecidableEq, Repr

/-- XLEN in bits. -/
def Xlen.bits : Xlen → Nat
  | .rv32 => 32
  | .rv64 => 64

/-- W = XLEN/8, the machine word in bytes (43_signal_frame.md, section 2). -/
def Xlen.bytes : Xlen → Nat
  | .rv32 => 4
  | .rv64 => 8

/-- The low XLEN bits of a word: `v[XLEN-1:0]`, zero-extended (00_scope.md R11, 30_encoding.md R136). -/
def Xlen.trunc : Xlen → Word → Word
  | .rv32, v => v &&& 0xFFFFFFFF#64
  | .rv64, v => v

/-- `ones_XLEN` (00_scope.md R11). -/
def Xlen.ones (x : Xlen) : Word := x.trunc (BitVec.allOnes 64)

/-- The word whose only set bit is bit XLEN-1. -/
def Xlen.topBit : Xlen → Word
  | .rv32 => 0x80000000#64
  | .rv64 => 0x8000000000000000#64

end Sys2Proof
end

