-- ==== Sys2Proof/Config.lean ====
section
/-! DEFINITION. The parameters of 00_scope.md R9, fixed for one machine: plain data that State holds and no step
writes (log entry 1). The CSR table of 41_csr_dispatch.md R201 is one of them (00_scope.md R10): a descriptor names
its predicate and its handlers, whose meanings are in Machine/Csr.lean: those of the baseline, and any other as `added k`,
the k-th function a configuration brings along (log entry 12). -/

namespace Sys2Proof

/-- `VLEN` in bits (00_scope.md R9, 10_state.md R53). -/
def VLEN : Nat := 128

/-- `NSIG`, the number of signals in a mask (00_scope.md R9). -/
def NSIG : Nat := 64

/-- `SIGINFO_BYTES`, the size of the info block (00_scope.md R9, 43_signal_frame.md R287). -/
def SIGINFO_BYTES : Nat := 128

/-- `MINSIGSTKSZ`, the least alternate stack that may be installed (00_scope.md R9, 43_signal_frame.md R313). -/
def MINSIGSTKSZ : Nat := 2048

/-- `ENV`: a trap is a privileged trap entry (system) or becomes a signal (user) (90_conflicts.md C6). -/
inductive Env where
  | system
  | user
  deriving DecidableEq, Repr

/-- `VTYPE_LAYOUT` (10_state.md R55). -/
inductive VtypeLayout where
  | v071
  | v10
  deriving DecidableEq, Repr

/-- `VEC_AREA_WHEN_INACTIVE` (43_signal_frame.md R289). -/
inductive VecArea where
  | absent
  | reserved
  deriving DecidableEq, Repr

/-- The mode of a lock (00_scope.md R13). -/
inductive LockMode where
  | read
  | write
  deriving DecidableEq, Repr

/-- A range of guest addresses that the external memory manager admits (20_memory.md R102, log entry 6). -/
structure Region where
  base     : Nat
  size     : Nat
  readable : Bool
  writable : Bool
  deriving DecidableEq, Repr

/-- The predicates of 41_csr_dispatch.md R214, and the k-th that a configuration adds (R201). -/
inductive CsrPred where
  | any
  | smode
  | fp
  | vec
  | added (k : Nat)
  deriving DecidableEq, Repr

/-- The read handlers of 41_csr_dispatch.md R216 to R232, and what a configuration may register besides: a fixed value, one
that answers `fail` (R210), and the k-th handler it adds (R201). -/
inductive CsrRead where
  | fflags | frm | fcsr
  | vstart | vxsat | vxrm | vl | vtype
  | sstatus | sie | stvec | sepc | scause | stval
  | mstatus | misa | medeleg | mideleg | mie | mtvec | mepc | mcause | mtval
  | const (v : Word)
  | fails
  | added (k : Nat)
  deriving DecidableEq, Repr

/-- The write handlers of 41_csr_dispatch.md R216 to R231; `ignored` is misa's (R221), `fails` answers `fail` (R210), and
`added k` is the k-th that a configuration adds (R201). -/
inductive CsrWrite where
  | fflags | frm | fcsr
  | vstart | vxsat | vxrm
  | sstatus | sie | stvec | sepc | scause | stval
  | mstatus | medeleg | mideleg | mie | mtvec | mepc | mcause | mtval
  | ignored
  | fails
  | added (k : Nat)
  deriving DecidableEq, Repr

/-- The combined handlers of 41_csr_dispatch.md R227, R228; `fails` answers `fail` (R210), and `added k` is the k-th that a
configuration adds (R201). -/
inductive CsrRmw where
  | mip
  | sip
  | fails
  | added (k : Nat)
  deriving DecidableEq, Repr

/-- `CsrDescriptor` (41_csr_dispatch.md R201): a name, and a predicate and handlers that may each be absent. -/
structure CsrDescriptor where
  name  : String
  pred  : Option CsrPred
  read  : Option CsrRead
  write : Option CsrWrite
  rmw   : Option CsrRmw
  deriving DecidableEq, Repr

/-- The parameters of 00_scope.md R9. `RESET_PRIV` is not a field: ENV gives it. -/
structure Config where
  xlen         : Xlen
  misa         : Word
  features     : BitVec 2
  csrTable     : List (BitVec 12 × CsrDescriptor)
  vtypeLayout  : VtypeLayout
  fcsrVxMirror : Bool
  /-- codes, first to be taken first (60_exceptions.md R349) -/
  irqPriority  : List Nat
  /-- `MC_RESERVED_BYTES`, written R in 43_signal_frame.md -/
  mcReserved   : Nat
  vecArea      : VecArea
  hasTrampoline : Bool
  env          : Env
  resetVector  : Word
  resetZero    : Bool
  /-- the launch memory map (20_memory.md R102) -/
  regions      : List Region
  deriving DecidableEq, Repr

/-- `misa[n]`: is the extension of the n-th letter present (10_state.md R40). -/
def Config.hasExt (c : Config) (n : Nat) : Bool := c.misa.getLsbD n

end Sys2Proof
end

