-- ==== Sys2Proof/Syntax.lean ====
section
/-! DEFINITION. The instructions: one constructor per row of spec/opcode_table.json. The fields are those the row's
operation uses; a field it does not use means nothing (30_encoding.md R132) and is not kept. -/

namespace Sys2Proof

/-- Where a word arrives: on the block's command port (30_encoding.md R130), or as a guest instruction that a model of
the external decoder connects to the block (30_encoding.md R141, R142; log entry 8). -/
inductive Channel where
  | command
  | guest
  deriving DecidableEq, Repr

/-- RIDX, a register index (30_encoding.md R132). -/
abbrev RegIdx := BitVec 5

/-- CSR, a 12-bit CSR index (30_encoding.md R132, R140). -/
abbrev CsrIdx := BitVec 12

inductive Instr where
  -- register file (40_regfile_ops.md)
  | gprRd (r : RegIdx)
  | gprWr (r : RegIdx)
  | fprRd (r : RegIdx)
  | fprWr (r : RegIdx)
  | vrRd (r : RegIdx)
  | vrWr (r : RegIdx)
  | pcRd
  | pcWr
  | privRd
  | extQ (arg : BitVec 8)
  | featQ (arg : BitVec 8)
  -- CSR dispatch (41_csr_dispatch.md)
  | csrRmw (csr : CsrIdx)
  | csrRd (csr : CsrIdx)
  | csrWr (csr : CsrIdx)
  -- vector length and configuration (40_regfile_ops.md)
  | vlmax
  | vcfgWr
  -- traps and interrupts (42_trap_ops.md)
  | trap
  | irqPend
  | ipUpdate
  | mret
  | sret
  -- signal frame, mask and alternate stack (43_signal_frame.md)
  | sigSetup
  | sigReturn
  | maskRd
  | maskWr
  | altRd (arg : BitVec 8)
  | altSet (arg : BitVec 8)
  -- guest Zicsr instructions (30_encoding.md R141)
  | csrrw (rd rs1 : RegIdx) (csr : CsrIdx)
  | csrrs (rd rs1 : RegIdx) (csr : CsrIdx)
  | csrrc (rd rs1 : RegIdx) (csr : CsrIdx)
  | csrrwi (rd uimm : RegIdx) (csr : CsrIdx)
  | csrrsi (rd uimm : RegIdx) (csr : CsrIdx)
  | csrrci (rd uimm : RegIdx) (csr : CsrIdx)
  -- trampoline words (30_encoding.md R142)
  | trampLiA7
  | trampEcall
  deriving DecidableEq, Repr

/-- The port an instruction arrives on. -/
def Instr.channel : Instr → Channel
  | .gprRd _ | .gprWr _ | .fprRd _ | .fprWr _ | .vrRd _ | .vrWr _ | .pcRd | .pcWr | .privRd | .extQ _ | .featQ _
  | .csrRmw _ | .csrRd _ | .csrWr _ | .vlmax | .vcfgWr | .trap | .irqPend | .ipUpdate | .mret | .sret
  | .sigSetup | .sigReturn | .maskRd | .maskWr | .altRd _ | .altSet _ => .command
  | .csrrw _ _ _ | .csrrs _ _ _ | .csrrc _ _ _ | .csrrwi _ _ _ | .csrrsi _ _ _ | .csrrci _ _ _
  | .trampLiA7 | .trampEcall => .guest

end Sys2Proof
end

