-- ==== Sys2Proof/WellFormed.lean ====
section
/-! DEFINITION. What makes a configuration, and an instruction in a configuration, well-formed.
The bounds of an instruction's fields are their types (RIDX 5 bits, CSR 12, ARG 8: 30_encoding.md R132); what is left
to check is whether the configuration has the unit the instruction works on. -/

namespace Sys2Proof

/-- The extension letters of 10_state.md R40. -/
def Ext.C : Nat := 2
def Ext.D : Nat := 3
def Ext.F : Nat := 5
def Ext.S : Nat := 18
def Ext.U : Nat := 20
def Ext.V : Nat := 21

/-- misa holds MXL in its top two bits, letters in bits 25:0 and nothing else (10_state.md R40). -/
def Config.misaOk (c : Config) : Bool :=
  match c.xlen with
  | .rv32 => c.misa == (0x40000000#64 ||| (c.misa &&& 0x3FFFFFF#64))
  | .rv64 => c.misa == (0x8000000000000000#64 ||| (c.misa &&& 0x3FFFFFF#64))

/-- S needs U, and so do a user environment and `RESET_ZERO`, whose MPP of 0 is a legal privilege only with U (10_state.md
R43; log entries 4, 16). -/
def Config.modesOk (c : Config) : Bool :=
  (!c.hasExt Ext.S || c.hasExt Ext.U) && (c.env == .system || c.hasExt Ext.U) && (!c.resetZero || c.hasExt Ext.U)

/-- `RESET_VECTOR` is an XLEN-bit address. -/
def Config.resetVectorOk (c : Config) : Bool := c.xlen.trunc c.resetVector == c.resetVector

/-- `IRQ_PRIORITY` lists each implemented code once (60_exceptions.md R343, R349). -/
def Config.irqPriorityOk (c : Config) : Bool :=
  c.irqPriority.length == 6 && [1, 3, 5, 7, 9, 11].all (fun k => c.irqPriority.contains k)

/-- The predicate a read handler stands under in the baseline table (41_csr_dispatch.md R215). -/
def CsrRead.guard : CsrRead → CsrPred
  | .fflags | .frm | .fcsr => .fp
  | .vstart | .vxsat | .vxrm | .vl | .vtype => .vec
  | .sstatus | .sie | .stvec | .sepc | .scause | .stval | .medeleg | .mideleg => .smode
  | .mstatus | .misa | .mie | .mtvec | .mepc | .mcause | .mtval | .const _ | .fails
  | .added _ => .any

/-- The predicate a write handler stands under in the baseline table (41_csr_dispatch.md R215). -/
def CsrWrite.guard : CsrWrite → CsrPred
  | .fflags | .frm | .fcsr => .fp
  | .vstart | .vxsat | .vxrm => .vec
  | .sstatus | .sie | .stvec | .sepc | .scause | .stval | .medeleg | .mideleg => .smode
  | .mstatus | .mie | .mtvec | .mepc | .mcause | .mtval | .ignored | .fails | .added _ => .any

/-- The predicate a combined handler stands under in the baseline table (41_csr_dispatch.md R215). -/
def CsrRmw.guard : CsrRmw → CsrPred
  | .sip => .smode
  | .mip | .fails | .added _ => .any

/-- A descriptor carries the predicate its handlers need (log entry 16). -/
def CsrDescriptor.guardOk (d : CsrDescriptor) (g : CsrPred) : Bool := g == .any || d.pred == some g

/-- Every handler of the descriptor stands under the predicate it needs (log entry 16). -/
def CsrDescriptor.wf (d : CsrDescriptor) : Bool :=
  (d.read.all fun h => d.guardOk h.guard) && (d.write.all fun h => d.guardOk h.guard)
    && (d.rmw.all fun h => d.guardOk h.guard)

/-- "at most one descriptor per index" (41_csr_dispatch.md R201), each well-formed. -/
def Config.csrTableOk (c : Config) : Bool :=
  decide ((c.csrTable.map Prod.fst).Nodup) && c.csrTable.all fun e => e.2.wf

/-- A configuration the spec allows. -/
def Config.wf (c : Config) : Bool :=
  c.misaOk && c.modesOk && c.resetVectorOk && c.irqPriorityOk && c.csrTableOk

/-- The configuration has the unit the instruction works on: V for the vector commands (40_regfile_ops.md R172, R173,
R179), S for SRET, and a system environment for both returns (42_trap_ops.md R265). -/
def Instr.wf (c : Config) : Instr → Bool
  | .vrRd _ | .vrWr _ | .vcfgWr => c.hasExt Ext.V
  | .mret => c.env == .system
  | .sret => c.env == .system && c.hasExt Ext.S
  | .gprRd _ | .gprWr _ | .fprRd _ | .fprWr _ | .pcRd | .pcWr | .privRd | .extQ _ | .featQ _
  | .csrRmw _ | .csrRd _ | .csrWr _ | .vlmax | .trap | .irqPend | .ipUpdate
  | .sigSetup | .sigReturn | .maskRd | .maskWr | .altRd _ | .altSet _
  | .csrrw _ _ _ | .csrrs _ _ _ | .csrrc _ _ _ | .csrrwi _ _ _ | .csrrsi _ _ _ | .csrrci _ _ _
  | .trampLiA7 | .trampEcall => true

end Sys2Proof
end

