-- ==== Sys2Proof/Machine/Legal.lean ====
section
/-! DEFINITION. The privilege modes (00_scope.md R18, 10_state.md R39) and the legal values of the control registers, as
functions of misa (10_state.md R42 to R47, 41_csr_dispatch.md R220 to R229). -/

namespace Sys2Proof.Machine

/-- The modes of 00_scope.md R18. The reserved encoding 2 is no value of the type: "the block never enters it"
(10_state.md R39; log entry 15). -/
inductive Priv where
  | u
  | s
  | m
  deriving DecidableEq, Repr

/-- The 2-bit encoding of a mode (00_scope.md R18). -/
def Priv.code : Priv → BitVec 2
  | .u => 0
  | .s => 1
  | .m => 3

/-- The mode of an encoding, none for the reserved 2. -/
def Priv.ofCode (v : BitVec 2) : Option Priv :=
  if v = 0 then some .u else if v = 1 then some .s else if v = 3 then some .m else none

/-- `misa[n]` (10_state.md R40). -/
def misaHas (misa : Word) (n : Nat) : Bool := misa.getLsbD n

/-- The configuration has floating point: F or D (10_state.md R42). -/
def misaFp (misa : Word) : Bool := misaHas misa Ext.F || misaHas misa Ext.D

/-- `LegalPriv(misa)` (41_csr_dispatch.md R220). -/
def Priv.legal (misa : Word) : Priv → Bool
  | .m => true
  | .s => misaHas misa Ext.S
  | .u => misaHas misa Ext.U

/-- The implemented interrupt bits: 0xAAA with S, 0x888 without (41_csr_dispatch.md R223, 42_trap_ops.md R264). -/
def implementedIrqs (misa : Word) : Word := if misaHas misa Ext.S then 0xAAA else 0x888

/-- The writable bits of medeleg (10_state.md R45). -/
def medelegMask : Word := 0xB3FF

/-- The writable bits of mideleg (10_state.md R45). -/
def midelegMask : Word := 0x222

/-- `EPC_MASK` (41_csr_dispatch.md R229). -/
def epcMask (misa : Word) : Word := if misaHas misa Ext.C then ~~~1#64 else ~~~3#64

/-- A trap vector's MODE is legal (10_state.md R46). -/
def tvecLegal (v : Word) : Bool := (v.extractLsb' 0 2).toNat < 2

/-- What a trap-vector write leaves: a reserved MODE leaves the old value (41_csr_dispatch.md R226). -/
def tvecWrite (old v : Word) : Word := if tvecLegal v then v else old

/-- The mip bits a CSR access may write: SSIP, STIP, SEIP (41_csr_dispatch.md R227). -/
def mipWritable (misa : Word) : Word := if misaHas misa Ext.S then 0x222 else 0

end Sys2Proof.Machine
end

