-- ==== Sys2Proof/Machine/Platform.lean ====
section
/-! DEFINITION. The baseline CSR table (41_csr_dispatch.md R215) and the configuration that `State.reset` is taken in
(log entry 2). -/

namespace Sys2Proof.Machine

/-- A descriptor with a separate read and write handler. -/
def csrReadWrite (name : String) (p : CsrPred) (r : CsrRead) (w : CsrWrite) : CsrDescriptor :=
  { name := name, pred := some p, read := some r, write := some w, rmw := none }

/-- A descriptor with a read handler only. -/
def csrReadOnly (name : String) (p : CsrPred) (r : CsrRead) : CsrDescriptor :=
  { name := name, pred := some p, read := some r, write := none, rmw := none }

/-- A descriptor with a combined handler. -/
def csrCombined (name : String) (p : CsrPred) (h : CsrRmw) : CsrDescriptor :=
  { name := name, pred := some p, read := none, write := none, rmw := some h }

/-- The user-level descriptors of 41_csr_dispatch.md R215. -/
def baselineUser : List (BitVec 12 × CsrDescriptor) :=
  [ (0x001, csrReadWrite "fflags" .fp .fflags .fflags),
    (0x002, csrReadWrite "frm" .fp .frm .frm),
    (0x003, csrReadWrite "fcsr" .fp .fcsr .fcsr),
    (0x008, csrReadWrite "vstart" .vec .vstart .vstart),
    (0x009, csrReadWrite "vxsat" .vec .vxsat .vxsat),
    (0x00A, csrReadWrite "vxrm" .vec .vxrm .vxrm),
    (0xC20, csrReadOnly "vl" .vec .vl),
    (0xC21, csrReadOnly "vtype" .vec .vtype) ]

/-- The supervisor-level descriptors of 41_csr_dispatch.md R215. -/
def baselineSupervisor : List (BitVec 12 × CsrDescriptor) :=
  [ (0x100, csrReadWrite "sstatus" .smode .sstatus .sstatus),
    (0x104, csrReadWrite "sie" .smode .sie .sie),
    (0x105, csrReadWrite "stvec" .smode .stvec .stvec),
    (0x141, csrReadWrite "sepc" .smode .sepc .sepc),
    (0x142, csrReadWrite "scause" .smode .scause .scause),
    (0x143, csrReadWrite "stval" .smode .stval .stval),
    (0x144, csrCombined "sip" .smode .sip) ]

/-- The machine-level descriptors of 41_csr_dispatch.md R215. -/
def baselineMachine : List (BitVec 12 × CsrDescriptor) :=
  [ (0x300, csrReadWrite "mstatus" .any .mstatus .mstatus),
    (0x301, csrReadWrite "misa" .any .misa .ignored),
    (0x302, csrReadWrite "medeleg" .smode .medeleg .medeleg),
    (0x303, csrReadWrite "mideleg" .smode .mideleg .mideleg),
    (0x304, csrReadWrite "mie" .any .mie .mie),
    (0x305, csrReadWrite "mtvec" .any .mtvec .mtvec),
    (0x341, csrReadWrite "mepc" .any .mepc .mepc),
    (0x342, csrReadWrite "mcause" .any .mcause .mcause),
    (0x343, csrReadWrite "mtval" .any .mtval .mtval),
    (0x344, csrCombined "mip" .any .mip) ]

/-- The 25 descriptors of the baseline table (41_csr_dispatch.md R215). -/
def baselineCsrTable : List (BitVec 12 × CsrDescriptor) :=
  baselineUser ++ baselineSupervisor ++ baselineMachine

/-- The default order of interrupts: MEI, MSI, MTI, SEI, SSI, STI (60_exceptions.md R349). -/
def defaultIrqPriority : List Nat := [11, 3, 7, 9, 1, 5]

/-- The configuration `State.reset` is taken in: the spec's default where 00_scope.md R9 gives one, and a value of
configuration K1 of 95_test_vectors.md where R9 leaves the parameter open (log entry 2). -/
def defaultConfig : Config where
  xlen := .rv64
  misa := 0x800000000034112D#64
  features := 0b10#2
  csrTable := baselineCsrTable
  vtypeLayout := .v071
  fcsrVxMirror := true
  irqPriority := defaultIrqPriority
  mcReserved := 12
  vecArea := .absent
  hasTrampoline := true
  env := .system
  resetVector := 0x80000000#64
  resetZero := true
  regions := [{ base := 0, size := 2 ^ 64, readable := true, writable := true }]

end Sys2Proof.Machine
end

