-- ==== Sys2Proof/Machine/State.lean ====
section
/-! DEFINITION. The state of the block (10_state.md R30), its ports (30_encoding.md R130, R131), the guest memory its
frame operations reach (20_memory.md R101), and reset (10_state.md R69, 70_reset_and_hazards.md R390, R391). -/

namespace Sys2Proof.Machine

/-- Guest memory: cells with strictly rising addresses, none equal to what an unlisted address reads as. -/
abbrev Memory := List Host.Cell

/-- mstatus as the fields the block keeps (10_state.md R42). SD is derived, every other bit reads 0 (log entry 15). -/
structure Mstatus where
  sie  : Bool
  mie  : Bool
  spie : Bool
  mpie : Bool
  /-- privilege before the last trap into S: false is U, true is S -/
  spp  : Bool
  mpp  : Priv
  fs   : BitVec 2
  deriving DecidableEq, Repr

/-- The alternate signal stack (10_state.md R60). -/
structure AltStack where
  ssSp   : Word
  ssSize : Word
  deriving DecidableEq, Repr

/-- The vector overlay (10_state.md R52 to R54). It is meaningful only when misa has V (log entry 14). -/
structure VecState where
  vr     : Vector VWord 32
  vstart : Word
  vxsat  : BitVec 1
  vxrm   : BitVec 2
  vl     : Word
  vtype  : Word
  deriving DecidableEq, Repr

/-- `SigReq`, the signal-request port (43_signal_frame.md R290). -/
structure SigReq where
  sig      : BitVec 8
  handler  : Word
  onstack  : Bool
  restorer : Word
  mask     : BitVec 64
  hmask    : BitVec 64
  info     : Vector Byte 128
  deriving DecidableEq, Repr

/-- The operand ports of one command (30_encoding.md R130). -/
structure Operands where
  a   : BitVec 64
  b   : BitVec 64
  w   : VWord
  req : SigReq
  deriving DecidableEq, Repr

/-- A word that has arrived, with the operands it came with (30_encoding.md R130). -/
structure Transaction where
  channel : Channel
  word    : BitVec 32
  ops     : Operands
  deriving DecidableEq, Repr

/-- STATUS (30_encoding.md R137). -/
inductive Status where
  | ok
  | illegalCsr
  | frameFault
  | sigreturn
  deriving DecidableEq, Repr

/-- The response and signal ports after a command (30_encoding.md R130, R131). -/
structure Response where
  status    : Status
  dout      : BitVec 64
  wout      : VWord
  forceSig  : Option (BitVec 8)
  resetDisp : Option (BitVec 8)
  causeOut  : Option Word
  deriving DecidableEq, Repr

/-- Everything the spec gives the machine, one field each (INVENTORY.md, State). The registers that exist only with S
(10_state.md R45, R50) and the overlay that exists only with V (R58) are fields in every configuration, which nothing
observes without S or V (DESIGN CHOICE, log entry 14). -/
structure State where
  /-- the parameters of 00_scope.md R9, never written (log entry 1) -/
  cfg      : Config
  /-- x1 to x31: slot k holds x(k+1), and x0 has no storage (10_state.md R32) -/
  x        : Vector Word 31
  pc       : Word
  f        : Vector (BitVec 64) 32
  fflags   : BitVec 5
  frm      : BitVec 3
  priv     : Priv
  misa     : Word
  features : BitVec 2
  mstatus  : Mstatus
  mie      : Word
  mip      : Word
  medeleg  : Word
  mideleg  : Word
  mtvec    : Word
  mepc     : Word
  mcause   : Word
  mtval    : Word
  stvec    : Word
  sepc     : Word
  scause   : Word
  stval    : Word
  vec      : VecState
  blocked  : BitVec 64
  altstack : AltStack
  /-- guest memory (20_memory.md R101) -/
  mem      : Memory
  /-- the operand ports of the command in hand -/
  ops      : Operands
  /-- the response and signal ports as the last command left them -/
  resp     : Response
  /-- transactions that have arrived and are not yet taken, first to arrive first (log entry 7) -/
  inbox    : List Transaction
  deriving DecidableEq, Repr

/-- Why the machine stops with a fault: never. The block's two error kinds, IllegalCsrAccess and FrameFault, are
statuses of a finished command ("These are the two error kinds only", 00_scope.md R14), and the model's UnwrittenRead
(R15) cannot arise because every register holds a value at reset (log entries 3, 20). -/
inductive Fault where
  deriving DecidableEq, Repr

/-- Why a word is refused. Each is safe: the run ends where the spec says the command is refused. -/
inductive Refusal where
  /-- raised by `exec` for an instruction without a meaning; safe, and no arm is left that raises it -/
  | notModelled (mnemonic : String)
  /-- raised by `step`: OP 0x00 or 0x1B to 0x1F (30_encoding.md R134); safe -/
  | reservedCommand
  /-- raised by `step`: XRET with LVL 0 or 2 (30_encoding.md R134); safe -/
  | reservedXretLevel
  /-- raised by `step`: a guest word outside the opcode table, which the excluded decoder runs (00_scope.md R6); safe -/
  | guestWordOutsideTable
  /-- raised by VR_RD, VR_WR and VCFG_WR without V (30_encoding.md R135); safe -/
  | vectorInactive
  /-- raised by MRET and SRET without the privilege they require (42_trap_ops.md R265); safe -/
  | xretPrivilege
  /-- raised by SIG_SETUP with a signal number outside 1 to NSIG (43_signal_frame.md R290); safe -/
  | signalNumberOutOfRange
  deriving DecidableEq, Repr

/-- What an instruction answers. -/
abbrev Result := Host.Outcome State Fault Refusal

/-! ### Reset -/

/-- The vector overlay with every element 0. -/
def VecState.zero : VecState :=
  { vr := Vector.replicate 32 0, vstart := 0, vxsat := 0, vxrm := 0, vl := 0, vtype := 0 }

/-- The overlay with its XLEN-bit registers cut to XLEN. -/
def VecState.trunc (x : Xlen) (v : VecState) : VecState :=
  { v with vstart := x.trunc v.vstart, vl := x.trunc v.vl, vtype := x.trunc v.vtype }

/-- A request with every field 0. -/
def SigReq.zero : SigReq :=
  { sig := 0, handler := 0, onstack := false, restorer := 0, mask := 0, hmask := 0, info := Vector.replicate 128 0 }

/-- Operand ports that carry 0 (log entry 11). -/
def Operands.zero : Operands := { a := 0, b := 0, w := 0, req := SigReq.zero }

/-- STATUS OK, nothing returned, the signal port empty (30_encoding.md R131, R137). -/
def Response.ok : Response :=
  { status := .ok, dout := 0, wout := 0, forceSig := none, resetDisp := none, causeOut := none }

/-- What the loader supplies at launch (70_reset_and_hazards.md R391). -/
structure Launch where
  entry    : Word
  sp0      : Word
  blocked0 : BitVec 64
  /-- x1 to x31; x2 is taken from `sp0` -/
  x        : Vector Word 31
  f        : Vector (BitVec 64) 32
  vec      : VecState
  deriving DecidableEq, Repr

/-- A launch whose every input is 0. -/
def Launch.zero : Launch :=
  { entry := 0, sp0 := 0, blocked0 := 0, x := Vector.replicate 31 0, f := Vector.replicate 32 0, vec := VecState.zero }

/-- The values reset leaves unspecified (10_state.md R69): the draws, and what the registers hold before their first
write (log entry 3). -/
structure Draws where
  x       : Vector Word 31
  f       : Vector (BitVec 64) 32
  fflags  : BitVec 5
  frm     : BitVec 3
  mstatus : Mstatus
  mie     : Word
  mip     : Word
  medeleg : Word
  mideleg : Word
  mtvec   : Word
  mepc    : Word
  mtval   : Word
  stvec   : Word
  sepc    : Word
  scause  : Word
  stval   : Word
  vec     : VecState
  deriving DecidableEq, Repr

/-- mstatus with every field 0. -/
def Mstatus.zero : Mstatus :=
  { sie := false, mie := false, spie := false, mpie := false, spp := false, mpp := .u, fs := 0 }

/-- The draws under `RESET_ZERO` (00_scope.md R9). -/
def Draws.zero : Draws :=
  { x := Vector.replicate 31 0, f := Vector.replicate 32 0, fflags := 0, frm := 0, mstatus := Mstatus.zero,
    mie := 0, mip := 0, medeleg := 0, mideleg := 0, mtvec := 0, mepc := 0, mtval := 0, stvec := 0, sepc := 0,
    scause := 0, stval := 0, vec := VecState.zero }

/-- mstatus at reset (10_state.md R43, R69, 70_reset_and_hazards.md R391): MIE is 0, FS is 1 in a user environment, the
other fields are 0 under `RESET_ZERO`, and a drawn field is cut to its legal values (log entry 4). -/
def Mstatus.atReset (c : Config) (d : Mstatus) : Mstatus where
  sie := misaHas c.misa Ext.S && d.sie
  mie := false
  spie := misaHas c.misa Ext.S && d.spie
  mpie := d.mpie
  spp := misaHas c.misa Ext.S && d.spp
  mpp := if c.resetZero then .u else if d.mpp.legal c.misa then d.mpp else .m
  fs := match c.env with
    | .system => if misaFp c.misa then d.fs else 0
    | .user => 1

/-- A drawn trap vector with a legal MODE (10_state.md R46, R69). -/
def tvecAtReset (x : Xlen) (v : Word) : Word := x.trunc (if tvecLegal v then v else v &&& ~~~3#64)

/-- Reset and launch of a configuration (10_state.md R69, 70_reset_and_hazards.md R390, R391). -/
def State.resetOf (c : Config) (l : Launch) (draws : Draws) : State :=
  let d := if c.resetZero then Draws.zero else draws
  { cfg := c
    x := match c.env with
      | .system => d.x.map c.xlen.trunc
      | .user => (l.x.set 1 l.sp0).map c.xlen.trunc
    pc := match c.env with
      | .system => c.resetVector
      | .user => c.xlen.trunc l.entry
    f := match c.env with
      | .system => d.f
      | .user => l.f
    fflags := d.fflags
    frm := d.frm
    priv := match c.env with
      | .system => .m
      | .user => .u
    misa := c.misa
    features := c.features
    mstatus := Mstatus.atReset c d.mstatus
    mie := d.mie &&& implementedIrqs c.misa
    mip := d.mip &&& implementedIrqs c.misa
    medeleg := d.medeleg &&& medelegMask
    mideleg := d.mideleg &&& midelegMask
    mtvec := tvecAtReset c.xlen d.mtvec
    mepc := c.xlen.trunc d.mepc &&& epcMask c.misa
    mcause := 0
    mtval := c.xlen.trunc d.mtval
    stvec := tvecAtReset c.xlen d.stvec
    sepc := c.xlen.trunc d.sepc &&& epcMask c.misa
    scause := c.xlen.trunc d.scause
    stval := c.xlen.trunc d.stval
    vec := match c.env with
      | .system => d.vec.trunc c.xlen
      | .user => l.vec.trunc c.xlen
    blocked := l.blocked0
    altstack := { ssSp := 0, ssSize := 0 }
    mem := []
    ops := Operands.zero
    resp := Response.ok
    inbox := [] }

/-- The machine right after reset, in the configuration of log entry 2, under `RESET_ZERO` (log entries 3, 4). -/
def State.reset : State := State.resetOf defaultConfig Launch.zero Draws.zero

end Sys2Proof.Machine
end

