-- ==== Sys2Proof/Machine/Operands.lean ====
section
/-! DEFINITION. The operand forms (30_encoding.md R136), the response forms (30_encoding.md R137) and the hand-over of a
transaction to the operand ports (30_encoding.md R130). -/

namespace Sys2Proof.Machine

/-- `v[XLEN-1:0]`. -/
def State.tr (s : State) (v : Word) : Word := s.cfg.xlen.trunc v

/-- The XLEN-bit operand `A[XLEN-1:0]`. -/
def State.opA (s : State) : Word := s.tr s.ops.a

/-- The XLEN-bit operand `B[XLEN-1:0]`. -/
def State.opB (s : State) : Word := s.tr s.ops.b

/-- The 64-bit operand `A[63:0]` of FPR_WR and MASK_WR. -/
def State.opA64 (s : State) : BitVec 64 := s.ops.a

/-- The vector operand `W[VLEN-1:0]`. -/
def State.opW (s : State) : VWord := s.ops.w

/-- The numbers of STATUS (30_encoding.md R137). -/
def Status.code : Status → Nat
  | .ok => 0
  | .illegalCsr => 1
  | .frameFault => 2
  | .sigreturn => 3

/-- Status OK with a result on DOUT. -/
def Response.data (v : BitVec 64) : Response := { Response.ok with dout := v }

/-- Status OK with a result on WOUT. DOUT is 0: the spec gives DOUT no value after VR_RD, and this is the model's choice
(DESIGN CHOICE, log entry 11). -/
def Response.vector (v : VWord) : Response := { Response.ok with wout := v }

/-- Status ILLEGAL_CSR: DOUT and WOUT are 0 (30_encoding.md R137). -/
def Response.illegal : Response := { Response.ok with status := .illegalCsr }

/-- Status FRAME_FAULT with a forced signal and an optional disposition reset (43_signal_frame.md R296, R297, R306). -/
def Response.fault (sig : BitVec 8) (reset : Option (BitVec 8)) : Response :=
  { Response.ok with status := .frameFault, forceSig := some sig, resetDisp := reset }

/-- Status SIGRETURN with DOUT 0 (43_signal_frame.md R301). -/
def Response.sigreturned : Response := { Response.ok with status := .sigreturn }

/-- Status OK with a cause on the signal port (60_exceptions.md R356). -/
def Response.cause (c : Word) : Response := { Response.ok with causeOut := some c }

/-- A command ends with a response: the ports it does not set are empty or 0 (30_encoding.md R131, R137). -/
def State.respond (s : State) (r : Response) : State := { s with resp := r }

/-- A transaction is taken from the queue: its operands go to the operand ports. -/
def State.accept (s : State) (t : Transaction) (rest : List Transaction) : State :=
  { s with ops := t.ops, inbox := rest }

end Sys2Proof.Machine
end

