-- ==== Sys2Proof/Machine/Flags.lean ====
section
/-! DEFINITION. The status words: mstatus as a word and its write (10_state.md R42, R43, 41_csr_dispatch.md R220), the
sstatus view (R224), and fcsr (10_state.md R37, R38, 41_csr_dispatch.md R218, R219). -/

namespace Sys2Proof.Machine

/-- A one-bit field at its position. -/
def flagBit (b : Bool) (n : Nat) : Word := if b then 1#64 <<< n else 0

/-- `mstatus_value(s)` (41_csr_dispatch.md R220). -/
def Mstatus.value (x : Xlen) (m : Mstatus) : Word :=
  flagBit m.sie 1 ||| flagBit m.mie 3 ||| flagBit m.spie 5 ||| flagBit m.mpie 7 ||| flagBit m.spp 8
    ||| (m.mpp.code.setWidth 64 <<< 11) ||| (m.fs.setWidth 64 <<< 13)
    ||| (if m.fs = 3 then x.topBit else 0)

/-- The mode a write of MPP leaves: a value that is no legal privilege keeps the old one (10_state.md R43). -/
def legalMpp (misa : Word) (old : Priv) (v : BitVec 2) : Priv :=
  match Priv.ofCode v with
  | some p => if p.legal misa then p else old
  | none => old

/-- `mstatus.write(v)` (41_csr_dispatch.md R220): MIE, MPIE and MPP always, the S fields with S, FS with F or D. -/
def Mstatus.write (misa : Word) (m : Mstatus) (v : Word) : Mstatus where
  sie := if misaHas misa Ext.S then v.getLsbD 1 else m.sie
  mie := v.getLsbD 3
  spie := if misaHas misa Ext.S then v.getLsbD 5 else m.spie
  mpie := v.getLsbD 7
  spp := if misaHas misa Ext.S then v.getLsbD 8 else m.spp
  mpp := legalMpp misa m.mpp (v.extractLsb' 11 2)
  fs := if misaFp misa then v.extractLsb' 13 2 else m.fs

/-- `SSTATUS_W` (41_csr_dispatch.md R224): SIE, SPIE, SPP, FS. -/
def sstatusWriteMask : Word := 0x6122

/-- `SSTATUS_R` (41_csr_dispatch.md R224): `SSTATUS_W` and SD. -/
def sstatusReadMask (x : Xlen) : Word := sstatusWriteMask ||| x.topBit

/-- mstatus as a word of this state. -/
def State.mstatusValue (s : State) : Word := s.mstatus.value s.cfg.xlen

/-- The state after a write of mstatus (41_csr_dispatch.md R220). -/
def State.writeMstatus (s : State) (v : Word) : State := { s with mstatus := s.mstatus.write s.misa v }

/-- `V_ACTIVE(s) = s.misa[21]` (10_state.md R52). -/
def State.vActive (s : State) : Bool := misaHas s.misa Ext.V

/-- fcsr carries the vector mirror (10_state.md R38). -/
def State.vxMirrorOn (s : State) : Bool := s.cfg.fcsrVxMirror && s.vActive

/-- `vxmirror(s)` (10_state.md R38). -/
def State.vxmirror (s : State) : BitVec 3 := if s.vxMirrorOn then s.vec.vxrm ++ s.vec.vxsat else 0

/-- `fcsr_value(s)` (10_state.md R38). -/
def State.fcsrValue (s : State) : BitVec 32 := (s.vxmirror ++ (s.frm ++ s.fflags)).setWidth 32

/-- The fields a write of fcsr installs, without its effect on FS (41_csr_dispatch.md R218, 43_signal_frame.md R304). -/
def State.installFcsr (s : State) (v : BitVec 32) : State :=
  { s with
    fflags := v.extractLsb' 0 5
    frm := v.extractLsb' 5 3
    vec := if s.vxMirrorOn then { s.vec with vxsat := v.extractLsb' 8 1, vxrm := v.extractLsb' 9 2 } else s.vec }

/-- FS becomes 3, Dirty (41_csr_dispatch.md R219). -/
def State.dirtyFs (s : State) : State := { s with mstatus := { s.mstatus with fs := 3 } }

end Sys2Proof.Machine
end

