-- ==== Sys2Proof/Machine/Ops.lean ====
section
/-! DEFINITION. The shared operations: register files (00_scope.md R12), guest memory and its lock (00_scope.md R13,
20_memory.md), taking a trap (60_exceptions.md R344 to R354) and returning from one (R360, R362). -/

namespace Sys2Proof.Machine

/-! ### Register files -/

/-- `x[i]`: x0 reads 0 (40_regfile_ops.md R170). -/
def State.readX (s : State) (i : RegIdx) : Word :=
  if h : i = 0 then 0 else s.x[i.toNat - 1]'(by have := i.isLt; omega)

/-- `x[i] <- v`: a write of x0 is discarded (40_regfile_ops.md R171). -/
def State.writeX (s : State) (i : RegIdx) (v : Word) : State :=
  if h : i = 0 then s else { s with x := s.x.set (i.toNat - 1) v (by have := i.isLt; omega) }

/-- `f[i]` (40_regfile_ops.md R176). -/
def State.readF (s : State) (i : RegIdx) : BitVec 64 := s.f[i.toNat]'(by have := i.isLt; omega)

/-- `f[i] <- v` (40_regfile_ops.md R177). -/
def State.writeF (s : State) (i : RegIdx) (v : BitVec 64) : State :=
  { s with f := s.f.set i.toNat v (by have := i.isLt; omega) }

/-- `vr[i]` (40_regfile_ops.md R172). -/
def State.readV (s : State) (i : RegIdx) : VWord := s.vec.vr[i.toNat]'(by have := i.isLt; omega)

/-- `vr[i] <- v` (40_regfile_ops.md R173). -/
def State.writeV (s : State) (i : RegIdx) (v : VWord) : State :=
  { s with vec := { s.vec with vr := s.vec.vr.set i.toNat v (by have := i.isLt; omega) } }

/-! ### Guest memory -/

/-- What an unlisted address reads as (log entry 5). -/
def unlistedByte : Byte := 0

/-- The canonical form: addresses strictly rising, no cell equal to what an unlisted address reads as. -/
abbrev Memory.wf (m : Memory) : Prop := m.Pairwise (fun p q => p.1 < q.1) ∧ ∀ c ∈ m, c.2 ≠ unlistedByte

/-- The byte at an address. -/
def Memory.readByte : Memory → Nat → Byte
  | [], _ => unlistedByte
  | (k, v) :: t, a => if k = a then v else Memory.readByte t a

/-- A cell put in front of cells of higher addresses, or left out if it holds what an unlisted address reads as. -/
def Memory.put (a : Nat) (b : Byte) (t : Memory) : Memory := if b = unlistedByte then t else (a, b) :: t

/-- A byte written, the canonical form kept. -/
def Memory.writeByte : Memory → Nat → Byte → Memory
  | [], a, b => Memory.put a b []
  | (k, v) :: t, a, b =>
    if a < k then Memory.put a b ((k, v) :: t)
    else if a = k then Memory.put a b t
    else (k, v) :: Memory.writeByte t a b

/-- Consecutive bytes written, the first at the lowest address. -/
def Memory.writeBytes (m : Memory) (a : Nat) : List Byte → Memory
  | [] => m
  | b :: t => Memory.writeBytes (m.writeByte a b) (a + 1) t

/-- `n` consecutive bytes, the first from the lowest address. -/
def Memory.readBytes (m : Memory) (a : Nat) : Nat → List Byte
  | 0 => []
  | n + 1 => m.readByte a :: Memory.readBytes m (a + 1) n

/-- The low `n` bytes of a word, least significant first (20_memory.md R104). -/
def leBytes : Nat → Word → List Byte
  | 0, _ => []
  | n + 1, v => v.extractLsb' 0 8 :: leBytes n (v >>> 8)

/-- The word whose bytes are given, least significant first (20_memory.md R104). -/
def ofLeBytes : List Byte → Word
  | [] => 0
  | b :: t => b.setWidth 64 ||| (ofLeBytes t <<< 8)

/-- `MemRead(addr, n)` for `n` up to 8, zero-extended (00_scope.md R13). -/
def Memory.load (m : Memory) (a n : Nat) : Word := ofLeBytes (m.readBytes a n)

/-- The manager admits one byte for the mode (20_memory.md R102). -/
def admitted (regions : List Region) (mode : LockMode) (a : Nat) : Bool :=
  regions.any fun r =>
    decide (r.base ≤ a) && decide (a < r.base + r.size) &&
      match mode with
      | .read => r.readable
      | .write => r.writable

/-- The manager admits every byte of `[a, a+n)` for the mode. -/
def admittedRange (regions : List Region) (mode : LockMode) : Nat → Nat → Bool
  | _, 0 => true
  | a, n + 1 => admitted regions mode a && admittedRange regions mode (a + 1) n

/-- `Lock(addr, n, mode)`: a range that wraps past 2^XLEN fails without asking the manager (20_memory.md R102, R103). -/
def State.lock (s : State) (addr : Word) (n : Nat) (mode : LockMode) : Bool :=
  decide (addr.toNat + n ≤ 2 ^ s.cfg.xlen.bits) && admittedRange s.cfg.regions mode addr.toNat n

/-! ### Taking a trap -/

/-- `is_interrupt(R) = R[XLEN-1]` (60_exceptions.md R344). -/
def isInterrupt (x : Xlen) (c : Word) : Bool := c.getLsbD (x.bits - 1)

/-- `code(R) = R[XLEN-2:0]` (60_exceptions.md R344). -/
def causeCode (x : Xlen) (c : Word) : Word := x.trunc c &&& ~~~x.topBit

/-- `Encode(s, R)` (60_exceptions.md R345). -/
def State.encodeCause (s : State) (r : Word) : Word :=
  if !isInterrupt s.cfg.xlen r && causeCode s.cfg.xlen r == 8 then 8 + s.priv.code.setWidth 64 else r

/-- The bit of the delegation register that a cause selects; a code of XLEN or more selects none (60_exceptions.md
R347). -/
def State.delegated (s : State) (c : Word) : Bool :=
  let bitset := if isInterrupt s.cfg.xlen c then s.mideleg else s.medeleg
  let k := (causeCode s.cfg.xlen c).toNat
  decide (k < s.cfg.xlen.bits) && bitset.getLsbD k

/-- The target of a trap is S; otherwise it is M (60_exceptions.md R347). -/
def State.targetsS (s : State) (c : Word) : Bool := misaHas s.misa Ext.S && s.priv != .m && s.delegated c

/-- The exception codes that write the trap value (60_exceptions.md R351). -/
def tvalCodes : List Nat := [0, 1, 4, 5, 6, 7, 12, 13, 15]

/-- `TvalFor(c, t)` (60_exceptions.md R351). -/
def tvalFor (x : Xlen) (c t : Word) : Word :=
  if !isInterrupt x c && tvalCodes.contains (causeCode x c).toNat then t else 0

/-- `Vector(tvec, c)` (60_exceptions.md R354). -/
def trapVector (x : Xlen) (tvec c : Word) : Word :=
  let base := tvec &&& ~~~3#64
  if tvec.extractLsb' 0 2 = 1 ∧ isInterrupt x c then x.trunc (base + 4 * causeCode x c) else base

/-- `TrapEnter(s, R, t)` (60_exceptions.md R352): saves pc in xepc, the cause and the trap value, stacks the interrupt
enable and the mode, and sends pc to the vector. -/
def State.trapEnter (s : State) (r t : Word) : State :=
  let c := s.encodeCause r
  let v := tvalFor s.cfg.xlen c t
  if s.targetsS c then
    { s with
      sepc := s.pc &&& epcMask s.misa
      scause := c
      stval := v
      mstatus := { s.mstatus with spie := s.mstatus.sie, sie := false, spp := s.priv.code.getLsbD 0 }
      priv := .s
      pc := trapVector s.cfg.xlen s.stvec c }
  else
    { s with
      mepc := s.pc &&& epcMask s.misa
      mcause := c
      mtval := v
      mstatus := { s.mstatus with mpie := s.mstatus.mie, mie := false, mpp := s.priv }
      priv := .m
      pc := trapVector s.cfg.xlen s.mtvec c }

/-- TRAP's effect for both environments (42_trap_ops.md R260): the trap entry, or the encoded cause on the signal port
with no state changed (60_exceptions.md R356). -/
def State.takeTrap (s : State) (r t : Word) : State :=
  match s.cfg.env with
  | .system => (s.trapEnter r t).respond .ok
  | .user => s.respond (.cause (s.encodeCause r))

/-! ### Returning from a trap -/

/-- MRET's effect (60_exceptions.md R360). -/
def State.mretReturn (s : State) : State :=
  { s with
    mstatus := { s.mstatus with
      mie := s.mstatus.mpie
      mpie := true
      mpp := if misaHas s.misa Ext.U then .u else .m }
    priv := s.mstatus.mpp
    pc := s.mepc }

/-- SRET's effect (60_exceptions.md R362). -/
def State.sretReturn (s : State) : State :=
  { s with
    mstatus := { s.mstatus with sie := s.mstatus.spie, spie := true, spp := false }
    priv := if s.mstatus.spp then .s else .u
    pc := s.sepc }

/-! ### The alternate signal stack -/

/-- `on_sig_stack(s, sp)` (10_state.md R60). -/
def State.onSigStack (s : State) (sp : Word) : Bool := decide (s.tr (sp - s.altstack.ssSp) < s.altstack.ssSize)

/-- `sas_ss_flags(s, sp)`: SS_DISABLE 2, SS_ONSTACK 1, or 0 (10_state.md R60). -/
def State.sasSsFlags (s : State) (sp : Word) : Word :=
  if s.altstack.ssSize = 0 then 2 else if s.onSigStack sp then 1 else 0

/-- `AltInstall(s, d, sp)` (43_signal_frame.md R313): the result code and the state. -/
def State.altInstall (s : State) (ssSp ssFlags ssSize sp : Word) : Word × State :=
  if s.onSigStack sp then (1, s)
  else if ssFlags = 2 then (0, { s with altstack := { ssSp := 0, ssSize := 0 } })
  else if (ssFlags = 0 ∨ ssFlags = 1) ∧ MINSIGSTKSZ ≤ ssSize.toNat then
    (0, { s with altstack := { ssSp := ssSp, ssSize := ssSize } })
  else (2, s)

end Sys2Proof.Machine
end

