-- ==== Sys2Proof/Machine/Csr.lean ====
section
/-! DEFINITION. The CSR dispatch multiplexer (41_csr_dispatch.md): the predicates and handlers a descriptor may name, the
access of R200, and the three commands over it. -/

namespace Sys2Proof.Machine

/-! ### What a configuration adds to the baseline (R201, R215)

Functions of the state and the index, of which nothing is known but their types (log entry 12). -/

/-- `pred(s, i)` of the k-th predicate a configuration adds (R201). -/
opaque addedPred : Nat → State → CsrIdx → Bool

/-- `read(s, i)` of the k-th read handler a configuration adds; none is `fail` (R201, R210). -/
opaque addedRead : Nat → State → CsrIdx → Option Word

/-- `write(s, i, v)` of the k-th write handler a configuration adds; none is `fail` (R201, R210). -/
opaque addedWrite : Nat → State → CsrIdx → Word → Option State

/-- `rmw(s, i, nv, m)` of the k-th combined handler a configuration adds; none is `fail` (R201, R210). -/
opaque addedRmw : Nat → State → CsrIdx → Word → Word → Option (Word × State)

/-- The state an added predicate or handler is given: the block's (10_state.md R30). The ports and guest memory are no part of
it (R62, 20_memory.md R100), nor are the registers of an absent S or V, which show as 0 (10_state.md R45, R50, R58; log entry
14). -/
def State.block (s : State) : State :=
  let hasS := misaHas s.misa Ext.S
  { s with
    medeleg := if hasS then s.medeleg else 0
    mideleg := if hasS then s.mideleg else 0
    stvec := if hasS then s.stvec else 0
    sepc := if hasS then s.sepc else 0
    scause := if hasS then s.scause else 0
    stval := if hasS then s.stval else 0
    vec := if s.vActive then s.vec else VecState.zero
    mem := []
    ops := Operands.zero
    resp := Response.ok
    inbox := [] }

/-- The state `t` of an added handler, installed over `s`. A handler may change any register (R211 (c)), each to a legal
value, but for what another rule keeps to other operations: misa and features (10_state.md R40, R41), pc (R34), the mode
(60_exceptions.md R340), MSIP, MTIP and MEIP (42_trap_ops.md R264), vl and vtype (R232), the registers of an absent S
(10_state.md R45, R50; log entry 14) or V (R58), `blocked` and the alternate stack (R59, R60), and guest memory (20_memory.md
R100). -/
def State.install (s t : State) : State :=
  let hasS := misaHas s.misa Ext.S
  { s with
    x := t.x.map s.tr
    f := t.f
    fflags := t.fflags
    frm := t.frm
    mstatus := s.mstatus.write s.misa (t.mstatus.value s.cfg.xlen)
    mie := t.mie &&& implementedIrqs s.misa
    mip := (s.mip &&& ~~~mipWritable s.misa) ||| (t.mip &&& mipWritable s.misa)
    medeleg := if hasS then t.medeleg &&& medelegMask else s.medeleg
    mideleg := if hasS then t.mideleg &&& midelegMask else s.mideleg
    mtvec := tvecWrite s.mtvec (s.tr t.mtvec)
    mepc := s.tr t.mepc &&& epcMask s.misa
    mcause := s.tr t.mcause
    mtval := s.tr t.mtval
    stvec := if hasS then tvecWrite s.stvec (s.tr t.stvec) else s.stvec
    sepc := if hasS then s.tr t.sepc &&& epcMask s.misa else s.sepc
    scause := if hasS then s.tr t.scause else s.scause
    stval := if hasS then s.tr t.stval else s.stval
    vec :=
      if s.vActive then
        { s.vec with vr := t.vec.vr, vstart := s.tr t.vec.vstart, vxsat := t.vec.vxsat, vxrm := t.vec.vxrm }
      else s.vec }

/-! ### Predicates and handlers -/

/-- The predicates (R214). -/
def predHolds (s : State) (i : CsrIdx) : CsrPred → Bool
  | .any => true
  | .smode => misaHas s.misa Ext.S
  | .fp => misaFp s.misa && s.mstatus.fs != 0
  | .vec => s.vActive
  | .added k => addedPred k s.block i

/-- A descriptor without a predicate is available (R205). -/
def available (s : State) (i : CsrIdx) (d : CsrDescriptor) : Bool :=
  match d.pred with
  | some p => predHolds s i p
  | none => true

/-- The read handlers (R216 to R232); none is `fail` (R210). -/
def readCsr (s : State) (i : CsrIdx) : CsrRead → Option Word
  | .fflags => some (s.fflags.setWidth 64)
  | .frm => some (s.frm.setWidth 64)
  | .fcsr => some (s.fcsrValue.setWidth 64)
  | .vstart => some s.vec.vstart
  | .vxsat => some (s.vec.vxsat.setWidth 64)
  | .vxrm => some (s.vec.vxrm.setWidth 64)
  | .vl => some s.vec.vl
  | .vtype => some s.vec.vtype
  | .sstatus => some (s.mstatusValue &&& sstatusReadMask s.cfg.xlen)
  | .sie => some (s.mie &&& s.mideleg)
  | .stvec => some s.stvec
  | .sepc => some s.sepc
  | .scause => some s.scause
  | .stval => some s.stval
  | .mstatus => some s.mstatusValue
  | .misa => some s.misa
  | .medeleg => some s.medeleg
  | .mideleg => some s.mideleg
  | .mie => some s.mie
  | .mtvec => some s.mtvec
  | .mepc => some s.mepc
  | .mcause => some s.mcause
  | .mtval => some s.mtval
  | .const v => some (s.tr v)
  | .fails => none
  | .added k => (addedRead k s.block i).map s.tr

/-- `mie.write(v)` (R223). -/
def State.writeMie (s : State) (v : Word) : State := { s with mie := v &&& implementedIrqs s.misa }

/-- The write handlers (R216 to R231); none is `fail` (R210). -/
def writeCsr (s : State) (i : CsrIdx) (h : CsrWrite) (v : Word) : Option State :=
  match h with
  | .fflags => some { s with fflags := v.extractLsb' 0 5 }.dirtyFs
  | .frm => some { s with frm := v.extractLsb' 0 3 }.dirtyFs
  | .fcsr => some (s.installFcsr (v.setWidth 32)).dirtyFs
  | .vstart => some { s with vec := { s.vec with vstart := v } }
  | .vxsat => some { s with vec := { s.vec with vxsat := v.extractLsb' 0 1 } }
  | .vxrm => some { s with vec := { s.vec with vxrm := v.extractLsb' 0 2 } }
  | .sstatus => some (s.writeMstatus ((s.mstatusValue &&& ~~~sstatusWriteMask) ||| (v &&& sstatusWriteMask)))
  | .sie => some (s.writeMie ((s.mie &&& ~~~s.mideleg) ||| (v &&& s.mideleg)))
  | .stvec => some { s with stvec := tvecWrite s.stvec v }
  | .sepc => some { s with sepc := v &&& epcMask s.misa }
  | .scause => some { s with scause := v }
  | .stval => some { s with stval := v }
  | .mstatus => some (s.writeMstatus v)
  | .medeleg => some { s with medeleg := v &&& medelegMask }
  | .mideleg => some { s with mideleg := v &&& midelegMask }
  | .mie => some (s.writeMie v)
  | .mtvec => some { s with mtvec := tvecWrite s.mtvec v }
  | .mepc => some { s with mepc := v &&& epcMask s.misa }
  | .mcause => some { s with mcause := v }
  | .mtval => some { s with mtval := v }
  | .ignored => some s
  | .fails => none
  | .added k => (addedWrite k s.block i v).map s.install

/-- mip with the bits of `wm` taken from `nv`. -/
def State.mergeMip (s : State) (nv wm : Word) : State := { s with mip := (s.mip &&& ~~~wm) ||| (nv &&& wm) }

/-- The combined handlers (R227, R228); none is `fail` (R210). Of an added one the bits of `nv` outside the mask are ignored
(R212) and with mask 0 the state is as it was (R211 (b)). -/
def rmwCsr (s : State) (i : CsrIdx) (h : CsrRmw) (nv m : Word) : Option (Word × State) :=
  match h with
  | .mip => some (s.mip, s.mergeMip nv (m &&& mipWritable s.misa))
  | .sip => some (s.mip &&& s.mideleg, s.mergeMip nv (m &&& s.mideleg &&& 0x2))
  | .fails => none
  | .added k => (addedRmw k s.block i (nv &&& m) m).map fun r => (s.tr r.1, if m = 0 then s else s.install r.2)

/-- The descriptor registered at an index (R201, R202). -/
def State.descriptor (s : State) (i : CsrIdx) : Option CsrDescriptor := s.cfg.csrTable.lookup i

/-- The checks of R203, R204 and R205. -/
def State.csrAllowed (s : State) (i : CsrIdx) (m : Word) (d : CsrDescriptor) : Bool :=
  !decide (s.priv.code < i.extractLsb' 8 2) && !(i.extractLsb' 10 2 == 3 && m != 0) && available s i d

/-- The value a write composes: `(old & ~m) | (nv & m)` (R207). -/
def mergeMask (old nv m : Word) : Word := (old &&& ~~~m) ||| (nv &&& m)

/-- The access through separate handlers (R207 to R210). -/
def State.csrSeparate (s : State) (i : CsrIdx) (d : CsrDescriptor) (nv m : Word) : Option (Word × State) :=
  match d.read with
  | none => none
  | some h =>
    match readCsr s i h with
    | none => none
    | some old =>
      if m = 0 then some (old, s)
      else
        match d.write with
        | none => none
        | some w => (writeCsr s i w (mergeMask old nv m)).map fun s' => (old, s')

/-- `CsrAccess(s, i, nv, m)` (R200): the old value and the state, or none for IllegalCsrAccess. -/
def State.csrAccess (s : State) (i : CsrIdx) (nv m : Word) : Option (Word × State) :=
  match s.descriptor i with
  | none => none
  | some d =>
    if s.csrAllowed i m d then
      match d.rmw with
      | some h => rmwCsr s i h nv m
      | none => s.csrSeparate i d nv m
    else none

/-- CSR_RMW (R212). -/
def execCsrRmw (csr : CsrIdx) (s : State) : Result :=
  match s.csrAccess csr s.opA s.opB with
  | some (old, s') => .next (s'.respond (.data old))
  | none => .next (s.respond .illegal)

/-- CSR_RD (R213): the state is not changed. -/
def execCsrRd (csr : CsrIdx) (s : State) : Result :=
  match s.csrAccess csr 0 0 with
  | some (old, _) => .next (s.respond (.data old))
  | none => .next (s.respond .illegal)

/-- CSR_WR (R233): the old value is discarded. -/
def execCsrWr (csr : CsrIdx) (s : State) : Result :=
  match s.csrAccess csr s.opA s.cfg.xlen.ones with
  | some (_, s') => .next (s'.respond .ok)
  | none => .next (s.respond .illegal)

end Sys2Proof.Machine
end

