-- ==== Sys2Proof/Machine/Guest.lean ====
section
/-! DEFINITION. The guest instructions of the opcode table (30_encoding.md R141, R142): the sequences of block commands
that a decoder issues for them. pc is not advanced: that is the engine's PC_WR (10_state.md R34; log entries 8, 9). -/

namespace Sys2Proof.Machine

/-- A Zicsr instruction (30_encoding.md R141): the access, then `rd` gets the old value. An illegal access writes no rd and
raises illegal instruction, raw cause 2 (60_exceptions.md R358). -/
def guestCsrAccess (rd : RegIdx) (csr : CsrIdx) (nv m : Word) (s : State) : Result :=
  match s.csrAccess csr nv m with
  | some (old, s') => .next ((s'.writeX rd old).respond .ok)
  | none => .next (s.takeTrap 2 0)

/-- CSRRW rd, csr, rs1. -/
def execCsrrw (rd rs1 : RegIdx) (csr : CsrIdx) (s : State) : Result :=
  guestCsrAccess rd csr (s.readX rs1) s.cfg.xlen.ones s

/-- CSRRS rd, csr, rs1: `x[0]` reads 0, so rs1 = 0 gives the zero mask. -/
def execCsrrs (rd rs1 : RegIdx) (csr : CsrIdx) (s : State) : Result :=
  guestCsrAccess rd csr s.cfg.xlen.ones (s.readX rs1) s

/-- CSRRC rd, csr, rs1: `x[0]` reads 0, so rs1 = 0 gives the zero mask. -/
def execCsrrc (rd rs1 : RegIdx) (csr : CsrIdx) (s : State) : Result :=
  guestCsrAccess rd csr 0 (s.readX rs1) s

/-- CSRRWI rd, csr, uimm. -/
def execCsrrwi (rd uimm : RegIdx) (csr : CsrIdx) (s : State) : Result :=
  guestCsrAccess rd csr (uimm.setWidth 64) s.cfg.xlen.ones s

/-- CSRRSI rd, csr, uimm. -/
def execCsrrsi (rd uimm : RegIdx) (csr : CsrIdx) (s : State) : Result :=
  guestCsrAccess rd csr s.cfg.xlen.ones (uimm.setWidth 64) s

/-- CSRRCI rd, csr, uimm. -/
def execCsrrci (rd uimm : RegIdx) (csr : CsrIdx) (s : State) : Result :=
  guestCsrAccess rd csr 0 (uimm.setWidth 64) s

/-- li a7, 139: x17 gets the number of rt_sigreturn (30_encoding.md R142). -/
def execTrampLiA7 (s : State) : Result := .next ((s.writeX 17 139).respond .ok)

/-- ecall: an environment call is supplied as raw cause 8 (60_exceptions.md R345). -/
def execTrampEcall (s : State) : Result := .next (s.takeTrap 8 0)

end Sys2Proof.Machine
end

