-- ==== Sys2Proof/Machine/RegFile.lean ====
section
/-! DEFINITION. Register-file operations (40_regfile_ops.md). -/

namespace Sys2Proof.Machine

/-- GPR_RD (R170). -/
def execGprRd (r : RegIdx) (s : State) : Result := .next (s.respond (.data (s.readX r)))

/-- GPR_WR (R171). -/
def execGprWr (r : RegIdx) (s : State) : Result := .next ((s.writeX r s.opA).respond .ok)

/-- FPR_RD (R176): neither FS nor misa is checked. -/
def execFprRd (r : RegIdx) (s : State) : Result := .next (s.respond (.data (s.readF r)))

/-- FPR_WR (R177): the 64 bits as they are, FS unchanged. -/
def execFprWr (r : RegIdx) (s : State) : Result := .next ((s.writeF r s.opA64).respond .ok)

/-- A vector command needs V_ACTIVE (R172, R173, R179); otherwise it is refused (30_encoding.md R135). -/
def requireVector (s : State) (answer : Result) : Result :=
  if s.vActive then answer else .refused .vectorInactive

/-- VR_RD (R172). -/
def execVrRd (r : RegIdx) (s : State) : Result := requireVector s (.next (s.respond (.vector (s.readV r))))

/-- VR_WR (R173). -/
def execVrWr (r : RegIdx) (s : State) : Result := requireVector s (.next ((s.writeV r s.opW).respond .ok))

/-- PC_RD (R174). -/
def execPcRd (s : State) : Result := .next (s.respond (.data s.pc))

/-- PC_WR (R175): no alignment is checked. -/
def execPcWr (s : State) : Result := .next ({ s with pc := s.opA }.respond .ok)

/-- PRIV_RD (R183). -/
def execPrivRd (s : State) : Result := .next (s.respond (.data (s.priv.code.setWidth 64)))

/-- EXT_Q (R182). -/
def execExtQ (arg : BitVec 8) (s : State) : Result :=
  .next (s.respond (.data (if arg.toNat < 26 then flagBit (misaHas s.misa arg.toNat) 0 else 0)))

/-- FEAT_Q (R178). -/
def execFeatQ (arg : BitVec 8) (s : State) : Result :=
  .next (s.respond (.data (if arg.toNat < 2 then flagBit (s.features.getLsbD arg.toNat) 0 else 0)))

/-- The field vsew of a vtype value (10_state.md R55). -/
def vsew (l : VtypeLayout) (vt : Word) : Nat :=
  match l with
  | .v071 => (vt.extractLsb' 2 3).toNat
  | .v10 => (vt.extractLsb' 3 3).toNat

/-- The field vlmul of a vtype value: unsigned under V071, two's complement under V10 (10_state.md R55), where the
reserved 0b100 is taken as -4 (R181). -/
def vlmul (l : VtypeLayout) (vt : Word) : Int :=
  match l with
  | .v071 => (vt.extractLsb' 0 2).toNat
  | .v10 => (vt.extractLsb' 0 3).toInt

/-- `vlmax(vt) = VLEN >> (vsew(vt) + 3 - vlmul(vt))` (R180); the shift amount is never negative. -/
def vlmaxOf (l : VtypeLayout) (vt : Word) : Nat := VLEN >>> ((vsew l vt : Int) + 3 - vlmul l vt).toNat

/-- VLMAX (R181): vill is not consulted, and V_ACTIVE is not needed. -/
def execVlmax (s : State) : Result :=
  .next (s.respond (.data (BitVec.ofNat 64 (vlmaxOf s.cfg.vtypeLayout s.opA))))

/-- VCFG_WR (R179): any vl and any vtype are stored, vstart is not changed. -/
def execVcfgWr (s : State) : Result :=
  requireVector s (.next ({ s with vec := { s.vec with vl := s.opA, vtype := s.opB } }.respond .ok))

end Sys2Proof.Machine
end

