-- ==== Sys2Proof/Decode.lean ====
section
/-! DEFINITION. Reading a word (30_encoding.md R132 to R134 for a command, R141 and R142 for a guest instruction), and
after it the encoder. Decoding is total: a word with no meaning is rejected by name. -/

namespace Sys2Proof

/-- Why a word has no meaning. -/
inductive DecodeError where
  /-- OP 0x00 or 0x1B to 0x1F (30_encoding.md R134) -/
  | reservedOp
  /-- XRET with LVL 0 or 2 (30_encoding.md R134) -/
  | reservedLevel
  /-- a guest word that is neither a Zicsr instruction (30_encoding.md R141) nor a trampoline word (R142) -/
  | otherGuestWord
  deriving DecidableEq, Repr

/-! Fields of the command word (30_encoding.md R132). -/

def opField (w : BitVec 32) : BitVec 5 := w.extractLsb' 0 5
def ridxField (w : BitVec 32) : RegIdx := w.extractLsb' 5 5
def csrField (w : BitVec 32) : CsrIdx := w.extractLsb' 10 12
def lvlField (w : BitVec 32) : BitVec 2 := w.extractLsb' 22 2
def argField (w : BitVec 32) : BitVec 8 := w.extractLsb' 24 8

/-- The operation map (30_encoding.md R133). -/
def decodeCommand (w : BitVec 32) : Except DecodeError Instr :=
  match (opField w).toNat with
  | 0x01 => .ok (.gprRd (ridxField w))
  | 0x02 => .ok (.gprWr (ridxField w))
  | 0x03 => .ok (.fprRd (ridxField w))
  | 0x04 => .ok (.fprWr (ridxField w))
  | 0x05 => .ok (.vrRd (ridxField w))
  | 0x06 => .ok (.vrWr (ridxField w))
  | 0x07 => .ok .pcRd
  | 0x08 => .ok .pcWr
  | 0x09 => .ok .privRd
  | 0x0A => .ok (.extQ (argField w))
  | 0x0B => .ok (.featQ (argField w))
  | 0x0C => .ok (.csrRmw (csrField w))
  | 0x0D => .ok (.csrRd (csrField w))
  | 0x0E => .ok (.csrWr (csrField w))
  | 0x0F => .ok .vlmax
  | 0x10 => .ok .vcfgWr
  | 0x11 => .ok .trap
  | 0x12 => .ok .irqPend
  | 0x13 => .ok .ipUpdate
  | 0x14 =>
    match (lvlField w).toNat with
    | 3 => .ok .mret
    | 1 => .ok .sret
    | _ => .error .reservedLevel
  | 0x15 => .ok .sigSetup
  | 0x16 => .ok .sigReturn
  | 0x17 => .ok .maskRd
  | 0x18 => .ok .maskWr
  | 0x19 => .ok (.altRd (argField w))
  | 0x1A => .ok (.altSet (argField w))
  | _ => .error .reservedOp

/-! Fields of a guest I-type word (30_encoding.md R141). -/

def opcodeField (w : BitVec 32) : BitVec 7 := w.extractLsb' 0 7
def rdField (w : BitVec 32) : RegIdx := w.extractLsb' 7 5
def funct3Field (w : BitVec 32) : BitVec 3 := w.extractLsb' 12 3
def rs1Field (w : BitVec 32) : RegIdx := w.extractLsb' 15 5
def immField (w : BitVec 32) : CsrIdx := w.extractLsb' 20 12

/-- The trampoline's words (30_encoding.md R142, 43_signal_frame.md R288). -/
def trampWord0 : BitVec 32 := 0x08B00893#32
def trampWord1 : BitVec 32 := 0x00000073#32

/-- The guest words of the opcode table (30_encoding.md R141, R142). -/
def decodeGuest (w : BitVec 32) : Except DecodeError Instr :=
  if w = trampWord0 then .ok .trampLiA7
  else if w = trampWord1 then .ok .trampEcall
  else if opcodeField w = 0b1110011#7 then
    match (funct3Field w).toNat with
    | 1 => .ok (.csrrw (rdField w) (rs1Field w) (immField w))
    | 2 => .ok (.csrrs (rdField w) (rs1Field w) (immField w))
    | 3 => .ok (.csrrc (rdField w) (rs1Field w) (immField w))
    | 5 => .ok (.csrrwi (rdField w) (rs1Field w) (immField w))
    | 6 => .ok (.csrrsi (rdField w) (rs1Field w) (immField w))
    | 7 => .ok (.csrrci (rdField w) (rs1Field w) (immField w))
    | _ => .error .otherGuestWord
  else .error .otherGuestWord

/-- The decoder: what a word means on the port it arrived on. -/
def decode : Channel → BitVec 32 → Except DecodeError Instr
  | .command, w => decodeCommand w
  | .guest, w => decodeGuest w

/-! The encoder. -/

/-- A command word: `OP | RIDX<<5 | CSR<<10 | LVL<<22 | ARG<<24` (30_encoding.md R132). -/
def commandWord (op : BitVec 5) (ridx : RegIdx) (csr : CsrIdx) (lvl : BitVec 2) (arg : BitVec 8) : BitVec 32 :=
  arg ++ (lvl ++ (csr ++ (ridx ++ op)))

/-- A SYSTEM I-type word (30_encoding.md R141). -/
def systemWord (csr : CsrIdx) (rs1 : RegIdx) (funct3 : BitVec 3) (rd : RegIdx) : BitVec 32 :=
  csr ++ (rs1 ++ (funct3 ++ (rd ++ 0b1110011#7)))

/-- The word of an instruction, with 0 in the fields it does not use. -/
def encode : Instr → BitVec 32
  | .gprRd r => commandWord 0x01 r 0 0 0
  | .gprWr r => commandWord 0x02 r 0 0 0
  | .fprRd r => commandWord 0x03 r 0 0 0
  | .fprWr r => commandWord 0x04 r 0 0 0
  | .vrRd r => commandWord 0x05 r 0 0 0
  | .vrWr r => commandWord 0x06 r 0 0 0
  | .pcRd => commandWord 0x07 0 0 0 0
  | .pcWr => commandWord 0x08 0 0 0 0
  | .privRd => commandWord 0x09 0 0 0 0
  | .extQ a => commandWord 0x0A 0 0 0 a
  | .featQ a => commandWord 0x0B 0 0 0 a
  | .csrRmw c => commandWord 0x0C 0 c 0 0
  | .csrRd c => commandWord 0x0D 0 c 0 0
  | .csrWr c => commandWord 0x0E 0 c 0 0
  | .vlmax => commandWord 0x0F 0 0 0 0
  | .vcfgWr => commandWord 0x10 0 0 0 0
  | .trap => commandWord 0x11 0 0 0 0
  | .irqPend => commandWord 0x12 0 0 0 0
  | .ipUpdate => commandWord 0x13 0 0 0 0
  | .mret => commandWord 0x14 0 0 3 0
  | .sret => commandWord 0x14 0 0 1 0
  | .sigSetup => commandWord 0x15 0 0 0 0
  | .sigReturn => commandWord 0x16 0 0 0 0
  | .maskRd => commandWord 0x17 0 0 0 0
  | .maskWr => commandWord 0x18 0 0 0 0
  | .altRd a => commandWord 0x19 0 0 0 a
  | .altSet a => commandWord 0x1A 0 0 0 a
  | .csrrw rd rs1 csr => systemWord csr rs1 1 rd
  | .csrrs rd rs1 csr => systemWord csr rs1 2 rd
  | .csrrc rd rs1 csr => systemWord csr rs1 3 rd
  | .csrrwi rd uimm csr => systemWord csr uimm 5 rd
  | .csrrsi rd uimm csr => systemWord csr uimm 6 rd
  | .csrrci rd uimm csr => systemWord csr uimm 7 rd
  | .trampLiA7 => trampWord0
  | .trampEcall => trampWord1

/-- The port a word of the opcode table belongs to: the guest channel for the words of 30_encoding.md R141 and R142, the
command port for every other word. A word can be a command and a guest word at once (0x00001073 is IP_UPDATE on the
command port and CSRRW on the guest channel); the machine tells them apart by the port, this function by the table's
more specific row (log entry 10). -/
def tableChannel (w : BitVec 32) : Channel :=
  match decodeGuest w with
  | .ok _ => .guest
  | .error _ => .command

/-- The instruction the decoder reads from a word numbered as spec/opcode_table.json numbers it. Every row has one
32-bit word, so the bits above 31 are 0 whatever `nbits` is. -/
def decodeTableWord (_nbits w : Nat) : Option Instr :=
  match decode (tableChannel (BitVec.ofNat 32 w)) (BitVec.ofNat 32 w) with
  | .ok i => some i
  | .error _ => none

end Sys2Proof
end

