-- ==== Sys2Proof/Machine/Signal.lean ====
section
/-! DEFINITION. The signal-frame serializer (43_signal_frame.md): the layout, capture (SIG_SETUP), restore (SIG_RETURN),
and access to the blocked mask and the alternate stack. Offsets are in bytes from the frame address F. -/

namespace Sys2Proof.Machine

/-! ### Layout -/

/-- `round_k(n)`: the least multiple of k that is at least n. -/
def roundUp (k n : Nat) : Nat := (n + (k - 1)) / k * k

/-- The info block (R281). -/
def infoOff : Nat := 8

/-- The user context (R281). -/
def ucOff : Nat := 144

/-- uc_flags, uc_link, the three fields of uc_stack and uc_sigmask (R284, R286). -/
def ucFlagsOff : Nat := ucOff
def ucLinkOff (x : Xlen) : Nat := ucOff + x.bytes
def ssSpOff (x : Xlen) : Nat := ucOff + 2 * x.bytes
def ssFlagsOff (x : Xlen) : Nat := ucOff + 3 * x.bytes
def ssSizeOff (x : Xlen) : Nat := ucOff + 4 * x.bytes
def sigmaskOff (x : Xlen) : Nat := ucOff + 5 * x.bytes

/-- MC_OFF, the machine context inside the user context (R282, R283). -/
def mcOff : Xlen → Nat
  | .rv64 => 176
  | .rv32 => 160

/-- The machine context (R293). -/
def mcbOff (x : Xlen) : Nat := ucOff + mcOff x

/-- The words inside the machine context: pc, then x1 to x31, then f0 to f31, then fcsr (R282, R283). -/
def pcOff (x : Xlen) : Nat := mcbOff x
def fprOff (x : Xlen) : Nat := mcbOff x + 32 * x.bytes
def fcsrOff (x : Xlen) : Nat := mcbOff x + 32 * x.bytes + 256

/-- VBASE, relative to the machine context (R282, R283). -/
def vBase (x : Xlen) (reserved : Nat) : Nat := roundUp 16 (32 * x.bytes + 260 + reserved)

/-- The vector registers and the five vector CSRs (R282, R283). -/
def vrOff (x : Xlen) (reserved : Nat) : Nat := mcbOff x + vBase x reserved
def vcsrOff (x : Xlen) (reserved : Nat) : Nat := mcbOff x + vBase x reserved + 512

/-- The vector area: 512 bytes of registers and five machine words, rounded to 16 (R289). -/
def vecAreaSize : Xlen → Nat
  | .rv64 => 560
  | .rv32 => 544

/-- MC_SIZE (R289). -/
def mcSize (x : Xlen) (reserved : Nat) (vectorArea : Bool) : Nat :=
  if vectorArea then vBase x reserved + vecAreaSize x
  else roundUp 8 (32 * x.bytes + 260 + reserved)

/-- FRAME_SIZE (R289). -/
def frameSizeOf (x : Xlen) (reserved : Nat) (vectorArea : Bool) : Nat :=
  ucOff + roundUp 16 (mcOff x + mcSize x reserved vectorArea)

/-- VA: the vector area is in the layout (R289). -/
def State.vectorArea (s : State) : Bool := s.vActive || s.cfg.vecArea == .reserved

/-- FRAME_SIZE of this state's configuration (R289). -/
def State.frameSize (s : State) : Nat := frameSizeOf s.cfg.xlen s.cfg.mcReserved s.vectorArea

/-! ### Capture -/

/-- A field of the frame: its offset and its bytes, the first at the lowest address. -/
abbrev Field := Nat × List Byte

/-- Equally spaced fields of `n` bytes, one for each word. -/
def wordsAt (off stride n : Nat) : List Word → List Field
  | [] => []
  | v :: t => (off, leBytes n v) :: wordsAt (off + stride) stride n t

/-- The fields written one after the other into the frame at an address. -/
def writeFields (m : Memory) (base : Nat) : List Field → Memory
  | [] => m
  | (o, bs) :: t => writeFields (m.writeBytes (base + o) bs) base t

/-- A vector register as its two 64-bit halves, the low one first (R282). -/
def halves (v : VWord) : List Word := [v.extractLsb' 0 64, v.extractLsb' 64 64]

/-- The five vector CSRs in the order of R282. -/
def VecState.csrs (v : VecState) : List Word :=
  [v.vstart, v.vxsat.setWidth 64, v.vxrm.setWidth 64, v.vl, v.vtype]

/-- The vector area, written only when V is active (R293). -/
def State.vectorFields (s : State) : List Field :=
  if s.vActive then
    wordsAt (vrOff s.cfg.xlen s.cfg.mcReserved) 8 8 (s.vec.vr.toList.flatMap halves)
      ++ wordsAt (vcsrOff s.cfg.xlen s.cfg.mcReserved) s.cfg.xlen.bytes s.cfg.xlen.bytes s.vec.csrs
  else []

/-- The machine context (R293). -/
def State.mcontextFields (s : State) : List Field :=
  wordsAt (pcOff s.cfg.xlen) s.cfg.xlen.bytes s.cfg.xlen.bytes (s.pc :: s.x.toList)
    ++ wordsAt (fprOff s.cfg.xlen) 8 8 s.f.toList
    ++ [(fcsrOff s.cfg.xlen, leBytes 4 (s.fcsrValue.setWidth 64))]
    ++ s.vectorFields

/-- The user context (R294); the flags are those of the sp before delivery. -/
def State.ucontextFields (s : State) : List Field :=
  [ (ucFlagsOff, leBytes s.cfg.xlen.bytes 0),
    (ucLinkOff s.cfg.xlen, leBytes s.cfg.xlen.bytes 0),
    (ssSpOff s.cfg.xlen, leBytes s.cfg.xlen.bytes s.altstack.ssSp),
    (ssFlagsOff s.cfg.xlen, leBytes 4 (s.sasSsFlags (s.readX 2))),
    (ssSizeOff s.cfg.xlen, leBytes s.cfg.xlen.bytes s.altstack.ssSize),
    (sigmaskOff s.cfg.xlen, leBytes 8 s.ops.req.mask) ]

/-- The info block and, when the frame carries it, the trampoline (R287, R288, R294). -/
def State.infoAndTrampFields (s : State) : List Field :=
  (infoOff, s.ops.req.info.toList)
    :: (if s.cfg.hasTrampoline then
          [(0, leBytes 4 (trampWord0.setWidth 64)), (4, leBytes 4 (trampWord1.setWidth 64))]
        else [])

/-- Every field SIG_SETUP writes (R290). Reserved and padding bytes are in no field. -/
def State.frameFields (s : State) : List Field :=
  s.mcontextFields ++ s.ucontextFields ++ s.infoAndTrampFields

/-- `FrameAddr(s, sp, onstack)` with sp = x2 (R291, R292). -/
def State.frameAddr (s : State) : Word :=
  let sp := s.readX 2
  let size : Word := BitVec.ofNat 64 s.frameSize
  if s.onSigStack sp && !s.onSigStack (sp - size) then s.cfg.xlen.ones
  else
    let sel :=
      if s.ops.req.onstack && s.sasSsFlags sp == 0 then s.altstack.ssSp + s.altstack.ssSize else sp
    s.tr (sel - size) &&& ~~~3#64

/-- The capture at a frame address that has been locked: the frame is written, the hart is sent to the handler and the
handler's mask is installed (R293, R294, R295, R298). -/
def State.deliver (s : State) (frame : Word) : State :=
  let t :=
    { s with
      mem := writeFields s.mem frame.toNat s.frameFields
      pc := s.tr s.ops.req.handler
      blocked := s.ops.req.hmask }
  ((((t.writeX 2 frame).writeX 10 (s.ops.req.sig.setWidth 64)).writeX 11 (s.tr (frame + BitVec.ofNat 64 infoOff))).writeX 12
    (s.tr (frame + BitVec.ofNat 64 ucOff))).writeX 1
    (if s.cfg.hasTrampoline then frame else s.tr s.ops.req.restorer)

/-- SIGSEGV, the forced signal (R296). -/
def sigsegv : BitVec 8 := 11

/-- The response of a capture that failed: the disposition is reset when the signal is SIGSEGV itself (R296, R297). -/
def setupFailure (sig : BitVec 8) : Response := .fault sigsegv (if sig = sigsegv then some sigsegv else none)

/-- The signal number is one of 1 to NSIG (R290). -/
def SigReq.sigOk (r : SigReq) : Bool := decide (1 ≤ r.sig.toNat) && decide (r.sig.toNat ≤ NSIG)

/-- SIG_SETUP (R290). -/
def execSigSetup (s : State) : Result :=
  if s.ops.req.sigOk then
    if s.lock s.frameAddr s.frameSize .write then .next ((s.deliver s.frameAddr).respond .ok)
    else .next (s.respond (setupFailure s.ops.req.sig))
  else .refused .signalNumberOutOfRange

/-! ### Restore -/

/-- One field of the frame at an address. -/
def State.frameLoad (s : State) (frame : Word) (off n : Nat) : Word := s.mem.load (frame.toNat + off) n

/-- The vector overlay read from the frame (R304): vl and vtype raw, vxsat and vxrm at their stored widths. -/
def State.restoredVec (s : State) (frame : Word) : VecState :=
  let w := s.cfg.xlen.bytes
  let base := vrOff s.cfg.xlen s.cfg.mcReserved
  let csr := vcsrOff s.cfg.xlen s.cfg.mcReserved
  { vr := Vector.ofFn fun k : Fin 32 =>
      s.frameLoad frame (base + 16 * k.val + 8) 8 ++ s.frameLoad frame (base + 16 * k.val) 8
    vstart := s.frameLoad frame csr w
    vxsat := (s.frameLoad frame (csr + w) w).extractLsb' 0 1
    vxrm := (s.frameLoad frame (csr + 2 * w) w).extractLsb' 0 2
    vl := s.frameLoad frame (csr + 3 * w) w
    vtype := s.frameLoad frame (csr + 4 * w) w }

/-- The machine context read from the frame: the integer and floating-point registers (R304). -/
def State.restoreRegs (s : State) (frame : Word) : State :=
  let w := s.cfg.xlen.bytes
  { s with
    pc := s.frameLoad frame (pcOff s.cfg.xlen) w
    x := Vector.ofFn fun k : Fin 31 => s.frameLoad frame (pcOff s.cfg.xlen + w * (k.val + 1)) w
    f := Vector.ofFn fun k : Fin 32 => s.frameLoad frame (fprOff s.cfg.xlen + 8 * k.val) 8 }

/-- The machine context read from the frame: fcsr, then the vector area, which wins over the mirror bits (R304). -/
def State.restoreContext (s : State) (frame : Word) : State :=
  let t := (s.restoreRegs frame).installFcsr ((s.frameLoad frame (fcsrOff s.cfg.xlen) 4).setWidth 32)
  if s.vActive then { t with vec := s.restoredVec frame } else t

/-- The restore from a frame that has been locked: the mask, the machine context, and the alternate stack with the
restored sp, a refused install being no fault (R302, R304, R305). -/
def State.restore (s : State) (frame : Word) : State :=
  let w := s.cfg.xlen.bytes
  let t := { (s.restoreContext frame) with blocked := s.frameLoad frame (sigmaskOff s.cfg.xlen) 8 }
  (t.altInstall (s.frameLoad frame (ssSpOff s.cfg.xlen) w) (s.frameLoad frame (ssFlagsOff s.cfg.xlen) 4)
    (s.frameLoad frame (ssSizeOff s.cfg.xlen) w) (t.readX 2)).2

/-- SIG_RETURN (R300): the frame is at x2 exactly as found (R303). -/
def execSigReturn (s : State) : Result :=
  if s.lock (s.readX 2) s.frameSize .read then .next ((s.restore (s.readX 2)).respond .sigreturned)
  else .next (s.respond (.fault sigsegv none))

/-! ### Mask and alternate stack -/

/-- MASK_RD (R310). -/
def execMaskRd (s : State) : Result := .next (s.respond (.data s.blocked))

/-- MASK_WR (R311). -/
def execMaskWr (s : State) : Result := .next ({ s with blocked := s.opA64 }.respond .ok)

/-- ALT_RD (R312). -/
def execAltRd (arg : BitVec 8) (s : State) : Result :=
  .next (s.respond (.data (
    if arg = 0 then s.altstack.ssSp
    else if arg = 1 then s.altstack.ssSize
    else if arg = 2 then s.sasSsFlags (s.readX 2)
    else 0)))

/-- ALT_SET (R313): the result code is on DOUT. -/
def execAltSet (arg : BitVec 8) (s : State) : Result :=
  let r := s.altInstall s.opA (arg.setWidth 64) s.opB (s.readX 2)
  .next (r.2.respond (.data r.1))

end Sys2Proof.Machine
end

