-- ==== Sys2Proof/Machine/Trap.lean ====
section
/-! DEFINITION. Trap, interrupt and trap-return operations (42_trap_ops.md, 60_exceptions.md R348, R349). -/

namespace Sys2Proof.Machine

/-- TRAP (R260). -/
def execTrap (s : State) : Result := .next (s.takeTrap s.opA s.opB)

/-- Interrupts are enabled globally for M (60_exceptions.md R348). -/
def State.mOn (s : State) : Bool := s.priv != .m || s.mstatus.mie

/-- Interrupts are enabled globally for S (60_exceptions.md R348). -/
def State.sOn (s : State) : Bool := s.priv == .u || (s.priv == .s && s.mstatus.sie)

/-- The candidates destined for M (60_exceptions.md R348). -/
def State.candM (s : State) : Word := if s.mOn then s.mip &&& s.mie &&& ~~~s.mideleg else 0

/-- The candidates destined for S (60_exceptions.md R348). -/
def State.candS (s : State) : Word := if s.sOn then s.mip &&& s.mie &&& s.mideleg else 0

/-- The candidates of the destination that comes first (60_exceptions.md R349). -/
def State.irqSet (s : State) : Word := if s.candM ≠ 0 then s.candM else s.candS

/-- `SelectIrq(s)`: the first code of IRQ_PRIORITY that is a candidate (60_exceptions.md R349). -/
def State.selectIrq (s : State) : Option Nat := s.cfg.irqPriority.find? fun k => s.irqSet.getLsbD k

/-- The raw cause of an interrupt (60_exceptions.md R344). -/
def irqCause (x : Xlen) (k : Nat) : Word := x.topBit ||| BitVec.ofNat 64 k

/-- IRQ_PEND (R262): no state is changed. -/
def execIrqPend (s : State) : Result :=
  .next (s.respond (.data (match s.selectIrq with
    | some k => irqCause s.cfg.xlen k
    | none => 0)))

/-- IP_UPDATE (R264). -/
def execIpUpdate (s : State) : Result :=
  let wm := s.opA &&& implementedIrqs s.misa
  .next ({ s with mip := (s.mip &&& ~~~wm) ||| (s.opB &&& wm) }.respond .ok)

/-- MRET (R265, 60_exceptions.md R360): refused outside M. -/
def execMret (s : State) : Result :=
  if s.priv = .m then .next (s.mretReturn.respond .ok) else .refused .xretPrivilege

/-- SRET (R265, 60_exceptions.md R362): refused without S or in U. -/
def execSret (s : State) : Result :=
  if misaHas s.misa Ext.S ∧ s.priv ≠ .u then .next (s.sretReturn.respond .ok) else .refused .xretPrivilege

end Sys2Proof.Machine
end

