-- ==== Sys2Proof/Machine/Dispatch.lean ====
section
/-! DEFINITION. What each instruction does: one arm per constructor, one direct call of its meaning. -/

namespace Sys2Proof.Machine

def exec (i : Instr) (s : State) : Host.Outcome State Fault Refusal :=
  match i with
  | .gprRd r => Sys2Proof.Machine.execGprRd r s
  | .gprWr r => Sys2Proof.Machine.execGprWr r s
  | .fprRd r => Sys2Proof.Machine.execFprRd r s
  | .fprWr r => Sys2Proof.Machine.execFprWr r s
  | .vrRd r => Sys2Proof.Machine.execVrRd r s
  | .vrWr r => Sys2Proof.Machine.execVrWr r s
  | .pcRd => Sys2Proof.Machine.execPcRd s
  | .pcWr => Sys2Proof.Machine.execPcWr s
  | .privRd => Sys2Proof.Machine.execPrivRd s
  | .extQ arg => Sys2Proof.Machine.execExtQ arg s
  | .featQ arg => Sys2Proof.Machine.execFeatQ arg s
  | .csrRmw csr => Sys2Proof.Machine.execCsrRmw csr s
  | .csrRd csr => Sys2Proof.Machine.execCsrRd csr s
  | .csrWr csr => Sys2Proof.Machine.execCsrWr csr s
  | .vlmax => Sys2Proof.Machine.execVlmax s
  | .vcfgWr => Sys2Proof.Machine.execVcfgWr s
  | .trap => Sys2Proof.Machine.execTrap s
  | .irqPend => Sys2Proof.Machine.execIrqPend s
  | .ipUpdate => Sys2Proof.Machine.execIpUpdate s
  | .mret => Sys2Proof.Machine.execMret s
  | .sret => Sys2Proof.Machine.execSret s
  | .sigSetup => Sys2Proof.Machine.execSigSetup s
  | .sigReturn => Sys2Proof.Machine.execSigReturn s
  | .maskRd => Sys2Proof.Machine.execMaskRd s
  | .maskWr => Sys2Proof.Machine.execMaskWr s
  | .altRd arg => Sys2Proof.Machine.execAltRd arg s
  | .altSet arg => Sys2Proof.Machine.execAltSet arg s
  | .csrrw rd rs1 csr => Sys2Proof.Machine.execCsrrw rd rs1 csr s
  | .csrrs rd rs1 csr => Sys2Proof.Machine.execCsrrs rd rs1 csr s
  | .csrrc rd rs1 csr => Sys2Proof.Machine.execCsrrc rd rs1 csr s
  | .csrrwi rd uimm csr => Sys2Proof.Machine.execCsrrwi rd uimm csr s
  | .csrrsi rd uimm csr => Sys2Proof.Machine.execCsrrsi rd uimm csr s
  | .csrrci rd uimm csr => Sys2Proof.Machine.execCsrrci rd uimm csr s
  | .trampLiA7 => Sys2Proof.Machine.execTrampLiA7 s
  | .trampEcall => Sys2Proof.Machine.execTrampEcall s

end Sys2Proof.Machine
end

