-- ==== Sys2Proof/Machine/Step.lean ====
section
/-! DEFINITION. One step: the first transaction of the queue is taken and its word is decoded on its port and run
(30_encoding.md R130, 00_scope.md R16). -/

namespace Sys2Proof.Machine

/-- A word the decoder rejects is refused by name (30_encoding.md R134). -/
def refusalOf : DecodeError → Refusal
  | .reservedOp => .reservedCommand
  | .reservedLevel => .reservedXretLevel
  | .otherGuestWord => .guestWordOutsideTable

/-- One command and its response. With no command waiting the state stays as it is (60_exceptions.md R370;
log entry 7). -/
def step (s : State) : Host.Outcome State Fault Refusal :=
  match s.inbox with
  | [] => .next s
  | t :: rest =>
    match decode t.channel t.word with
    | .ok i => exec i (s.accept t rest)
    | .error e => .refused (refusalOf e)

/-- Operands for a word placed by `State.withFetchWord`: 0 on every port, and a request for signal 1, the least signal
number SIG_SETUP accepts (log entry 10). -/
def probeOperands : Operands := { Operands.zero with req := { SigReq.zero with sig := 1 } }

/-- The state with a word of the opcode table at the head of the queue, on the port the word belongs to: a program is
handed to the block from outside, one transaction at a time (log entry 10). -/
def State.withFetchWord (s : State) (_nbits w : Nat) : State :=
  { s with
    inbox := { channel := tableChannel (BitVec.ofNat 32 w), word := BitVec.ofNat 32 w, ops := probeOperands } :: s.inbox }

end Sys2Proof.Machine
end

