-- ==== Sys2Proof/Safety.lean ====
section
/-! DEFINITION. What every reachable state satisfies: the invariant of the machine, in parts; and the notions the statements
share. -/

namespace Sys2Proof.Machine

/-- An XLEN-bit value: nothing above bit XLEN-1 (log entry 13). -/
abbrev State.Fits (s : State) (v : Word) : Prop := s.tr v = v

/-- The configuration is one the spec allows, and misa and features are its constants (10_state.md R40, R41). -/
structure State.ConfigInv (s : State) : Prop where
  cfg_wf   : s.cfg.wf = true
  misa     : s.misa = s.cfg.misa
  features : s.features = s.cfg.features

/-- The mode and MPP are legal privileges, a user environment stays in U, the
fields of S are 0 without S, and FS keeps its reset value without floating point (10_state.md R39, R42, R43; log entry 4). -/
structure State.PrivInv (s : State) : Prop where
  priv_legal : s.priv.legal s.misa = true
  mpp_legal  : s.mstatus.mpp.legal s.misa = true
  user_mode  : s.cfg.env = .user → s.priv = .u
  no_s       : misaHas s.misa Ext.S = false → s.mstatus.sie = false ∧ s.mstatus.spie = false ∧ s.mstatus.spp = false
  no_fp      : misaFp s.misa = false → s.mstatus.fs = match s.cfg.env with | .system => 0 | .user => 1

/-- The reserved bits of the trap registers read 0 and their reserved modes are not stored (10_state.md R44 to R47). -/
structure State.CsrInv (s : State) : Prop where
  mie     : s.mie &&& ~~~implementedIrqs s.misa = 0
  mip     : s.mip &&& ~~~implementedIrqs s.misa = 0
  medeleg : s.medeleg &&& ~~~medelegMask = 0
  mideleg : s.mideleg &&& ~~~midelegMask = 0
  mtvec   : tvecLegal s.mtvec = true
  stvec   : tvecLegal s.stvec = true
  mepc    : s.mepc &&& ~~~epcMask s.misa = 0
  sepc    : s.sepc &&& ~~~epcMask s.misa = 0

/-- Every XLEN-bit register holds an XLEN-bit value (log entry 13). -/
structure State.WidthInv (s : State) : Prop where
  x      : ∀ i : RegIdx, s.Fits (s.readX i)
  pc     : s.Fits s.pc
  mtvec  : s.Fits s.mtvec
  mepc   : s.Fits s.mepc
  mcause : s.Fits s.mcause
  mtval  : s.Fits s.mtval
  stvec  : s.Fits s.stvec
  sepc   : s.Fits s.sepc
  scause : s.Fits s.scause
  stval  : s.Fits s.stval
  vstart : s.Fits s.vec.vstart
  vl     : s.Fits s.vec.vl
  vtype  : s.Fits s.vec.vtype
  ssSp   : s.Fits s.altstack.ssSp
  ssSize : s.Fits s.altstack.ssSize

/-- Guest memory is in canonical form and inside the address space (20_memory.md R101). -/
structure State.MemInv (s : State) : Prop where
  wf    : s.mem.wf
  bound : ∀ c ∈ s.mem, c.1 < 2 ^ s.cfg.xlen.bits

/-- The alternate stack is disabled or at least MINSIGSTKSZ (43_signal_frame.md R307, R313). -/
def State.AltInv (s : State) : Prop := s.altstack = ⟨0, 0⟩ ∨ MINSIGSTKSZ ≤ s.altstack.ssSize.toNat

/-- The invariant of the machine. -/
structure State.Inv (s : State) : Prop where
  config : s.ConfigInv
  priv   : s.PrivInv
  csr    : s.CsrInv
  width  : s.WidthInv
  mem    : s.MemInv
  alt    : s.AltInv

/-- The guest word is a Zicsr word whose access, with the operands of 30_encoding.md R141, fails. -/
def State.zicsrFails (s : State) : Instr → Prop
  | .csrrw _ rs1 csr => s.csrAccess csr (s.readX rs1) s.cfg.xlen.ones = none
  | .csrrs _ rs1 csr => s.csrAccess csr s.cfg.xlen.ones (s.readX rs1) = none
  | .csrrc _ rs1 csr => s.csrAccess csr 0 (s.readX rs1) = none
  | .csrrwi _ uimm csr => s.csrAccess csr (uimm.setWidth 64) s.cfg.xlen.ones = none
  | .csrrsi _ uimm csr => s.csrAccess csr s.cfg.xlen.ones (uimm.setWidth 64) = none
  | .csrrci _ uimm csr => s.csrAccess csr 0 (uimm.setWidth 64) = none
  | .gprRd _ | .gprWr _ | .fprRd _ | .fprWr _ | .vrRd _ | .vrWr _ | .pcRd | .pcWr | .privRd | .extQ _ | .featQ _
  | .csrRmw _ | .csrRd _ | .csrWr _ | .vlmax | .vcfgWr | .trap | .irqPend | .ipUpdate | .mret | .sret
  | .sigSetup | .sigReturn | .maskRd | .maskWr | .altRd _ | .altSet _ | .trampLiA7 | .trampEcall => False

/-- The CSR table has the baseline's descriptor at an index (41_csr_dispatch.md R215): true of the baseline table and of
every table that only adds descriptors to it. -/
def State.BaselineAt (s : State) (i : CsrIdx) : Prop := s.cfg.csrTable.lookup i = baselineCsrTable.lookup i

/-- The architectural state: everything but the operand ports, the response ports and the queue. Two states agree on it
when they differ in nothing else. -/
def State.SameBlock (s t : State) : Prop := { s with ops := t.ops, resp := t.resp, inbox := t.inbox } = t

end Sys2Proof.Machine
end

