-- ==== Sys2Proof/Certificates/Slice0/Obligations.lean ====
section
/-! DEFINITION. The statements for the provers, in the order of OBLIGATIONS.json. Numbers in them are the spec's own: a
field of a word or of a cause is written with `/` and `%`, a frame offset as 43_signal_frame.md R281 to R286 give it. -/

open Sys2Proof Sys2Proof.Machine

/-! ### Words -/

/-- Words written out from 30_encoding.md R133, R141, R142 and 42_trap_ops.md R265 decode to the instruction they stand
for, whatever an unused field holds. -/
def Obligations.KnownWordsDecode : Prop :=
  decode .command 0x00000061#32 = .ok (.gprRd 3) ∧
  decode .command 0xFFFFFFE2#32 = .ok (.gprWr 31) ∧
  decode .command 0x000000C3#32 = .ok (.fprRd 6) ∧
  decode .command 0x00000026#32 = .ok (.vrWr 1) ∧
  decode .command 0x15000C0A#32 = .ok (.extQ 21) ∧
  decode .command 0x000D100C#32 = .ok (.csrRmw 0x344) ∧
  decode .command 0x00C00014#32 = .ok .mret ∧
  decode .command 0x00400014#32 = .ok .sret ∧
  decode .command 0x00000015#32 = .ok .sigSetup ∧
  decode .command 0x02000019#32 = .ok (.altRd 2) ∧
  decode .command 0x00001073#32 = .ok .ipUpdate ∧
  decode .guest 0x300110F3#32 = .ok (.csrrw 1 2 0x300) ∧
  decode .guest 0x344FE073#32 = .ok (.csrrsi 0 31 0x344) ∧
  decode .guest 0x08B00893#32 = .ok .trampLiA7 ∧
  decode .guest 0x00000073#32 = .ok .trampEcall

/-- 30_encoding.md R132, R133: the operation is read from bits 4:0 (for XRET, bits 23:22 as well), each field an
operation uses is read from its own bits, and a field it does not use changes nothing. -/
def Obligations.CommandWordsFollowTheOperationMap : Prop :=
  ∀ w : BitVec 32,
    let op := w.toNat % 32
    let r := BitVec.ofNat 5 (w.toNat / 32)
    let csr := BitVec.ofNat 12 (w.toNat / 1024)
    let lvl := w.toNat / 4194304 % 4
    let arg := BitVec.ofNat 8 (w.toNat / 16777216)
    (op = 0x01 → decode .command w = .ok (.gprRd r)) ∧
    (op = 0x02 → decode .command w = .ok (.gprWr r)) ∧
    (op = 0x03 → decode .command w = .ok (.fprRd r)) ∧
    (op = 0x04 → decode .command w = .ok (.fprWr r)) ∧
    (op = 0x05 → decode .command w = .ok (.vrRd r)) ∧
    (op = 0x06 → decode .command w = .ok (.vrWr r)) ∧
    (op = 0x07 → decode .command w = .ok .pcRd) ∧
    (op = 0x08 → decode .command w = .ok .pcWr) ∧
    (op = 0x09 → decode .command w = .ok .privRd) ∧
    (op = 0x0A → decode .command w = .ok (.extQ arg)) ∧
    (op = 0x0B → decode .command w = .ok (.featQ arg)) ∧
    (op = 0x0C → decode .command w = .ok (.csrRmw csr)) ∧
    (op = 0x0D → decode .command w = .ok (.csrRd csr)) ∧
    (op = 0x0E → decode .command w = .ok (.csrWr csr)) ∧
    (op = 0x0F → decode .command w = .ok .vlmax) ∧
    (op = 0x10 → decode .command w = .ok .vcfgWr) ∧
    (op = 0x11 → decode .command w = .ok .trap) ∧
    (op = 0x12 → decode .command w = .ok .irqPend) ∧
    (op = 0x13 → decode .command w = .ok .ipUpdate) ∧
    (op = 0x14 → lvl = 3 → decode .command w = .ok .mret) ∧
    (op = 0x14 → lvl = 1 → decode .command w = .ok .sret) ∧
    (op = 0x15 → decode .command w = .ok .sigSetup) ∧
    (op = 0x16 → decode .command w = .ok .sigReturn) ∧
    (op = 0x17 → decode .command w = .ok .maskRd) ∧
    (op = 0x18 → decode .command w = .ok .maskWr) ∧
    (op = 0x19 → decode .command w = .ok (.altRd arg)) ∧
    (op = 0x1A → decode .command w = .ok (.altSet arg))

/-- Every instruction, with every operand at every value its fields admit, is what its own word decodes to on its
channel. -/
def Obligations.EncodeThenDecode : Prop :=
  ∀ i : Instr, decode i.channel (encode i) = .ok i

/-- 30_encoding.md R141, R142: the fields of the six Zicsr words, the two trampoline words, and no other guest word: a
guest word that decodes is the word its instruction encodes to. -/
def Obligations.GuestWordsFollowTheZicsrTable : Prop :=
  (∀ w : BitVec 32, w.toNat % 128 = 0b1110011 →
    let rd := BitVec.ofNat 5 (w.toNat / 128)
    let f3 := w.toNat / 4096 % 8
    let rs1 := BitVec.ofNat 5 (w.toNat / 32768)
    let csr := BitVec.ofNat 12 (w.toNat / 1048576)
    (f3 = 1 → decode .guest w = .ok (.csrrw rd rs1 csr)) ∧
    (f3 = 2 → decode .guest w = .ok (.csrrs rd rs1 csr)) ∧
    (f3 = 3 → decode .guest w = .ok (.csrrc rd rs1 csr)) ∧
    (f3 = 5 → decode .guest w = .ok (.csrrwi rd rs1 csr)) ∧
    (f3 = 6 → decode .guest w = .ok (.csrrsi rd rs1 csr)) ∧
    (f3 = 7 → decode .guest w = .ok (.csrrci rd rs1 csr))) ∧
  decode .guest 0x08B00893#32 = .ok .trampLiA7 ∧
  decode .guest 0x00000073#32 = .ok .trampEcall ∧
  ∀ (w : BitVec 32) (i : Instr), decode .guest w = .ok i → i.channel = .guest ∧ encode i = w

/-- 30_encoding.md R134: a reserved command word is refused, never taken as a no-op. -/
def Obligations.ReservedCommandWordsAreRefused : Prop :=
  ∀ (s : State) (w : BitVec 32) (ops : Operands) (rest : List Transaction),
    s.inbox = ⟨.command, w, ops⟩ :: rest →
    (w.toNat % 32 = 0 ∨ 0x1B ≤ w.toNat % 32 → step s = .refused .reservedCommand) ∧
    (w.toNat % 32 = 0x14 → w.toNat / 4194304 % 4 = 0 ∨ w.toNat / 4194304 % 4 = 2 →
      step s = .refused .reservedXretLevel)

/-- 30_encoding.md R130, 00_scope.md R16: a step takes the first transaction, hands over its operands and runs the
instruction its word decodes to. That an empty queue leaves the state as it is, and that an undecoded word is refused,
are the model's (log entry 7). -/
def Obligations.StepRunsTheDecodedInstruction : Prop :=
  (∀ (s : State) (t : Transaction) (rest : List Transaction) (i : Instr),
    s.inbox = t :: rest → decode t.channel t.word = .ok i →
    step s = exec i { s with ops := t.ops, inbox := rest }) ∧
  (∀ (s : State) (t : Transaction) (rest : List Transaction) (e : DecodeError),
    s.inbox = t :: rest → decode t.channel t.word = .error e → step s = .refused (refusalOf e)) ∧
  ∀ s : State, s.inbox = [] → step s = .next s

/-- The model's own convention (log entry 10): a word placed with `withFetchWord` is what the next step runs. -/
def Obligations.PlacedWordRunsNext : Prop :=
  ∀ (nbits w : Nat) (i : Instr) (s : State), decodeTableWord nbits w = some i →
    step (s.withFetchWord nbits w) = exec i { s with ops := probeOperands }

/-! ### Register file -/

/-- 40_regfile_ops.md R170, R171: x0 reads 0 and its write is discarded; every other register reads back its slot and a
write changes that slot alone. -/
def Obligations.GprReadAndWrite : Prop :=
  ∀ s : State,
    exec (.gprRd 0) s = .next { s with resp := Response.data 0 } ∧
    exec (.gprWr 0) s = .next { s with resp := Response.ok } ∧
    ∀ (r : RegIdx) (_ : r ≠ 0) (h : r.toNat - 1 < 31),
      exec (.gprRd r) s = .next { s with resp := Response.data s.x[r.toNat - 1] } ∧
      exec (.gprWr r) s =
        .next { s with x := s.x.set (r.toNat - 1) (s.cfg.xlen.trunc s.ops.a), resp := Response.ok }

/-- 40_regfile_ops.md R176, R177: all 64 bits, f0 an ordinary register, mstatus.FS neither checked nor changed. -/
def Obligations.FprReadAndWrite : Prop :=
  ∀ (s : State) (r : RegIdx) (h : r.toNat < 32),
    exec (.fprRd r) s = .next { s with resp := Response.data s.f[r.toNat] } ∧
    exec (.fprWr r) s = .next { s with f := s.f.set r.toNat s.ops.a, resp := Response.ok }

/-- 40_regfile_ops.md R172, R173, R179: with V, the vector registers (v0 an ordinary one) and vl and vtype, stored as
given and vstart unchanged. That DOUT is 0 after VR_RD is the model's choice (log entry 11). -/
def Obligations.VectorCommandsWithV : Prop :=
  ∀ (s : State) (r : RegIdx) (h : r.toNat < 32), s.misa.getLsbD 21 = true →
    exec (.vrRd r) s = .next { s with resp := { Response.ok with wout := s.vec.vr[r.toNat] } } ∧
    exec (.vrWr r) s =
      .next { s with vec := { s.vec with vr := s.vec.vr.set r.toNat s.ops.w }, resp := Response.ok } ∧
    exec .vcfgWr s =
      .next { s with
        vec := { s.vec with vl := s.cfg.xlen.trunc s.ops.a, vtype := s.cfg.xlen.trunc s.ops.b }
        resp := Response.ok }

/-- 40_regfile_ops.md R174, R175: pc is stored as given, with no alignment check. -/
def Obligations.PcReadAndWrite : Prop :=
  ∀ s : State,
    exec .pcRd s = .next { s with resp := Response.data s.pc } ∧
    exec .pcWr s = .next { s with pc := s.cfg.xlen.trunc s.ops.a, resp := Response.ok }

/-- 40_regfile_ops.md R178, R182, R183: the mode, one misa bit, one feature bit; an index outside the letters or the
features answers 0. -/
def Obligations.QueriesAnswer : Prop :=
  ∀ (s : State) (arg : BitVec 8),
    exec .privRd s = .next { s with resp := Response.data (match s.priv with | .u => 0 | .s => 1 | .m => 3) } ∧
    exec (.extQ arg) s = .next { s with
      resp := Response.data (if arg.toNat < 26 ∧ s.misa.getLsbD arg.toNat = true then 1 else 0) } ∧
    exec (.featQ arg) s = .next { s with
      resp := Response.data (if arg.toNat < 2 ∧ s.features.getLsbD arg.toNat = true then 1 else 0) }

/-- 40_regfile_ops.md R180, R181: vlmax of the operand by the formula, with or without V and whatever vill is. Under V10
a vlmul field of 4 to 7 stands for that value less 8. -/
def Obligations.VlmaxFollowsTheFormula : Prop :=
  ∀ s : State, ∃ d : BitVec 64, exec .vlmax s = .next { s with resp := Response.data d } ∧
    (s.cfg.vtypeLayout = .v071 →
      d.toNat = 128 / 2 ^ (s.ops.a.toNat / 4 % 8 + 3 - s.ops.a.toNat % 4)) ∧
    (s.cfg.vtypeLayout = .v10 → s.ops.a.toNat % 8 < 4 →
      d.toNat = 128 / 2 ^ (s.ops.a.toNat / 8 % 8 + 3 - s.ops.a.toNat % 8)) ∧
    (s.cfg.vtypeLayout = .v10 → 4 ≤ s.ops.a.toNat % 8 →
      d.toNat = 128 / 2 ^ (s.ops.a.toNat / 8 % 8 + 3 + (8 - s.ops.a.toNat % 8)))

/-! ### CSR dispatch -/

/-- 41_csr_dispatch.md R203 to R205, R208 to R210: an access fails exactly when the index has no descriptor, the mode is
too low, a read-only index is written, the predicate is false, or a handler the access needs is absent or answers fail;
R214: the value of each predicate; R200, R212, R213, R233: a command whose access fails ends with ILLEGAL_CSR and changes
nothing but the response. -/
def Obligations.CsrAccessFailsExactlyWhen : Prop :=
  (∀ (s : State) (i : CsrIdx) (nv m : Word),
    s.csrAccess i nv m = none ↔
      s.cfg.csrTable.lookup i = none ∨
      ∃ d, s.cfg.csrTable.lookup i = some d ∧
        (s.priv.code.toNat < i.toNat / 256 % 4 ∨
          (i.toNat / 1024 = 3 ∧ m ≠ 0) ∨
          (∃ p, d.pred = some p ∧ predHolds s i p = false) ∨
          (∃ r, d.rmw = some r ∧ rmwCsr s i r nv m = none) ∨
          (d.rmw = none ∧
            (d.read = none ∨
              ∃ r, d.read = some r ∧
                (readCsr s i r = none ∨
                  ∃ old, readCsr s i r = some old ∧ m ≠ 0 ∧
                    (d.write = none ∨
                      ∃ w, d.write = some w ∧ writeCsr s i w ((old &&& ~~~m) ||| (nv &&& m)) = none)))))) ∧
  (∀ (s : State) (i : CsrIdx),
    predHolds s i .any = true ∧
    predHolds s i .smode = s.misa.getLsbD 18 ∧
    predHolds s i .fp = ((s.misa.getLsbD 5 || s.misa.getLsbD 3) && decide (s.mstatus.fs ≠ 0)) ∧
    predHolds s i .vec = s.misa.getLsbD 21) ∧
  ∀ (s : State) (csr : CsrIdx),
    (s.csrAccess csr (s.cfg.xlen.trunc s.ops.a) (s.cfg.xlen.trunc s.ops.b) = none →
      exec (.csrRmw csr) s = .next { s with resp := Response.illegal }) ∧
    (s.csrAccess csr 0 0 = none → exec (.csrRd csr) s = .next { s with resp := Response.illegal }) ∧
    (s.csrAccess csr (s.cfg.xlen.trunc s.ops.a) s.cfg.xlen.ones = none →
      exec (.csrWr csr) s = .next { s with resp := Response.illegal })

/-- 41_csr_dispatch.md R202: every command on an index without a descriptor ends with ILLEGAL_CSR, whatever the mask, and
leaves the state as it was. -/
def Obligations.UnpopulatedCsrIsIllegal : Prop :=
  ∀ (s : State) (csr : CsrIdx), s.cfg.csrTable.lookup csr = none →
    exec (.csrRd csr) s = .next { s with resp := Response.illegal } ∧
    exec (.csrWr csr) s = .next { s with resp := Response.illegal } ∧
    exec (.csrRmw csr) s = .next { s with resp := Response.illegal }

/-- 41_csr_dispatch.md R215 to R232: CSR_RD of each baseline CSR that the mode and the predicate allow. mip and sip are in
`InterruptPendingCsrs`. -/
def Obligations.CsrReadsReturnTheRegisters : Prop :=
  ∀ s : State,
    let reads (i : CsrIdx) (v : Word) : Prop :=
      s.BaselineAt i → exec (.csrRd i) s = .next { s with resp := Response.data v }
    ((s.misa.getLsbD 5 = true ∨ s.misa.getLsbD 3 = true) → s.mstatus.fs ≠ 0 →
      reads 0x001 (s.fflags.setWidth 64) ∧ reads 0x002 (s.frm.setWidth 64) ∧
      reads 0x003 (s.fcsrValue.setWidth 64)) ∧
    (s.misa.getLsbD 21 = true →
      reads 0x008 s.vec.vstart ∧ reads 0x009 (s.vec.vxsat.setWidth 64) ∧ reads 0x00A (s.vec.vxrm.setWidth 64) ∧
      reads 0xC20 s.vec.vl ∧ reads 0xC21 s.vec.vtype) ∧
    (s.misa.getLsbD 18 = true → s.priv ≠ .u →
      reads 0x100 (s.mstatusValue &&& (0x6122 ||| s.cfg.xlen.topBit)) ∧ reads 0x104 (s.mie &&& s.mideleg) ∧
      reads 0x105 s.stvec ∧ reads 0x141 s.sepc ∧ reads 0x142 s.scause ∧ reads 0x143 s.stval) ∧
    (s.priv = .m →
      reads 0x300 s.mstatusValue ∧ reads 0x301 s.misa ∧ reads 0x304 s.mie ∧ reads 0x305 s.mtvec ∧
      reads 0x341 s.mepc ∧ reads 0x342 s.mcause ∧ reads 0x343 s.mtval ∧
      (s.misa.getLsbD 18 = true → reads 0x302 s.medeleg ∧ reads 0x303 s.mideleg))

/-- 41_csr_dispatch.md R207, R211 (b), R213, 30_encoding.md R139: CSR_RD changes nothing but the response, whatever the
table and the index, and a CSR_RMW with mask 0 is that read. -/
def Obligations.ZeroMaskAccessKeepsTheState : Prop :=
  ∀ (s : State) (csr : CsrIdx),
    (∃ r : Response, exec (.csrRd csr) s = .next { s with resp := r }) ∧
    (s.cfg.xlen.trunc s.ops.b = 0 → exec (.csrRmw csr) s = exec (.csrRd csr) s)

/-- 41_csr_dispatch.md R207, R220 to R223, R226, R229, R230: CSR_RMW of the machine-level CSRs in M, with a mask that is
not 0: the old value on DOUT, and the composed value legalised. -/
def Obligations.MachineCsrRmwLegalises : Prop :=
  ∀ s : State, s.priv = .m → s.cfg.xlen.trunc s.ops.b ≠ 0 →
    let m := s.cfg.xlen.trunc s.ops.b
    let new (old : Word) : Word := (old &&& ~~~m) ||| (s.cfg.xlen.trunc s.ops.a &&& m)
    let tvec (old : Word) : Word := if (new old).toNat % 4 < 2 then new old else old
    let hasS := s.misa.getLsbD 18
    (s.BaselineAt 0x301 → exec (.csrRmw 0x301) s = .next { s with resp := Response.data s.misa }) ∧
    (s.BaselineAt 0x302 → hasS = true → exec (.csrRmw 0x302) s =
      .next { s with medeleg := new s.medeleg &&& 0xB3FF, resp := Response.data s.medeleg }) ∧
    (s.BaselineAt 0x303 → hasS = true → exec (.csrRmw 0x303) s =
      .next { s with mideleg := new s.mideleg &&& 0x222, resp := Response.data s.mideleg }) ∧
    (s.BaselineAt 0x304 → exec (.csrRmw 0x304) s =
      .next { s with mie := new s.mie &&& (if hasS then 0xAAA else 0x888), resp := Response.data s.mie }) ∧
    (s.BaselineAt 0x305 → exec (.csrRmw 0x305) s =
      .next { s with mtvec := tvec s.mtvec, resp := Response.data s.mtvec }) ∧
    (s.BaselineAt 0x341 → exec (.csrRmw 0x341) s =
      .next { s with
        mepc := new s.mepc &&& (if s.misa.getLsbD 2 then ~~~1#64 else ~~~3#64)
        resp := Response.data s.mepc }) ∧
    (s.BaselineAt 0x342 → exec (.csrRmw 0x342) s =
      .next { s with mcause := new s.mcause, resp := Response.data s.mcause }) ∧
    (s.BaselineAt 0x343 → exec (.csrRmw 0x343) s =
      .next { s with mtval := new s.mtval, resp := Response.data s.mtval })

/-- 41_csr_dispatch.md R233: on every index and whatever the table, CSR_WR leaves what CSR_RMW with an all-ones B leaves,
and discards the old value; so what is stated of CSR_RMW for mstatus, mip, the supervisor-level, FP and vector CSRs is
stated of CSR_WR. Spelled out for eight machine-level CSRs in M: the operand is installed, legalised, and nothing is
returned. There the invariant is a premise because the composed value keeps what the old one holds above XLEN. -/
def Obligations.MachineCsrWriteLegalises : Prop :=
  (∀ (s : State) (csr : CsrIdx), ∃ t, exec (.csrRmw csr) { s with ops := { s.ops with b := -1 } } = .next t ∧
    exec (.csrWr csr) s =
      .next { t with ops := s.ops, resp := if t.resp.status = .ok then Response.ok else Response.illegal }) ∧
  ∀ s : State, s.Inv → s.priv = .m →
    let v := s.cfg.xlen.trunc s.ops.a
    let hasS := s.misa.getLsbD 18
    (s.BaselineAt 0x301 → exec (.csrWr 0x301) s = .next { s with resp := Response.ok }) ∧
    (s.BaselineAt 0x302 → hasS = true → exec (.csrWr 0x302) s =
      .next { s with medeleg := v &&& 0xB3FF, resp := Response.ok }) ∧
    (s.BaselineAt 0x303 → hasS = true → exec (.csrWr 0x303) s =
      .next { s with mideleg := v &&& 0x222, resp := Response.ok }) ∧
    (s.BaselineAt 0x304 → exec (.csrWr 0x304) s =
      .next { s with mie := v &&& (if hasS then 0xAAA else 0x888), resp := Response.ok }) ∧
    (s.BaselineAt 0x305 → exec (.csrWr 0x305) s =
      .next { s with mtvec := if v.toNat % 4 < 2 then v else s.mtvec, resp := Response.ok }) ∧
    (s.BaselineAt 0x341 → exec (.csrWr 0x341) s =
      .next { s with mepc := v &&& (if s.misa.getLsbD 2 then ~~~1#64 else ~~~3#64), resp := Response.ok }) ∧
    (s.BaselineAt 0x342 → exec (.csrWr 0x342) s = .next { s with mcause := v, resp := Response.ok }) ∧
    (s.BaselineAt 0x343 → exec (.csrWr 0x343) s = .next { s with mtval := v, resp := Response.ok })

/-- 41_csr_dispatch.md R224 to R226, R229, R230: CSR_RMW of the supervisor-level CSRs from S or M, with a mask that is not
0. sstatus changes SIE, SPIE, SPP and, with floating point, FS; sie changes the delegated bits of mie. -/
def Obligations.SupervisorCsrRmwLegalises : Prop :=
  ∀ s : State, s.misa.getLsbD 18 = true → s.priv ≠ .u → s.cfg.xlen.trunc s.ops.b ≠ 0 →
    let m := s.cfg.xlen.trunc s.ops.b
    let new (old : Word) : Word := (old &&& ~~~m) ||| (s.cfg.xlen.trunc s.ops.a &&& m)
    let hasFp := s.misa.getLsbD 5 || s.misa.getLsbD 3
    (s.BaselineAt 0x100 →
      let old := s.mstatusValue &&& (0x6122 ||| s.cfg.xlen.topBit)
      exec (.csrRmw 0x100) s = .next { s with
        mstatus := { s.mstatus with
          sie := (new old).getLsbD 1
          spie := (new old).getLsbD 5
          spp := (new old).getLsbD 8
          fs := if hasFp then (new old).extractLsb' 13 2 else s.mstatus.fs }
        resp := Response.data old }) ∧
    (s.BaselineAt 0x104 → exec (.csrRmw 0x104) s = .next { s with
      mie := ((s.mie &&& ~~~s.mideleg) ||| (new (s.mie &&& s.mideleg) &&& s.mideleg)) &&& 0xAAA
      resp := Response.data (s.mie &&& s.mideleg) }) ∧
    (s.BaselineAt 0x105 → exec (.csrRmw 0x105) s = .next { s with
      stvec := if (new s.stvec).toNat % 4 < 2 then new s.stvec else s.stvec
      resp := Response.data s.stvec }) ∧
    (s.BaselineAt 0x141 → exec (.csrRmw 0x141) s = .next { s with
      sepc := new s.sepc &&& (if s.misa.getLsbD 2 then ~~~1#64 else ~~~3#64)
      resp := Response.data s.sepc }) ∧
    (s.BaselineAt 0x142 → exec (.csrRmw 0x142) s =
      .next { s with scause := new s.scause, resp := Response.data s.scause }) ∧
    (s.BaselineAt 0x143 → exec (.csrRmw 0x143) s =
      .next { s with stval := new s.stval, resp := Response.data s.stval })

/-- 10_state.md R42, R43, 41_csr_dispatch.md R220: CSR_RMW of mstatus, field by field: MIE and MPIE from the composed
value, the S fields only with S, FS only with floating point, MPP only if it names a legal privilege. -/
def Obligations.MstatusWriteByField : Prop :=
  ∀ s : State, s.BaselineAt 0x300 → s.priv = .m → s.cfg.xlen.trunc s.ops.b ≠ 0 →
    let m := s.cfg.xlen.trunc s.ops.b
    let v : Word := (s.mstatusValue &&& ~~~m) ||| (s.cfg.xlen.trunc s.ops.a &&& m)
    let hasS := s.misa.getLsbD 18
    let mpp := v.toNat / 2048 % 4
    ∃ w : Mstatus,
      exec (.csrRmw 0x300) s = .next { s with mstatus := w, resp := Response.data s.mstatusValue } ∧
      w.mie = v.getLsbD 3 ∧ w.mpie = v.getLsbD 7 ∧
      w.sie = (if hasS then v.getLsbD 1 else s.mstatus.sie) ∧
      w.spie = (if hasS then v.getLsbD 5 else s.mstatus.spie) ∧
      w.spp = (if hasS then v.getLsbD 8 else s.mstatus.spp) ∧
      w.fs.toNat = (if s.misa.getLsbD 5 || s.misa.getLsbD 3 then v.toNat / 8192 % 4 else s.mstatus.fs.toNat) ∧
      (mpp = 3 → w.mpp = .m) ∧
      (mpp = 1 → w.mpp = if hasS then .s else s.mstatus.mpp) ∧
      (mpp = 0 → w.mpp = if s.misa.getLsbD 20 then .u else s.mstatus.mpp) ∧
      (mpp = 2 → w.mpp = s.mstatus.mpp)

/-- 10_state.md R42, 41_csr_dispatch.md R220: mstatus as a word has each kept field at its bits, SD at the top exactly
when FS is 3, and 0 everywhere else. -/
def Obligations.MstatusValueHasNoOtherBit : Prop :=
  ∀ (s : State) (i : Nat),
    s.mstatusValue.getLsbD i =
      (match i with
        | 1 => s.mstatus.sie
        | 3 => s.mstatus.mie
        | 5 => s.mstatus.spie
        | 7 => s.mstatus.mpie
        | 8 => s.mstatus.spp
        | 11 => s.mstatus.mpp != .u
        | 12 => s.mstatus.mpp == .m
        | 13 => s.mstatus.fs.getLsbD 0
        | 14 => s.mstatus.fs.getLsbD 1
        | _ => i == s.cfg.xlen.bits - 1 && s.mstatus.fs == 3)

/-- 10_state.md R38, 41_csr_dispatch.md R216 to R219: CSR_RMW of the FP CSRs with a mask that is not 0 sets FS to 3; fcsr
writes vxsat and vxrm only when the mirror is on and V is present. -/
def Obligations.FpCsrWriteDirtiesFs : Prop :=
  ∀ s : State, (s.misa.getLsbD 5 = true ∨ s.misa.getLsbD 3 = true) → s.mstatus.fs ≠ 0 →
    s.cfg.xlen.trunc s.ops.b ≠ 0 →
    let m := s.cfg.xlen.trunc s.ops.b
    let new (old : Word) : Word := (old &&& ~~~m) ||| (s.cfg.xlen.trunc s.ops.a &&& m)
    let dirty : Mstatus := { s.mstatus with fs := 3 }
    let mirror := s.cfg.fcsrVxMirror && s.misa.getLsbD 21
    let fcsr : Word := s.fflags.setWidth 64 ||| (s.frm.setWidth 64 <<< 5)
      ||| (if mirror then (s.vec.vxsat.setWidth 64 <<< 8) ||| (s.vec.vxrm.setWidth 64 <<< 9) else 0)
    (s.BaselineAt 0x001 → exec (.csrRmw 0x001) s = .next { s with
      fflags := (new (s.fflags.setWidth 64)).extractLsb' 0 5
      mstatus := dirty
      resp := Response.data (s.fflags.setWidth 64) }) ∧
    (s.BaselineAt 0x002 → exec (.csrRmw 0x002) s = .next { s with
      frm := (new (s.frm.setWidth 64)).extractLsb' 0 3
      mstatus := dirty
      resp := Response.data (s.frm.setWidth 64) }) ∧
    (s.BaselineAt 0x003 → exec (.csrRmw 0x003) s = .next { s with
      fflags := (new fcsr).extractLsb' 0 5
      frm := (new fcsr).extractLsb' 5 3
      vec := if mirror then
          { s.vec with vxsat := (new fcsr).extractLsb' 8 1, vxrm := (new fcsr).extractLsb' 9 2 }
        else s.vec
      mstatus := dirty
      resp := Response.data fcsr })

/-- 41_csr_dispatch.md R231, R232: with V, CSR_RMW of vstart, vxsat and vxrm with a mask that is not 0 writes that field
alone (FS unchanged); vl and vtype have no CSR write, so such an access ends with ILLEGAL_CSR. -/
def Obligations.VectorCsrWrites : Prop :=
  ∀ s : State, s.misa.getLsbD 21 = true → s.cfg.xlen.trunc s.ops.b ≠ 0 →
    let m := s.cfg.xlen.trunc s.ops.b
    let new (old : Word) : Word := (old &&& ~~~m) ||| (s.cfg.xlen.trunc s.ops.a &&& m)
    (s.BaselineAt 0x008 → exec (.csrRmw 0x008) s = .next { s with
      vec := { s.vec with vstart := new s.vec.vstart }
      resp := Response.data s.vec.vstart }) ∧
    (s.BaselineAt 0x009 → exec (.csrRmw 0x009) s = .next { s with
      vec := { s.vec with vxsat := (new (s.vec.vxsat.setWidth 64)).extractLsb' 0 1 }
      resp := Response.data (s.vec.vxsat.setWidth 64) }) ∧
    (s.BaselineAt 0x00A → exec (.csrRmw 0x00A) s = .next { s with
      vec := { s.vec with vxrm := (new (s.vec.vxrm.setWidth 64)).extractLsb' 0 2 }
      resp := Response.data (s.vec.vxrm.setWidth 64) }) ∧
    (s.BaselineAt 0xC20 → exec (.csrRmw 0xC20) s = .next { s with resp := Response.illegal }) ∧
    (s.BaselineAt 0xC21 → exec (.csrRmw 0xC21) s = .next { s with resp := Response.illegal })

/-- 41_csr_dispatch.md R227, R228: CSR_RMW of mip and sip, mask 0 included. mip lets SSIP, STIP and SEIP be written, and
only with S; sip shows the delegated bits and lets only a delegated SSIP be written. -/
def Obligations.InterruptPendingCsrs : Prop :=
  ∀ s : State,
    let m := s.cfg.xlen.trunc s.ops.b
    let merge (wm : Word) : Word := (s.mip &&& ~~~wm) ||| (s.cfg.xlen.trunc s.ops.a &&& wm)
    (s.BaselineAt 0x344 → s.priv = .m → exec (.csrRmw 0x344) s = .next { s with
      mip := merge (m &&& (if s.misa.getLsbD 18 then 0x222 else 0))
      resp := Response.data s.mip }) ∧
    (s.BaselineAt 0x144 → s.misa.getLsbD 18 = true → s.priv ≠ .u → exec (.csrRmw 0x144) s = .next { s with
      mip := merge (m &&& s.mideleg &&& 0x2)
      resp := Response.data (s.mip &&& s.mideleg) })

/-- 00_scope.md R14, 41_csr_dispatch.md R211 (c): what no CSR command changes, whatever the table and the index. That the
handlers a configuration adds are held to this is the model's choice (log entry 12). Where the descriptor's write and
combined handlers are not added ones, the register files are unchanged too; and a command that ends with ILLEGAL_CSR
changes nothing but the response. -/
def Obligations.CsrCommandsFrame : Prop :=
  ∀ (i : Instr) (csr : CsrIdx) (s t : State),
    (i = .csrRmw csr ∨ i = .csrRd csr ∨ i = .csrWr csr) → exec i s = .next t →
    t.cfg = s.cfg ∧ t.pc = s.pc ∧ t.priv = s.priv ∧ t.misa = s.misa ∧
    t.features = s.features ∧ t.vec.vl = s.vec.vl ∧ t.vec.vtype = s.vec.vtype ∧
    t.blocked = s.blocked ∧ t.altstack = s.altstack ∧ (∀ a, t.mem.readByte a = s.mem.readByte a) ∧
    t.ops = s.ops ∧ t.inbox = s.inbox ∧
    ((∀ d k, s.cfg.csrTable.lookup csr = some d → d.write ≠ some (.added k) ∧ d.rmw ≠ some (.added k)) →
      t.x = s.x ∧ t.f = s.f ∧ t.vec.vr = s.vec.vr) ∧
    (t.resp.status = .illegalCsr → t = { s with resp := Response.illegal }) ∧
    (t.resp.status ≠ .illegalCsr → t.resp.status = .ok)

/-! ### Traps, interrupts and returns -/

/-- 60_exceptions.md R344 to R346, R351: the cause word as a number, an environment call encoded by the current mode, and
the codes that keep the trap value. -/
def Obligations.CauseAndTrapValueAreEncoded : Prop :=
  ∀ (s : State) (r t : Word), s.cfg.xlen.trunc r = r →
    let half := 2 ^ (s.cfg.xlen.bits - 1)
    isInterrupt s.cfg.xlen r = decide (half ≤ r.toNat) ∧
    (causeCode s.cfg.xlen r).toNat = r.toNat % half ∧
    (r.toNat = 8 → (s.encodeCause r).toNat = 8 + (match s.priv with | .u => 0 | .s => 1 | .m => 3)) ∧
    (r.toNat ≠ 8 → s.encodeCause r = r) ∧
    tvalFor s.cfg.xlen r t =
      (if r.toNat ≤ 1 ∨ (4 ≤ r.toNat ∧ r.toNat ≤ 7) ∨ r.toNat = 12 ∨ r.toNat = 13 ∨ r.toNat = 15 then t else 0)

/-- 60_exceptions.md R347: a trap targets S exactly when S is present, the mode is not M and the bit of the code is set in
mideleg (an interrupt) or medeleg (an exception); a code of XLEN or more selects no bit. -/
def Obligations.TargetFollowsDelegation : Prop :=
  ∀ (s : State) (c : Word), s.cfg.xlen.trunc c = c →
    let half := 2 ^ (s.cfg.xlen.bits - 1)
    (s.targetsS c = true ↔
      s.misa.getLsbD 18 = true ∧ s.priv ≠ .m ∧ c.toNat % half < s.cfg.xlen.bits ∧
        (if half ≤ c.toNat then s.mideleg else s.medeleg).getLsbD (c.toNat % half) = true)

/-- 60_exceptions.md R354: the base for an exception and for MODE 0, the base plus four times the code for an interrupt
under MODE 1, modulo 2^XLEN. -/
def Obligations.TrapVectorAddress : Prop :=
  ∀ (x : Xlen) (tvec c : Word), x.trunc tvec = tvec → x.trunc c = c →
    let half := 2 ^ (x.bits - 1)
    let base := tvec.toNat - tvec.toNat % 4
    (tvec.toNat % 4 = 0 ∨ c.toNat < half → (trapVector x tvec c).toNat = base) ∧
    (tvec.toNat % 4 = 1 → half ≤ c.toNat →
      (trapVector x tvec c).toNat = (base + 4 * (c.toNat % half)) % 2 ^ x.bits)

/-- 42_trap_ops.md R260, 60_exceptions.md R352, R353: TRAP that targets M, and everything it leaves as it was. -/
def Obligations.TrapIntoMachineMode : Prop :=
  ∀ s : State, s.cfg.env = .system →
    let c := s.encodeCause (s.cfg.xlen.trunc s.ops.a)
    s.targetsS c = false →
    exec .trap s = .next { s with
      mepc := s.pc &&& (if s.misa.getLsbD 2 then ~~~1#64 else ~~~3#64)
      mcause := c
      mtval := tvalFor s.cfg.xlen c (s.cfg.xlen.trunc s.ops.b)
      mstatus := { s.mstatus with mpie := s.mstatus.mie, mie := false, mpp := s.priv }
      priv := .m
      pc := trapVector s.cfg.xlen s.mtvec c
      resp := Response.ok }

/-- 42_trap_ops.md R260, 60_exceptions.md R352, R353: TRAP that targets S, and everything it leaves as it was. -/
def Obligations.TrapIntoSupervisorMode : Prop :=
  ∀ s : State, s.cfg.env = .system →
    let c := s.encodeCause (s.cfg.xlen.trunc s.ops.a)
    s.targetsS c = true →
    exec .trap s = .next { s with
      sepc := s.pc &&& (if s.misa.getLsbD 2 then ~~~1#64 else ~~~3#64)
      scause := c
      stval := tvalFor s.cfg.xlen c (s.cfg.xlen.trunc s.ops.b)
      mstatus := { s.mstatus with spie := s.mstatus.sie, sie := false, spp := s.priv == .s }
      priv := .s
      pc := trapVector s.cfg.xlen s.stvec c
      resp := Response.ok }

/-- 60_exceptions.md R356: in a user environment TRAP changes no state and puts the encoded cause on the signal port. -/
def Obligations.TrapInUserEnvironment : Prop :=
  ∀ s : State, s.cfg.env = .user →
    exec .trap s = .next { s with
      resp := { Response.ok with causeOut := some (s.encodeCause (s.cfg.xlen.trunc s.ops.a)) } }

/-- 42_trap_ops.md R265, 60_exceptions.md R360, R362: MRET in M, and SRET from S or M when S is present. -/
def Obligations.TrapReturns : Prop :=
  ∀ s : State,
    (s.priv = .m → exec .mret s = .next { s with
      mstatus := { s.mstatus with
        mie := s.mstatus.mpie
        mpie := true
        mpp := if s.misa.getLsbD 20 then .u else .m }
      priv := s.mstatus.mpp
      pc := s.mepc
      resp := Response.ok }) ∧
    (s.misa.getLsbD 18 = true → s.priv ≠ .u → exec .sret s = .next { s with
      mstatus := { s.mstatus with sie := s.mstatus.spie, spie := true, spp := false }
      priv := if s.mstatus.spp then .s else .u
      pc := s.sepc
      resp := Response.ok })

/-- 30_encoding.md R135: the commands that are refused on a condition, each exactly on it: the vector commands without V,
XRET without the privilege it needs, and SIG_SETUP with a signal number outside 1 to 64. -/
def Obligations.CommandsRefusedOnACondition : Prop :=
  ∀ (s : State) (r : RegIdx),
    (exec (.vrRd r) s = .refused .vectorInactive ↔ s.misa.getLsbD 21 = false) ∧
    (exec (.vrWr r) s = .refused .vectorInactive ↔ s.misa.getLsbD 21 = false) ∧
    (exec .vcfgWr s = .refused .vectorInactive ↔ s.misa.getLsbD 21 = false) ∧
    (exec .mret s = .refused .xretPrivilege ↔ s.priv ≠ .m) ∧
    (exec .sret s = .refused .xretPrivilege ↔ s.misa.getLsbD 18 = false ∨ s.priv = .u) ∧
    (exec .sigSetup s = .refused .signalNumberOutOfRange ↔ s.ops.req.sig.toNat = 0 ∨ 64 < s.ops.req.sig.toNat)

/-- 60_exceptions.md R352, R360, R362, R363: a trap and the return of its target, with any operands between, bring back
the mode and the interrupt enable, and pc at the saved address. -/
def Obligations.TrapThenReturn : Prop :=
  ∀ (s s1 : State) (o : Operands), s.cfg.env = .system → exec .trap s = .next s1 →
    let epc := s.pc &&& (if s.misa.getLsbD 2 then ~~~1#64 else ~~~3#64)
    (s1.priv = .m → ∃ s2, exec .mret { s1 with ops := o } = .next s2 ∧
      s2.priv = s.priv ∧ s2.mstatus.mie = s.mstatus.mie ∧ s2.mstatus.mpie = true ∧ s2.pc = epc ∧
      s2.x = s.x ∧ s2.f = s.f ∧ s2.mem = s.mem) ∧
    (s1.priv = .s → ∃ s2, exec .sret { s1 with ops := o } = .next s2 ∧
      s2.priv = s.priv ∧ s2.mstatus.sie = s.mstatus.sie ∧ s2.mstatus.spie = true ∧ s2.pc = epc ∧
      s2.x = s.x ∧ s2.f = s.f ∧ s2.mem = s.mem)

/-- 60_exceptions.md R361: in every state of the invariant the pc that MRET and SRET write is 2-byte aligned, and 4-byte
aligned without C. -/
def Obligations.TrapReturnTargetIsAligned : Prop :=
  ∀ s t : State, s.Inv → (exec .mret s = .next t ∨ exec .sret s = .next t) →
    t.pc.toNat % 2 = 0 ∧ (s.misa.getLsbD 2 = false → t.pc.toNat % 4 = 0)

/-- 42_trap_ops.md R262, 60_exceptions.md R348, R349: IRQ_PEND answers the first code of IRQ_PRIORITY among the pending,
enabled interrupts of M if there is one, else of S, else 0, and changes nothing. -/
def Obligations.IrqPendSelectsByPriority : Prop :=
  ∀ s : State, s.Inv →
    let pend (k : Nat) : Prop := s.mip.getLsbD k = true ∧ s.mie.getLsbD k = true
    let candM (k : Nat) : Prop := pend k ∧ s.mideleg.getLsbD k = false ∧ (s.priv ≠ .m ∨ s.mstatus.mie = true)
    let candS (k : Nat) : Prop :=
      pend k ∧ s.mideleg.getLsbD k = true ∧ (s.priv = .u ∨ (s.priv = .s ∧ s.mstatus.sie = true))
    let answer (d : BitVec 64) : Prop := exec .irqPend s = .next { s with resp := Response.data d }
    (∀ (pre post : List Nat) (k : Nat), s.cfg.irqPriority = pre ++ k :: post → candM k → (∀ j ∈ pre, ¬ candM j) →
      answer (s.cfg.xlen.topBit + BitVec.ofNat 64 k)) ∧
    (∀ (pre post : List Nat) (k : Nat), s.cfg.irqPriority = pre ++ k :: post → (∀ j, ¬ candM j) → candS k →
      (∀ j ∈ pre, ¬ candS j) → answer (s.cfg.xlen.topBit + BitVec.ofNat 64 k)) ∧
    ((∀ j, ¬ candM j ∧ ¬ candS j) → answer 0)

/-- 42_trap_ops.md R264: IP_UPDATE changes the implemented bits of mip under the mask, and nothing else; no other
instruction changes MSIP, MTIP or MEIP. -/
def Obligations.IpUpdateDrivesPendingBits : Prop :=
  (∀ s : State,
    let wm := s.cfg.xlen.trunc s.ops.a &&& (if s.misa.getLsbD 18 then 0xAAA else 0x888)
    exec .ipUpdate s = .next { s with
      mip := (s.mip &&& ~~~wm) ||| (s.cfg.xlen.trunc s.ops.b &&& wm)
      resp := Response.ok }) ∧
  ∀ (i : Instr) (s t : State), i ≠ .ipUpdate → exec i s = .next t →
    t.mip.getLsbD 3 = s.mip.getLsbD 3 ∧ t.mip.getLsbD 7 = s.mip.getLsbD 7 ∧ t.mip.getLsbD 11 = s.mip.getLsbD 11

/-! ### Signal frame -/

/-- 43_signal_frame.md R289: FRAME_SIZE for both XLEN, with and without the vector area, as a function of R, and the four
figures the rule gives for R = 12. -/
def Obligations.FrameSizes : Prop :=
  (∀ s : State,
    let r := s.cfg.mcReserved
    let va := s.misa.getLsbD 21 = true ∨ s.cfg.vecArea = .reserved
    (s.cfg.xlen = .rv64 → va → s.frameSize = 144 + (176 + ((516 + r + 15) / 16 * 16 + 560) + 15) / 16 * 16) ∧
    (s.cfg.xlen = .rv64 → ¬ va → s.frameSize = 144 + (176 + (516 + r + 7) / 8 * 8 + 15) / 16 * 16) ∧
    (s.cfg.xlen = .rv32 → va → s.frameSize = 144 + (160 + ((388 + r + 15) / 16 * 16 + 544) + 15) / 16 * 16) ∧
    (s.cfg.xlen = .rv32 → ¬ va → s.frameSize = 144 + (160 + (388 + r + 7) / 8 * 8 + 15) / 16 * 16)) ∧
  frameSizeOf .rv64 12 false = 848 ∧ frameSizeOf .rv64 12 true = 1408 ∧
  frameSizeOf .rv32 12 false = 704 ∧ frameSizeOf .rv32 12 true = 1248

/-- 10_state.md R60, 43_signal_frame.md R291, R292: the frame address as a number modulo 2^XLEN: the bogus address when
the frame would overflow the alternate stack, else below the alternate stack's end or below sp, aligned down to 4. -/
def Obligations.FrameAddressFollowsTheSwitchingConvention : Prop :=
  ∀ s : State,
    let n : Int := 2 ^ s.cfg.xlen.bits
    let sp : Int := (s.readX 2).toNat
    let base : Int := s.altstack.ssSp.toNat
    let size : Int := s.altstack.ssSize.toNat
    let frame : Int := s.frameSize
    let onStack (a : Int) : Prop := (a - base) % n < size
    let placed (top : Int) : Int := (top - frame) % n / 4 * 4
    (onStack sp → ¬ onStack (sp - frame) → (s.frameAddr.toNat : Int) = n - 1) ∧
    (onStack sp → onStack (sp - frame) → (s.frameAddr.toNat : Int) = placed sp) ∧
    (¬ onStack sp → s.ops.req.onstack = true → 0 < size → (s.frameAddr.toNat : Int) = placed (base + size)) ∧
    (¬ onStack sp → (s.ops.req.onstack = false ∨ size = 0) → (s.frameAddr.toNat : Int) = placed sp)

/-- 43_signal_frame.md R290, R295, R298: a delivery with a good signal number and an admitted frame goes to the handler,
sets x1, x2, x10, x11, x12 and the blocked set, and changes no other register and no control state. What it does to memory
is in the three statements after this one. -/
def Obligations.SigSetupRedirectsTheHart : Prop :=
  ∀ s : State, 1 ≤ s.ops.req.sig.toNat → s.ops.req.sig.toNat ≤ 64 →
    s.lock s.frameAddr s.frameSize .write = true →
    ∃ t, exec .sigSetup s = .next t ∧
      t = { s with
        mem := t.mem
        x := t.x
        pc := s.cfg.xlen.trunc s.ops.req.handler
        blocked := s.ops.req.hmask
        resp := Response.ok } ∧
      t.readX 2 = s.frameAddr ∧
      t.readX 10 = s.ops.req.sig.setWidth 64 ∧
      t.readX 11 = s.cfg.xlen.trunc (s.frameAddr + 8) ∧
      t.readX 12 = s.cfg.xlen.trunc (s.frameAddr + 144) ∧
      t.readX 1 = (if s.cfg.hasTrampoline then s.frameAddr else s.cfg.xlen.trunc s.ops.req.restorer) ∧
      ∀ r : RegIdx, r ≠ 1 → r ≠ 2 → r ≠ 10 → r ≠ 11 → r ≠ 12 → t.readX r = s.readX r

/-- 43_signal_frame.md R282, R284 to R286, R288, R293, R294, 20_memory.md R104: for XLEN = 64, what a delivery leaves at
each field of the frame, little-endian, the values being those before the delivery. -/
def Obligations.FrameHoldsTheContextRv64 : Prop :=
  ∀ s t : State, s.Inv → s.cfg.xlen = .rv64 → s.ops.req.sigOk = true →
    s.lock s.frameAddr s.frameSize .write = true → exec .sigSetup s = .next t →
    let at_ (off n : Nat) : Word := t.mem.load (s.frameAddr.toNat + off) n
    let vb := 320 + (516 + s.cfg.mcReserved + 15) / 16 * 16
    (s.cfg.hasTrampoline = true → at_ 0 4 = 0x08B00893 ∧ at_ 4 4 = 0x00000073) ∧
    (∀ (b : Nat) (h : b < 128), t.mem.readByte (s.frameAddr.toNat + 8 + b) = s.ops.req.info[b]) ∧
    at_ 144 8 = 0 ∧ at_ 152 8 = 0 ∧
    at_ 160 8 = s.altstack.ssSp ∧ at_ 168 4 = s.sasSsFlags (s.readX 2) ∧ at_ 176 8 = s.altstack.ssSize ∧
    at_ 184 8 = s.ops.req.mask ∧
    at_ 320 8 = s.pc ∧
    (∀ i : RegIdx, i ≠ 0 → at_ (320 + 8 * i.toNat) 8 = s.readX i) ∧
    (∀ j : RegIdx, at_ (576 + 8 * j.toNat) 8 = s.readF j) ∧
    at_ 832 4 = s.fcsrValue.setWidth 64 ∧
    (s.misa.getLsbD 21 = true →
      (∀ k : RegIdx, at_ (vb + 16 * k.toNat) 8 = (s.readV k).extractLsb' 0 64 ∧
        at_ (vb + 16 * k.toNat + 8) 8 = (s.readV k).extractLsb' 64 64) ∧
      at_ (vb + 512) 8 = s.vec.vstart ∧ at_ (vb + 520) 8 = s.vec.vxsat.setWidth 64 ∧
      at_ (vb + 528) 8 = s.vec.vxrm.setWidth 64 ∧ at_ (vb + 536) 8 = s.vec.vl ∧ at_ (vb + 544) 8 = s.vec.vtype)

/-- 43_signal_frame.md R283 to R286, R288, R293, R294, 20_memory.md R104: the same for XLEN = 32. -/
def Obligations.FrameHoldsTheContextRv32 : Prop :=
  ∀ s t : State, s.Inv → s.cfg.xlen = .rv32 → s.ops.req.sigOk = true →
    s.lock s.frameAddr s.frameSize .write = true → exec .sigSetup s = .next t →
    let at_ (off n : Nat) : Word := t.mem.load (s.frameAddr.toNat + off) n
    let vb := 304 + (388 + s.cfg.mcReserved + 15) / 16 * 16
    (s.cfg.hasTrampoline = true → at_ 0 4 = 0x08B00893 ∧ at_ 4 4 = 0x00000073) ∧
    (∀ (b : Nat) (h : b < 128), t.mem.readByte (s.frameAddr.toNat + 8 + b) = s.ops.req.info[b]) ∧
    at_ 144 4 = 0 ∧ at_ 148 4 = 0 ∧
    at_ 152 4 = s.altstack.ssSp ∧ at_ 156 4 = s.sasSsFlags (s.readX 2) ∧ at_ 160 4 = s.altstack.ssSize ∧
    at_ 164 8 = s.ops.req.mask ∧
    at_ 304 4 = s.pc ∧
    (∀ i : RegIdx, i ≠ 0 → at_ (304 + 4 * i.toNat) 4 = s.readX i) ∧
    (∀ j : RegIdx, at_ (432 + 8 * j.toNat) 8 = s.readF j) ∧
    at_ 688 4 = s.fcsrValue.setWidth 64 ∧
    (s.misa.getLsbD 21 = true →
      (∀ k : RegIdx, at_ (vb + 16 * k.toNat) 8 = (s.readV k).extractLsb' 0 64 ∧
        at_ (vb + 16 * k.toNat + 8) 8 = (s.readV k).extractLsb' 64 64) ∧
      at_ (vb + 512) 4 = s.vec.vstart ∧ at_ (vb + 516) 4 = s.vec.vxsat.setWidth 64 ∧
      at_ (vb + 520) 4 = s.vec.vxrm.setWidth 64 ∧ at_ (vb + 524) 4 = s.vec.vl ∧ at_ (vb + 528) 4 = s.vec.vtype)

/-- 43_signal_frame.md R281 to R284, R293: every byte outside the fields a delivery writes reads as before: outside the
frame, in its padding and reserved bytes, in the vector area without V, and in the trampoline slot without a trampoline. -/
def Obligations.SigSetupLeavesOtherBytes : Prop :=
  ∀ s t : State, s.Inv → exec .sigSetup s = .next t →
    let w := s.cfg.xlen.bytes
    let mcb := match s.cfg.xlen with | .rv64 => 320 | .rv32 => 304
    let vb := mcb + (32 * w + 260 + s.cfg.mcReserved + 15) / 16 * 16
    let stored (o : Nat) : Prop :=
      (s.cfg.hasTrampoline = true ∧ o < 8) ∨ (8 ≤ o ∧ o < 136) ∨
      (144 ≤ o ∧ o < 144 + 3 * w + 4) ∨ (144 + 4 * w ≤ o ∧ o < 144 + 5 * w + 8) ∨
      (mcb ≤ o ∧ o < mcb + 32 * w + 260) ∨
      (s.misa.getLsbD 21 = true ∧ vb ≤ o ∧ o < vb + 512 + 5 * w)
    ∀ a : Nat, (∀ o, stored o → a ≠ s.frameAddr.toNat + o) → t.mem.readByte a = s.mem.readByte a

/-- 20_memory.md R102, R103: a lock succeeds exactly when the range ends within 2^XLEN and every byte of it is admitted for
the mode; that a list of regions says which bytes are admitted is the model's choice (log entry 6). 43_signal_frame.md
R292, R296, R297, 20_memory.md R109: a delivery whose frame is not admitted, or would overflow the alternate stack, changes
nothing and forces signal 11; if the signal was 11, its disposition is reset. -/
def Obligations.SigSetupFailureChangesNothing : Prop :=
  (∀ (s : State) (addr : Word) (n : Nat) (mode : LockMode),
    s.lock addr n mode = true ↔
      addr.toNat + n ≤ 2 ^ s.cfg.xlen.bits ∧
      ∀ k, k < n → ∃ r ∈ s.cfg.regions, r.base ≤ addr.toNat + k ∧ addr.toNat + k < r.base + r.size ∧
        (mode = .read → r.readable = true) ∧ (mode = .write → r.writable = true)) ∧
  ∀ s : State, 1 ≤ s.ops.req.sig.toNat → s.ops.req.sig.toNat ≤ 64 →
    (s.lock s.frameAddr s.frameSize .write = false ∨
      (s.onSigStack (s.readX 2) = true ∧
        s.onSigStack (s.readX 2 - BitVec.ofNat 64 s.frameSize) = false)) →
    exec .sigSetup s = .next { s with
      resp := { status := .frameFault, dout := 0, wout := 0, forceSig := some 11,
                resetDisp := if s.ops.req.sig.toNat = 11 then some 11 else none, causeOut := none } }

/-- 43_signal_frame.md R300 to R305: a return whose frame at x2 is admitted restores pc, x1 to x31, f0 to f31, fflags,
frm, with V the vector state, and the blocked set from the frame's fields; altstack is what ALT_SET's rule makes of the
saved descriptor; nothing else changes, mstatus included. -/
def Obligations.SigReturnRestoresTheFrame : Prop :=
  ∀ s : State, s.lock (s.readX 2) s.frameSize .read = true →
    let w := s.cfg.xlen.bytes
    let mcb := match s.cfg.xlen with | .rv64 => 320 | .rv32 => 304
    let vb := mcb + (32 * w + 260 + s.cfg.mcReserved + 15) / 16 * 16
    let at_ (off n : Nat) : Word := s.mem.load ((s.readX 2).toNat + off) n
    let hasV := s.misa.getLsbD 21
    ∃ t, exec .sigReturn s = .next t ∧
      t = { s with
        pc := t.pc, x := t.x, f := t.f, fflags := t.fflags, frm := t.frm, vec := t.vec
        blocked := t.blocked, altstack := t.altstack
        resp := { Response.ok with status := .sigreturn } } ∧
      t.pc = at_ mcb w ∧
      (∀ i : RegIdx, i ≠ 0 → t.readX i = at_ (mcb + w * i.toNat) w) ∧
      (∀ j : RegIdx, t.readF j = at_ (mcb + 32 * w + 8 * j.toNat) 8) ∧
      t.fflags = (at_ (mcb + 32 * w + 256) 4).extractLsb' 0 5 ∧
      t.frm = (at_ (mcb + 32 * w + 256) 4).extractLsb' 5 3 ∧
      (hasV = true →
        (∀ k : RegIdx, t.readV k = at_ (vb + 16 * k.toNat + 8) 8 ++ at_ (vb + 16 * k.toNat) 8) ∧
        t.vec.vstart = at_ (vb + 512) w ∧
        t.vec.vxsat = (at_ (vb + 512 + w) w).extractLsb' 0 1 ∧
        t.vec.vxrm = (at_ (vb + 512 + 2 * w) w).extractLsb' 0 2 ∧
        t.vec.vl = at_ (vb + 512 + 3 * w) w ∧
        t.vec.vtype = at_ (vb + 512 + 4 * w) w) ∧
      (hasV = false → t.vec = s.vec) ∧
      t.blocked = at_ (144 + 5 * w) 8 ∧
      t.altstack =
        (s.altInstall (at_ (144 + 2 * w) w) (at_ (144 + 3 * w) 4) (at_ (144 + 4 * w) w) (t.readX 2)).2.altstack

/-- 43_signal_frame.md R306: a return whose frame is not admitted changes nothing and forces signal 11, with no
disposition reset. -/
def Obligations.SigReturnFailureChangesNothing : Prop :=
  ∀ s : State, s.lock (s.readX 2) s.frameSize .read = false →
    exec .sigReturn s = .next { s with
      resp := { status := .frameFault, dout := 0, wout := 0, forceSig := some 11, resetDisp := none,
                causeOut := none } }

/-- 43_signal_frame.md R307: a return from the frame of a delivery brings back what the delivery saved; besides that, the
delivery changes memory (the bytes outside the frame's fields are `SigSetupLeavesOtherBytes`), pc, registers and the
blocked set, and the return only what it restores. Between them any command may have run that leaves memory, x2 and the alternate stack as the delivery left
them. -/
def Obligations.SignalRoundTrip : Prop :=
  ∀ s s1 s1' : State, s.Inv → s.ops.req.sigOk = true → s.lock s.frameAddr s.frameSize .write = true →
    exec .sigSetup s = .next s1 →
    s1'.cfg = s1.cfg → s1'.misa = s1.misa → s1'.mem = s1.mem → s1'.readX 2 = s1.readX 2 →
    s1'.altstack = s1.altstack → s1'.lock (s1'.readX 2) s1'.frameSize .read = true →
    s1 = { s with mem := s1.mem, x := s1.x, pc := s1.pc, blocked := s1.blocked, resp := s1.resp } ∧
    ∃ s2, exec .sigReturn s1' = .next s2 ∧ s2.resp.status = .sigreturn ∧
      s2.pc = s.pc ∧ s2.x = s.x ∧ s2.f = s.f ∧ s2.fflags = s.fflags ∧ s2.frm = s.frm ∧
      (s.misa.getLsbD 21 = true → s2.vec = s.vec) ∧
      s2.blocked = s.ops.req.mask ∧ s2.altstack = s.altstack ∧
      s2 = { s1' with
        pc := s2.pc, x := s2.x, f := s2.f, fflags := s2.fflags, frm := s2.frm, vec := s2.vec
        blocked := s2.blocked, altstack := s2.altstack, resp := s2.resp }

/-- 43_signal_frame.md R310, R311: the blocked set, all 64 bits. -/
def Obligations.MaskReadAndWrite : Prop :=
  ∀ s : State,
    exec .maskRd s = .next { s with resp := Response.data s.blocked } ∧
    exec .maskWr s = .next { s with blocked := s.ops.a, resp := Response.ok }

/-- 10_state.md R60, 43_signal_frame.md R312, R313: reading the alternate stack's fields and flags, and installing a
descriptor: refused with 1 on the stack, disabled by SS_DISABLE, installed when the flags are 0 or SS_ONSTACK and the size
is at least 2048, else refused with 2. -/
def Obligations.AlternateStackReadAndSet : Prop :=
  ∀ (s : State) (arg : BitVec 8),
    let n : Int := 2 ^ s.cfg.xlen.bits
    let a := s.cfg.xlen.trunc s.ops.a
    let b := s.cfg.xlen.trunc s.ops.b
    let onStack : Prop := (((s.readX 2).toNat : Int) - s.altstack.ssSp.toNat) % n < s.altstack.ssSize.toNat
    let rd (v : Word) : Prop := exec (.altRd arg) s = .next { s with resp := Response.data v }
    let set (alt : AltStack) (code : Word) : Prop :=
      exec (.altSet arg) s = .next { s with altstack := alt, resp := Response.data code }
    (arg.toNat = 0 → rd s.altstack.ssSp) ∧
    (arg.toNat = 1 → rd s.altstack.ssSize) ∧
    (arg.toNat = 2 → s.altstack.ssSize = 0 → rd 2) ∧
    (arg.toNat = 2 → s.altstack.ssSize ≠ 0 → onStack → rd 1) ∧
    (arg.toNat = 2 → s.altstack.ssSize ≠ 0 → ¬ onStack → rd 0) ∧
    (3 ≤ arg.toNat → rd 0) ∧
    (onStack → set s.altstack 1) ∧
    (¬ onStack → arg.toNat = 2 → set ⟨0, 0⟩ 0) ∧
    (¬ onStack → arg.toNat ≤ 1 → 2048 ≤ b.toNat → set ⟨a, b⟩ 0) ∧
    (¬ onStack → arg.toNat ≤ 1 → b.toNat < 2048 → set s.altstack 2) ∧
    (¬ onStack → 3 ≤ arg.toNat → set s.altstack 2)

/-! ### Guest words -/

/-- 30_encoding.md R141: what the six Zicsr words do: one CSR access with the operands of the table, then rd gets the old
value (x0 discards it). An access that fails writes no rd and raises illegal instruction: it is TRAP with raw cause 2 and
trap value 0 (60_exceptions.md R358). That the model runs the decoder's part at all, and leaves pc to the engine, is its
own choice (log entry 8). -/
def Obligations.ZicsrWordsAccessTheCsr : Prop :=
  ∀ (s : State) (rd rs1 : RegIdx) (csr : CsrIdx),
    let ones := s.cfg.xlen.ones
    let does (i : Instr) (nv m : Word) : Prop :=
      (∀ (old : Word) (s' : State), s.csrAccess csr nv m = some (old, s') →
        exec i s = .next { s'.writeX rd old with resp := Response.ok }) ∧
      (s.csrAccess csr nv m = none →
        ∃ t, exec .trap { s with ops := { s.ops with a := 2, b := 0 } } = .next t ∧
          exec i s = .next { t with ops := s.ops })
    does (.csrrw rd rs1 csr) (s.readX rs1) ones ∧
    does (.csrrs rd rs1 csr) ones (s.readX rs1) ∧
    does (.csrrc rd rs1 csr) 0 (s.readX rs1) ∧
    does (.csrrwi rd rs1 csr) (BitVec.ofNat 64 rs1.toNat) ones ∧
    does (.csrrsi rd rs1 csr) ones (BitVec.ofNat 64 rs1.toNat) ∧
    does (.csrrci rd rs1 csr) 0 (BitVec.ofNat 64 rs1.toNat)

/-- 30_encoding.md R141, 41_csr_dispatch.md R230: the six Zicsr words on mtval in M, operands read before rd is written:
where they complete, and that they change mtval and rd alone. rd = x0 writes no register; a mask of 0 leaves mtval. -/
def Obligations.ZicsrWordsOnMtval : Prop :=
  ∀ (s : State) (rd rs1 : RegIdx), s.Inv → s.BaselineAt 0x343 → s.priv = .m →
    let v := s.readX rs1
    let u := BitVec.ofNat 64 rs1.toNat
    let does (i : Instr) (new : Word) : Prop := ∃ t, exec i s = .next t ∧
      t = { s with mtval := new, x := t.x, resp := Response.ok } ∧
      (rd ≠ 0 → t.readX rd = s.mtval) ∧ ∀ r : RegIdx, r ≠ rd → t.readX r = s.readX r
    does (.csrrw rd rs1 0x343) v ∧
    does (.csrrs rd rs1 0x343) (s.mtval ||| v) ∧
    does (.csrrc rd rs1 0x343) (s.mtval &&& ~~~v) ∧
    does (.csrrwi rd rs1 0x343) u ∧
    does (.csrrsi rd rs1 0x343) (s.mtval ||| u) ∧
    does (.csrrci rd rs1 0x343) (s.mtval &&& ~~~u)

/-- The model's reading of 30_encoding.md R142 and 60_exceptions.md R345 on the guest channel (log entry 9): li a7, 139
writes x17 and nothing else, and ecall is TRAP with raw cause 8 and trap value 0. -/
def Obligations.TrampolineWordsRun : Prop :=
  ∀ s : State,
    exec .trampLiA7 s = .next { s with x := s.x.set 16 139, resp := Response.ok } ∧
    ∃ t, exec .trap { s with ops := { s.ops with a := 8, b := 0 } } = .next t ∧
      exec .trampEcall s = .next { t with ops := s.ops }

/-! ### The whole machine -/

/-- The invariant of the machine is kept by every step: a legal configuration, legal modes, reserved bits of the control
registers 0, values of XLEN bits, memory in canonical form inside the address space, an alternate stack that is disabled
or large enough. -/
def Obligations.StepKeepsTheInvariant : Prop :=
  ∀ s s' : State, s.Inv → step s = .next s' → s'.Inv

/-- 10_state.md R69, 70_reset_and_hazards.md R390: what reset leaves where the spec states the value, and that the
invariant holds. The configuration and the values of the draws are the model's (log entries 2 to 4), and so are the empty
memory (log entry 5) and the empty queue (log entry 7). -/
def Obligations.ResetStateMeetsTheInvariant : Prop :=
  State.reset.Inv ∧
  State.reset.priv = .m ∧ State.reset.pc = defaultConfig.resetVector ∧ State.reset.mstatus.mie = false ∧
  State.reset.mcause = 0 ∧ State.reset.altstack = ⟨0, 0⟩ ∧ State.reset.misa = defaultConfig.misa ∧
  State.reset.features = defaultConfig.features ∧ State.reset.mem = [] ∧ State.reset.inbox = []

/-- 10_state.md R43, R69, 70_reset_and_hazards.md R390, R391: reset of every well-formed configuration, for every draw and
every launch input, meets the invariant and has the values the rules state. FS is 1 in a user environment with or without
floating point, and MPP is 0 under RESET_ZERO, as R43, R69 and R391 say flatly (log entry 4). -/
def Obligations.EveryResetMeetsTheInvariant : Prop :=
  ∀ (c : Config) (l : Launch) (d : Draws), c.wf = true →
    let s := State.resetOf c l d
    s.Inv ∧ s.mstatus.mie = false ∧ s.mcause = 0 ∧ s.altstack = ⟨0, 0⟩ ∧ s.misa = c.misa ∧
    s.features = c.features ∧ s.blocked = l.blocked0 ∧
    (c.env = .system → s.priv = .m ∧ s.pc = c.resetVector) ∧
    (c.env = .user → s.priv = .u ∧ s.pc = c.xlen.trunc l.entry ∧ s.mstatus.fs = 1 ∧
      s.readX 2 = c.xlen.trunc l.sp0 ∧
      (∀ (r : RegIdx) (h : r.toNat - 1 < 31), r ≠ 0 → r ≠ 2 → s.readX r = c.xlen.trunc l.x[r.toNat - 1]) ∧
      s.f = l.f ∧
      (c.hasExt 21 = true → s.vec = { l.vec with
        vstart := c.xlen.trunc l.vec.vstart, vl := c.xlen.trunc l.vec.vl, vtype := c.xlen.trunc l.vec.vtype })) ∧
    (c.resetZero = true →
      s.fflags = 0 ∧ s.frm = 0 ∧ s.mie = 0 ∧ s.mip = 0 ∧ s.medeleg = 0 ∧ s.mideleg = 0 ∧ s.mtvec = 0 ∧ s.mepc = 0 ∧
      s.mtval = 0 ∧ s.stvec = 0 ∧ s.sepc = 0 ∧ s.scause = 0 ∧ s.stval = 0 ∧
      s.mstatus.sie = false ∧ s.mstatus.spie = false ∧ s.mstatus.mpie = false ∧ s.mstatus.spp = false ∧
      s.mstatus.mpp = .u ∧
      (c.env = .system → s.mstatus.fs = 0 ∧ (∀ r : RegIdx, s.readX r = 0) ∧ (∀ r : RegIdx, s.readF r = 0) ∧
        (∀ r : RegIdx, s.readV r = 0) ∧ s.vec.vstart = 0 ∧ s.vec.vxsat = 0 ∧ s.vec.vxrm = 0 ∧ s.vec.vl = 0 ∧
        s.vec.vtype = 0))

/-- 60_exceptions.md R340: only trap entry and trap return change the mode, trap entry only upwards; of the guest words
(log entries 8, 9) the only trap entries are ecall and a Zicsr word whose access fails. 10_state.md R39: from a state of the
invariant no instruction leads to U without U or to S without S. -/
def Obligations.OnlyTrapsAndReturnsChangeTheMode : Prop :=
  (∀ (i : Instr) (s t : State), exec i s = .next t → t.priv ≠ s.priv →
    i = .mret ∨ i = .sret ∨
    ((i = .trap ∨ i = .trampEcall ∨ s.zicsrFails i) ∧ s.priv.code.toNat < t.priv.code.toNat)) ∧
  ∀ (i : Instr) (s t : State), s.Inv → exec i s = .next t →
    (s.misa.getLsbD 20 = false → t.priv ≠ .u) ∧ (s.misa.getLsbD 18 = false → t.priv ≠ .s)

/-- 20_memory.md R100, 43_signal_frame.md R296: only a delivery that does not fail changes a byte of memory. -/
def Obligations.OnlySigSetupWritesMemory : Prop :=
  ∀ (i : Instr) (s t : State), exec i s = .next t →
    (i ≠ .sigSetup ∨ t.resp.status = .frameFault) → ∀ a, t.mem.readByte a = s.mem.readByte a

/-- 00_scope.md R10, 10_state.md R40, R41, R58, 70_reset_and_hazards.md R392: no instruction changes the configuration,
misa or features, and, in a table whose handlers stand under their predicates (log entry 16), none changes the vector state
without V, nor without S the registers of S (10_state.md R45, R50; that they are kept as fields is log entry 14). -/
def Obligations.ConfigurationNeverChanges : Prop :=
  ∀ (i : Instr) (s t : State), exec i s = .next t →
    t.cfg = s.cfg ∧ t.misa = s.misa ∧ t.features = s.features ∧
    (s.cfg.csrTableOk = true → s.misa.getLsbD 21 = false → t.vec = s.vec) ∧
    (s.cfg.csrTableOk = true → s.misa.getLsbD 18 = false →
      t.medeleg = s.medeleg ∧ t.mideleg = s.mideleg ∧ t.stvec = s.stvec ∧ t.sepc = s.sepc ∧ t.scause = s.scause ∧
      t.stval = s.stval)

/-- 10_state.md R34: the block never advances pc: only PC_WR, trap entry, trap return, delivery and signal return change
it; of the guest words (log entries 8, 9) the only trap entries are ecall and a Zicsr word whose access fails. -/
def Obligations.OnlyTheNamedCommandsMovePc : Prop :=
  ∀ (i : Instr) (s t : State), exec i s = .next t → t.pc ≠ s.pc →
    i = .pcWr ∨ i = .trap ∨ i = .mret ∨ i = .sret ∨ i = .sigSetup ∨ i = .sigReturn ∨ i = .trampEcall ∨
    s.zicsrFails i
end

