-- ==== Sys2Proof/Laws/State.lean ====
section
/-! SUPPORT. One lemma per field of State for each update that has a name. -/

namespace Sys2Proof.Machine

/-! ### `State.respond` -/

@[simp] theorem State.respond_cfg (s : State) (r : Response) : (s.respond r).cfg = s.cfg := rfl
@[simp] theorem State.respond_x (s : State) (r : Response) : (s.respond r).x = s.x := rfl
@[simp] theorem State.respond_pc (s : State) (r : Response) : (s.respond r).pc = s.pc := rfl
@[simp] theorem State.respond_f (s : State) (r : Response) : (s.respond r).f = s.f := rfl
@[simp] theorem State.respond_fflags (s : State) (r : Response) : (s.respond r).fflags = s.fflags := rfl
@[simp] theorem State.respond_frm (s : State) (r : Response) : (s.respond r).frm = s.frm := rfl
@[simp] theorem State.respond_priv (s : State) (r : Response) : (s.respond r).priv = s.priv := rfl
@[simp] theorem State.respond_misa (s : State) (r : Response) : (s.respond r).misa = s.misa := rfl
@[simp] theorem State.respond_features (s : State) (r : Response) : (s.respond r).features = s.features := rfl
@[simp] theorem State.respond_mstatus (s : State) (r : Response) : (s.respond r).mstatus = s.mstatus := rfl
@[simp] theorem State.respond_mie (s : State) (r : Response) : (s.respond r).mie = s.mie := rfl
@[simp] theorem State.respond_mip (s : State) (r : Response) : (s.respond r).mip = s.mip := rfl
@[simp] theorem State.respond_medeleg (s : State) (r : Response) : (s.respond r).medeleg = s.medeleg := rfl
@[simp] theorem State.respond_mideleg (s : State) (r : Response) : (s.respond r).mideleg = s.mideleg := rfl
@[simp] theorem State.respond_mtvec (s : State) (r : Response) : (s.respond r).mtvec = s.mtvec := rfl
@[simp] theorem State.respond_mepc (s : State) (r : Response) : (s.respond r).mepc = s.mepc := rfl
@[simp] theorem State.respond_mcause (s : State) (r : Response) : (s.respond r).mcause = s.mcause := rfl
@[simp] theorem State.respond_mtval (s : State) (r : Response) : (s.respond r).mtval = s.mtval := rfl
@[simp] theorem State.respond_stvec (s : State) (r : Response) : (s.respond r).stvec = s.stvec := rfl
@[simp] theorem State.respond_sepc (s : State) (r : Response) : (s.respond r).sepc = s.sepc := rfl
@[simp] theorem State.respond_scause (s : State) (r : Response) : (s.respond r).scause = s.scause := rfl
@[simp] theorem State.respond_stval (s : State) (r : Response) : (s.respond r).stval = s.stval := rfl
@[simp] theorem State.respond_vec (s : State) (r : Response) : (s.respond r).vec = s.vec := rfl
@[simp] theorem State.respond_blocked (s : State) (r : Response) : (s.respond r).blocked = s.blocked := rfl
@[simp] theorem State.respond_altstack (s : State) (r : Response) : (s.respond r).altstack = s.altstack := rfl
@[simp] theorem State.respond_mem (s : State) (r : Response) : (s.respond r).mem = s.mem := rfl
@[simp] theorem State.respond_ops (s : State) (r : Response) : (s.respond r).ops = s.ops := rfl
@[simp] theorem State.respond_resp (s : State) (r : Response) : (s.respond r).resp = r := rfl
@[simp] theorem State.respond_inbox (s : State) (r : Response) : (s.respond r).inbox = s.inbox := rfl

/-! ### `State.accept` -/

@[simp] theorem State.accept_cfg (s : State) (t : Transaction) (rest : List Transaction) : (s.accept t rest).cfg = s.cfg := rfl
@[simp] theorem State.accept_x (s : State) (t : Transaction) (rest : List Transaction) : (s.accept t rest).x = s.x := rfl
@[simp] theorem State.accept_pc (s : State) (t : Transaction) (rest : List Transaction) : (s.accept t rest).pc = s.pc := rfl
@[simp] theorem State.accept_f (s : State) (t : Transaction) (rest : List Transaction) : (s.accept t rest).f = s.f := rfl
@[simp] theorem State.accept_fflags (s : State) (t : Transaction) (rest : List Transaction) : (s.accept t rest).fflags = s.fflags := rfl
@[simp] theorem State.accept_frm (s : State) (t : Transaction) (rest : List Transaction) : (s.accept t rest).frm = s.frm := rfl
@[simp] theorem State.accept_priv (s : State) (t : Transaction) (rest : List Transaction) : (s.accept t rest).priv = s.priv := rfl
@[simp] theorem State.accept_misa (s : State) (t : Transaction) (rest : List Transaction) : (s.accept t rest).misa = s.misa := rfl
@[simp] theorem State.accept_features (s : State) (t : Transaction) (rest : List Transaction) : (s.accept t rest).features = s.features := rfl
@[simp] theorem State.accept_mstatus (s : State) (t : Transaction) (rest : List Transaction) : (s.accept t rest).mstatus = s.mstatus := rfl
@[simp] theorem State.accept_mie (s : State) (t : Transaction) (rest : List Transaction) : (s.accept t rest).mie = s.mie := rfl
@[simp] theorem State.accept_mip (s : State) (t : Transaction) (rest : List Transaction) : (s.accept t rest).mip = s.mip := rfl
@[simp] theorem State.accept_medeleg (s : State) (t : Transaction) (rest : List Transaction) : (s.accept t rest).medeleg = s.medeleg := rfl
@[simp] theorem State.accept_mideleg (s : State) (t : Transaction) (rest : List Transaction) : (s.accept t rest).mideleg = s.mideleg := rfl
@[simp] theorem State.accept_mtvec (s : State) (t : Transaction) (rest : List Transaction) : (s.accept t rest).mtvec = s.mtvec := rfl
@[simp] theorem State.accept_mepc (s : State) (t : Transaction) (rest : List Transaction) : (s.accept t rest).mepc = s.mepc := rfl
@[simp] theorem State.accept_mcause (s : State) (t : Transaction) (rest : List Transaction) : (s.accept t rest).mcause = s.mcause := rfl
@[simp] theorem State.accept_mtval (s : State) (t : Transaction) (rest : List Transaction) : (s.accept t rest).mtval = s.mtval := rfl
@[simp] theorem State.accept_stvec (s : State) (t : Transaction) (rest : List Transaction) : (s.accept t rest).stvec = s.stvec := rfl
@[simp] theorem State.accept_sepc (s : State) (t : Transaction) (rest : List Transaction) : (s.accept t rest).sepc = s.sepc := rfl
@[simp] theorem State.accept_scause (s : State) (t : Transaction) (rest : List Transaction) : (s.accept t rest).scause = s.scause := rfl
@[simp] theorem State.accept_stval (s : State) (t : Transaction) (rest : List Transaction) : (s.accept t rest).stval = s.stval := rfl
@[simp] theorem State.accept_vec (s : State) (t : Transaction) (rest : List Transaction) : (s.accept t rest).vec = s.vec := rfl
@[simp] theorem State.accept_blocked (s : State) (t : Transaction) (rest : List Transaction) : (s.accept t rest).blocked = s.blocked := rfl
@[simp] theorem State.accept_altstack (s : State) (t : Transaction) (rest : List Transaction) : (s.accept t rest).altstack = s.altstack := rfl
@[simp] theorem State.accept_mem (s : State) (t : Transaction) (rest : List Transaction) : (s.accept t rest).mem = s.mem := rfl
@[simp] theorem State.accept_ops (s : State) (t : Transaction) (rest : List Transaction) : (s.accept t rest).ops = t.ops := rfl
@[simp] theorem State.accept_resp (s : State) (t : Transaction) (rest : List Transaction) : (s.accept t rest).resp = s.resp := rfl
@[simp] theorem State.accept_inbox (s : State) (t : Transaction) (rest : List Transaction) : (s.accept t rest).inbox = rest := rfl

/-! ### `State.writeX` -/

@[simp] theorem State.writeX_cfg (s : State) (i : RegIdx) (v : Word) : (s.writeX i v).cfg = s.cfg := by unfold State.writeX; split <;> rfl
@[simp] theorem State.writeX_pc (s : State) (i : RegIdx) (v : Word) : (s.writeX i v).pc = s.pc := by unfold State.writeX; split <;> rfl
@[simp] theorem State.writeX_f (s : State) (i : RegIdx) (v : Word) : (s.writeX i v).f = s.f := by unfold State.writeX; split <;> rfl
@[simp] theorem State.writeX_fflags (s : State) (i : RegIdx) (v : Word) : (s.writeX i v).fflags = s.fflags := by unfold State.writeX; split <;> rfl
@[simp] theorem State.writeX_frm (s : State) (i : RegIdx) (v : Word) : (s.writeX i v).frm = s.frm := by unfold State.writeX; split <;> rfl
@[simp] theorem State.writeX_priv (s : State) (i : RegIdx) (v : Word) : (s.writeX i v).priv = s.priv := by unfold State.writeX; split <;> rfl
@[simp] theorem State.writeX_misa (s : State) (i : RegIdx) (v : Word) : (s.writeX i v).misa = s.misa := by unfold State.writeX; split <;> rfl
@[simp] theorem State.writeX_features (s : State) (i : RegIdx) (v : Word) : (s.writeX i v).features = s.features := by unfold State.writeX; split <;> rfl
@[simp] theorem State.writeX_mstatus (s : State) (i : RegIdx) (v : Word) : (s.writeX i v).mstatus = s.mstatus := by unfold State.writeX; split <;> rfl
@[simp] theorem State.writeX_mie (s : State) (i : RegIdx) (v : Word) : (s.writeX i v).mie = s.mie := by unfold State.writeX; split <;> rfl
@[simp] theorem State.writeX_mip (s : State) (i : RegIdx) (v : Word) : (s.writeX i v).mip = s.mip := by unfold State.writeX; split <;> rfl
@[simp] theorem State.writeX_medeleg (s : State) (i : RegIdx) (v : Word) : (s.writeX i v).medeleg = s.medeleg := by unfold State.writeX; split <;> rfl
@[simp] theorem State.writeX_mideleg (s : State) (i : RegIdx) (v : Word) : (s.writeX i v).mideleg = s.mideleg := by unfold State.writeX; split <;> rfl
@[simp] theorem State.writeX_mtvec (s : State) (i : RegIdx) (v : Word) : (s.writeX i v).mtvec = s.mtvec := by unfold State.writeX; split <;> rfl
@[simp] theorem State.writeX_mepc (s : State) (i : RegIdx) (v : Word) : (s.writeX i v).mepc = s.mepc := by unfold State.writeX; split <;> rfl
@[simp] theorem State.writeX_mcause (s : State) (i : RegIdx) (v : Word) : (s.writeX i v).mcause = s.mcause := by unfold State.writeX; split <;> rfl
@[simp] theorem State.writeX_mtval (s : State) (i : RegIdx) (v : Word) : (s.writeX i v).mtval = s.mtval := by unfold State.writeX; split <;> rfl
@[simp] theorem State.writeX_stvec (s : State) (i : RegIdx) (v : Word) : (s.writeX i v).stvec = s.stvec := by unfold State.writeX; split <;> rfl
@[simp] theorem State.writeX_sepc (s : State) (i : RegIdx) (v : Word) : (s.writeX i v).sepc = s.sepc := by unfold State.writeX; split <;> rfl
@[simp] theorem State.writeX_scause (s : State) (i : RegIdx) (v : Word) : (s.writeX i v).scause = s.scause := by unfold State.writeX; split <;> rfl
@[simp] theorem State.writeX_stval (s : State) (i : RegIdx) (v : Word) : (s.writeX i v).stval = s.stval := by unfold State.writeX; split <;> rfl
@[simp] theorem State.writeX_vec (s : State) (i : RegIdx) (v : Word) : (s.writeX i v).vec = s.vec := by unfold State.writeX; split <;> rfl
@[simp] theorem State.writeX_blocked (s : State) (i : RegIdx) (v : Word) : (s.writeX i v).blocked = s.blocked := by unfold State.writeX; split <;> rfl
@[simp] theorem State.writeX_altstack (s : State) (i : RegIdx) (v : Word) : (s.writeX i v).altstack = s.altstack := by unfold State.writeX; split <;> rfl
@[simp] theorem State.writeX_mem (s : State) (i : RegIdx) (v : Word) : (s.writeX i v).mem = s.mem := by unfold State.writeX; split <;> rfl
@[simp] theorem State.writeX_ops (s : State) (i : RegIdx) (v : Word) : (s.writeX i v).ops = s.ops := by unfold State.writeX; split <;> rfl
@[simp] theorem State.writeX_resp (s : State) (i : RegIdx) (v : Word) : (s.writeX i v).resp = s.resp := by unfold State.writeX; split <;> rfl
@[simp] theorem State.writeX_inbox (s : State) (i : RegIdx) (v : Word) : (s.writeX i v).inbox = s.inbox := by unfold State.writeX; split <;> rfl

/-! ### `State.writeF` -/

@[simp] theorem State.writeF_cfg (s : State) (i : RegIdx) (v : BitVec 64) : (s.writeF i v).cfg = s.cfg := rfl
@[simp] theorem State.writeF_x (s : State) (i : RegIdx) (v : BitVec 64) : (s.writeF i v).x = s.x := rfl
@[simp] theorem State.writeF_pc (s : State) (i : RegIdx) (v : BitVec 64) : (s.writeF i v).pc = s.pc := rfl
@[simp] theorem State.writeF_fflags (s : State) (i : RegIdx) (v : BitVec 64) : (s.writeF i v).fflags = s.fflags := rfl
@[simp] theorem State.writeF_frm (s : State) (i : RegIdx) (v : BitVec 64) : (s.writeF i v).frm = s.frm := rfl
@[simp] theorem State.writeF_priv (s : State) (i : RegIdx) (v : BitVec 64) : (s.writeF i v).priv = s.priv := rfl
@[simp] theorem State.writeF_misa (s : State) (i : RegIdx) (v : BitVec 64) : (s.writeF i v).misa = s.misa := rfl
@[simp] theorem State.writeF_features (s : State) (i : RegIdx) (v : BitVec 64) : (s.writeF i v).features = s.features := rfl
@[simp] theorem State.writeF_mstatus (s : State) (i : RegIdx) (v : BitVec 64) : (s.writeF i v).mstatus = s.mstatus := rfl
@[simp] theorem State.writeF_mie (s : State) (i : RegIdx) (v : BitVec 64) : (s.writeF i v).mie = s.mie := rfl
@[simp] theorem State.writeF_mip (s : State) (i : RegIdx) (v : BitVec 64) : (s.writeF i v).mip = s.mip := rfl
@[simp] theorem State.writeF_medeleg (s : State) (i : RegIdx) (v : BitVec 64) : (s.writeF i v).medeleg = s.medeleg := rfl
@[simp] theorem State.writeF_mideleg (s : State) (i : RegIdx) (v : BitVec 64) : (s.writeF i v).mideleg = s.mideleg := rfl
@[simp] theorem State.writeF_mtvec (s : State) (i : RegIdx) (v : BitVec 64) : (s.writeF i v).mtvec = s.mtvec := rfl
@[simp] theorem State.writeF_mepc (s : State) (i : RegIdx) (v : BitVec 64) : (s.writeF i v).mepc = s.mepc := rfl
@[simp] theorem State.writeF_mcause (s : State) (i : RegIdx) (v : BitVec 64) : (s.writeF i v).mcause = s.mcause := rfl
@[simp] theorem State.writeF_mtval (s : State) (i : RegIdx) (v : BitVec 64) : (s.writeF i v).mtval = s.mtval := rfl
@[simp] theorem State.writeF_stvec (s : State) (i : RegIdx) (v : BitVec 64) : (s.writeF i v).stvec = s.stvec := rfl
@[simp] theorem State.writeF_sepc (s : State) (i : RegIdx) (v : BitVec 64) : (s.writeF i v).sepc = s.sepc := rfl
@[simp] theorem State.writeF_scause (s : State) (i : RegIdx) (v : BitVec 64) : (s.writeF i v).scause = s.scause := rfl
@[simp] theorem State.writeF_stval (s : State) (i : RegIdx) (v : BitVec 64) : (s.writeF i v).stval = s.stval := rfl
@[simp] theorem State.writeF_vec (s : State) (i : RegIdx) (v : BitVec 64) : (s.writeF i v).vec = s.vec := rfl
@[simp] theorem State.writeF_blocked (s : State) (i : RegIdx) (v : BitVec 64) : (s.writeF i v).blocked = s.blocked := rfl
@[simp] theorem State.writeF_altstack (s : State) (i : RegIdx) (v : BitVec 64) : (s.writeF i v).altstack = s.altstack := rfl
@[simp] theorem State.writeF_mem (s : State) (i : RegIdx) (v : BitVec 64) : (s.writeF i v).mem = s.mem := rfl
@[simp] theorem State.writeF_ops (s : State) (i : RegIdx) (v : BitVec 64) : (s.writeF i v).ops = s.ops := rfl
@[simp] theorem State.writeF_resp (s : State) (i : RegIdx) (v : BitVec 64) : (s.writeF i v).resp = s.resp := rfl
@[simp] theorem State.writeF_inbox (s : State) (i : RegIdx) (v : BitVec 64) : (s.writeF i v).inbox = s.inbox := rfl

/-! ### `State.writeV` -/

@[simp] theorem State.writeV_cfg (s : State) (i : RegIdx) (v : VWord) : (s.writeV i v).cfg = s.cfg := rfl
@[simp] theorem State.writeV_x (s : State) (i : RegIdx) (v : VWord) : (s.writeV i v).x = s.x := rfl
@[simp] theorem State.writeV_pc (s : State) (i : RegIdx) (v : VWord) : (s.writeV i v).pc = s.pc := rfl
@[simp] theorem State.writeV_f (s : State) (i : RegIdx) (v : VWord) : (s.writeV i v).f = s.f := rfl
@[simp] theorem State.writeV_fflags (s : State) (i : RegIdx) (v : VWord) : (s.writeV i v).fflags = s.fflags := rfl
@[simp] theorem State.writeV_frm (s : State) (i : RegIdx) (v : VWord) : (s.writeV i v).frm = s.frm := rfl
@[simp] theorem State.writeV_priv (s : State) (i : RegIdx) (v : VWord) : (s.writeV i v).priv = s.priv := rfl
@[simp] theorem State.writeV_misa (s : State) (i : RegIdx) (v : VWord) : (s.writeV i v).misa = s.misa := rfl
@[simp] theorem State.writeV_features (s : State) (i : RegIdx) (v : VWord) : (s.writeV i v).features = s.features := rfl
@[simp] theorem State.writeV_mstatus (s : State) (i : RegIdx) (v : VWord) : (s.writeV i v).mstatus = s.mstatus := rfl
@[simp] theorem State.writeV_mie (s : State) (i : RegIdx) (v : VWord) : (s.writeV i v).mie = s.mie := rfl
@[simp] theorem State.writeV_mip (s : State) (i : RegIdx) (v : VWord) : (s.writeV i v).mip = s.mip := rfl
@[simp] theorem State.writeV_medeleg (s : State) (i : RegIdx) (v : VWord) : (s.writeV i v).medeleg = s.medeleg := rfl
@[simp] theorem State.writeV_mideleg (s : State) (i : RegIdx) (v : VWord) : (s.writeV i v).mideleg = s.mideleg := rfl
@[simp] theorem State.writeV_mtvec (s : State) (i : RegIdx) (v : VWord) : (s.writeV i v).mtvec = s.mtvec := rfl
@[simp] theorem State.writeV_mepc (s : State) (i : RegIdx) (v : VWord) : (s.writeV i v).mepc = s.mepc := rfl
@[simp] theorem State.writeV_mcause (s : State) (i : RegIdx) (v : VWord) : (s.writeV i v).mcause = s.mcause := rfl
@[simp] theorem State.writeV_mtval (s : State) (i : RegIdx) (v : VWord) : (s.writeV i v).mtval = s.mtval := rfl
@[simp] theorem State.writeV_stvec (s : State) (i : RegIdx) (v : VWord) : (s.writeV i v).stvec = s.stvec := rfl
@[simp] theorem State.writeV_sepc (s : State) (i : RegIdx) (v : VWord) : (s.writeV i v).sepc = s.sepc := rfl
@[simp] theorem State.writeV_scause (s : State) (i : RegIdx) (v : VWord) : (s.writeV i v).scause = s.scause := rfl
@[simp] theorem State.writeV_stval (s : State) (i : RegIdx) (v : VWord) : (s.writeV i v).stval = s.stval := rfl
@[simp] theorem State.writeV_blocked (s : State) (i : RegIdx) (v : VWord) : (s.writeV i v).blocked = s.blocked := rfl
@[simp] theorem State.writeV_altstack (s : State) (i : RegIdx) (v : VWord) : (s.writeV i v).altstack = s.altstack := rfl
@[simp] theorem State.writeV_mem (s : State) (i : RegIdx) (v : VWord) : (s.writeV i v).mem = s.mem := rfl
@[simp] theorem State.writeV_ops (s : State) (i : RegIdx) (v : VWord) : (s.writeV i v).ops = s.ops := rfl
@[simp] theorem State.writeV_resp (s : State) (i : RegIdx) (v : VWord) : (s.writeV i v).resp = s.resp := rfl
@[simp] theorem State.writeV_inbox (s : State) (i : RegIdx) (v : VWord) : (s.writeV i v).inbox = s.inbox := rfl

/-! ### `State.installFcsr` -/

@[simp] theorem State.installFcsr_cfg (s : State) (v : BitVec 32) : (s.installFcsr v).cfg = s.cfg := rfl
@[simp] theorem State.installFcsr_x (s : State) (v : BitVec 32) : (s.installFcsr v).x = s.x := rfl
@[simp] theorem State.installFcsr_pc (s : State) (v : BitVec 32) : (s.installFcsr v).pc = s.pc := rfl
@[simp] theorem State.installFcsr_f (s : State) (v : BitVec 32) : (s.installFcsr v).f = s.f := rfl
@[simp] theorem State.installFcsr_fflags (s : State) (v : BitVec 32) : (s.installFcsr v).fflags = v.extractLsb' 0 5 := rfl
@[simp] theorem State.installFcsr_frm (s : State) (v : BitVec 32) : (s.installFcsr v).frm = v.extractLsb' 5 3 := rfl
@[simp] theorem State.installFcsr_priv (s : State) (v : BitVec 32) : (s.installFcsr v).priv = s.priv := rfl
@[simp] theorem State.installFcsr_misa (s : State) (v : BitVec 32) : (s.installFcsr v).misa = s.misa := rfl
@[simp] theorem State.installFcsr_features (s : State) (v : BitVec 32) : (s.installFcsr v).features = s.features := rfl
@[simp] theorem State.installFcsr_mstatus (s : State) (v : BitVec 32) : (s.installFcsr v).mstatus = s.mstatus := rfl
@[simp] theorem State.installFcsr_mie (s : State) (v : BitVec 32) : (s.installFcsr v).mie = s.mie := rfl
@[simp] theorem State.installFcsr_mip (s : State) (v : BitVec 32) : (s.installFcsr v).mip = s.mip := rfl
@[simp] theorem State.installFcsr_medeleg (s : State) (v : BitVec 32) : (s.installFcsr v).medeleg = s.medeleg := rfl
@[simp] theorem State.installFcsr_mideleg (s : State) (v : BitVec 32) : (s.installFcsr v).mideleg = s.mideleg := rfl
@[simp] theorem State.installFcsr_mtvec (s : State) (v : BitVec 32) : (s.installFcsr v).mtvec = s.mtvec := rfl
@[simp] theorem State.installFcsr_mepc (s : State) (v : BitVec 32) : (s.installFcsr v).mepc = s.mepc := rfl
@[simp] theorem State.installFcsr_mcause (s : State) (v : BitVec 32) : (s.installFcsr v).mcause = s.mcause := rfl
@[simp] theorem State.installFcsr_mtval (s : State) (v : BitVec 32) : (s.installFcsr v).mtval = s.mtval := rfl
@[simp] theorem State.installFcsr_stvec (s : State) (v : BitVec 32) : (s.installFcsr v).stvec = s.stvec := rfl
@[simp] theorem State.installFcsr_sepc (s : State) (v : BitVec 32) : (s.installFcsr v).sepc = s.sepc := rfl
@[simp] theorem State.installFcsr_scause (s : State) (v : BitVec 32) : (s.installFcsr v).scause = s.scause := rfl
@[simp] theorem State.installFcsr_stval (s : State) (v : BitVec 32) : (s.installFcsr v).stval = s.stval := rfl
@[simp] theorem State.installFcsr_blocked (s : State) (v : BitVec 32) : (s.installFcsr v).blocked = s.blocked := rfl
@[simp] theorem State.installFcsr_altstack (s : State) (v : BitVec 32) : (s.installFcsr v).altstack = s.altstack := rfl
@[simp] theorem State.installFcsr_mem (s : State) (v : BitVec 32) : (s.installFcsr v).mem = s.mem := rfl
@[simp] theorem State.installFcsr_ops (s : State) (v : BitVec 32) : (s.installFcsr v).ops = s.ops := rfl
@[simp] theorem State.installFcsr_resp (s : State) (v : BitVec 32) : (s.installFcsr v).resp = s.resp := rfl
@[simp] theorem State.installFcsr_inbox (s : State) (v : BitVec 32) : (s.installFcsr v).inbox = s.inbox := rfl

/-! ### `State.dirtyFs` -/

@[simp] theorem State.dirtyFs_cfg (s : State) : (s.dirtyFs).cfg = s.cfg := rfl
@[simp] theorem State.dirtyFs_x (s : State) : (s.dirtyFs).x = s.x := rfl
@[simp] theorem State.dirtyFs_pc (s : State) : (s.dirtyFs).pc = s.pc := rfl
@[simp] theorem State.dirtyFs_f (s : State) : (s.dirtyFs).f = s.f := rfl
@[simp] theorem State.dirtyFs_fflags (s : State) : (s.dirtyFs).fflags = s.fflags := rfl
@[simp] theorem State.dirtyFs_frm (s : State) : (s.dirtyFs).frm = s.frm := rfl
@[simp] theorem State.dirtyFs_priv (s : State) : (s.dirtyFs).priv = s.priv := rfl
@[simp] theorem State.dirtyFs_misa (s : State) : (s.dirtyFs).misa = s.misa := rfl
@[simp] theorem State.dirtyFs_features (s : State) : (s.dirtyFs).features = s.features := rfl
@[simp] theorem State.dirtyFs_mie (s : State) : (s.dirtyFs).mie = s.mie := rfl
@[simp] theorem State.dirtyFs_mip (s : State) : (s.dirtyFs).mip = s.mip := rfl
@[simp] theorem State.dirtyFs_medeleg (s : State) : (s.dirtyFs).medeleg = s.medeleg := rfl
@[simp] theorem State.dirtyFs_mideleg (s : State) : (s.dirtyFs).mideleg = s.mideleg := rfl
@[simp] theorem State.dirtyFs_mtvec (s : State) : (s.dirtyFs).mtvec = s.mtvec := rfl
@[simp] theorem State.dirtyFs_mepc (s : State) : (s.dirtyFs).mepc = s.mepc := rfl
@[simp] theorem State.dirtyFs_mcause (s : State) : (s.dirtyFs).mcause = s.mcause := rfl
@[simp] theorem State.dirtyFs_mtval (s : State) : (s.dirtyFs).mtval = s.mtval := rfl
@[simp] theorem State.dirtyFs_stvec (s : State) : (s.dirtyFs).stvec = s.stvec := rfl
@[simp] theorem State.dirtyFs_sepc (s : State) : (s.dirtyFs).sepc = s.sepc := rfl
@[simp] theorem State.dirtyFs_scause (s : State) : (s.dirtyFs).scause = s.scause := rfl
@[simp] theorem State.dirtyFs_stval (s : State) : (s.dirtyFs).stval = s.stval := rfl
@[simp] theorem State.dirtyFs_vec (s : State) : (s.dirtyFs).vec = s.vec := rfl
@[simp] theorem State.dirtyFs_blocked (s : State) : (s.dirtyFs).blocked = s.blocked := rfl
@[simp] theorem State.dirtyFs_altstack (s : State) : (s.dirtyFs).altstack = s.altstack := rfl
@[simp] theorem State.dirtyFs_mem (s : State) : (s.dirtyFs).mem = s.mem := rfl
@[simp] theorem State.dirtyFs_ops (s : State) : (s.dirtyFs).ops = s.ops := rfl
@[simp] theorem State.dirtyFs_resp (s : State) : (s.dirtyFs).resp = s.resp := rfl
@[simp] theorem State.dirtyFs_inbox (s : State) : (s.dirtyFs).inbox = s.inbox := rfl

/-! ### `State.writeMstatus` -/

@[simp] theorem State.writeMstatus_cfg (s : State) (v : Word) : (s.writeMstatus v).cfg = s.cfg := rfl
@[simp] theorem State.writeMstatus_x (s : State) (v : Word) : (s.writeMstatus v).x = s.x := rfl
@[simp] theorem State.writeMstatus_pc (s : State) (v : Word) : (s.writeMstatus v).pc = s.pc := rfl
@[simp] theorem State.writeMstatus_f (s : State) (v : Word) : (s.writeMstatus v).f = s.f := rfl
@[simp] theorem State.writeMstatus_fflags (s : State) (v : Word) : (s.writeMstatus v).fflags = s.fflags := rfl
@[simp] theorem State.writeMstatus_frm (s : State) (v : Word) : (s.writeMstatus v).frm = s.frm := rfl
@[simp] theorem State.writeMstatus_priv (s : State) (v : Word) : (s.writeMstatus v).priv = s.priv := rfl
@[simp] theorem State.writeMstatus_misa (s : State) (v : Word) : (s.writeMstatus v).misa = s.misa := rfl
@[simp] theorem State.writeMstatus_features (s : State) (v : Word) : (s.writeMstatus v).features = s.features := rfl
@[simp] theorem State.writeMstatus_mstatus (s : State) (v : Word) : (s.writeMstatus v).mstatus = s.mstatus.write s.misa v := rfl
@[simp] theorem State.writeMstatus_mie (s : State) (v : Word) : (s.writeMstatus v).mie = s.mie := rfl
@[simp] theorem State.writeMstatus_mip (s : State) (v : Word) : (s.writeMstatus v).mip = s.mip := rfl
@[simp] theorem State.writeMstatus_medeleg (s : State) (v : Word) : (s.writeMstatus v).medeleg = s.medeleg := rfl
@[simp] theorem State.writeMstatus_mideleg (s : State) (v : Word) : (s.writeMstatus v).mideleg = s.mideleg := rfl
@[simp] theorem State.writeMstatus_mtvec (s : State) (v : Word) : (s.writeMstatus v).mtvec = s.mtvec := rfl
@[simp] theorem State.writeMstatus_mepc (s : State) (v : Word) : (s.writeMstatus v).mepc = s.mepc := rfl
@[simp] theorem State.writeMstatus_mcause (s : State) (v : Word) : (s.writeMstatus v).mcause = s.mcause := rfl
@[simp] theorem State.writeMstatus_mtval (s : State) (v : Word) : (s.writeMstatus v).mtval = s.mtval := rfl
@[simp] theorem State.writeMstatus_stvec (s : State) (v : Word) : (s.writeMstatus v).stvec = s.stvec := rfl
@[simp] theorem State.writeMstatus_sepc (s : State) (v : Word) : (s.writeMstatus v).sepc = s.sepc := rfl
@[simp] theorem State.writeMstatus_scause (s : State) (v : Word) : (s.writeMstatus v).scause = s.scause := rfl
@[simp] theorem State.writeMstatus_stval (s : State) (v : Word) : (s.writeMstatus v).stval = s.stval := rfl
@[simp] theorem State.writeMstatus_vec (s : State) (v : Word) : (s.writeMstatus v).vec = s.vec := rfl
@[simp] theorem State.writeMstatus_blocked (s : State) (v : Word) : (s.writeMstatus v).blocked = s.blocked := rfl
@[simp] theorem State.writeMstatus_altstack (s : State) (v : Word) : (s.writeMstatus v).altstack = s.altstack := rfl
@[simp] theorem State.writeMstatus_mem (s : State) (v : Word) : (s.writeMstatus v).mem = s.mem := rfl
@[simp] theorem State.writeMstatus_ops (s : State) (v : Word) : (s.writeMstatus v).ops = s.ops := rfl
@[simp] theorem State.writeMstatus_resp (s : State) (v : Word) : (s.writeMstatus v).resp = s.resp := rfl
@[simp] theorem State.writeMstatus_inbox (s : State) (v : Word) : (s.writeMstatus v).inbox = s.inbox := rfl

end Sys2Proof.Machine
end

