-- ==== Sys2Proof/Laws/Word.lean ====
section
/-! SUPPORT. Values of XLEN bits: `trunc` as a number, and the operations that keep a value inside XLEN bits. -/

namespace Sys2Proof

theorem Xlen.bits_le (x : Xlen) : x.bits ≤ 64 := by cases x <;> decide

/-- A bit of a truncated word (00_scope.md R11). -/
theorem Xlen.getLsbD_trunc (x : Xlen) (v : Word) (i : Nat) :
    (x.trunc v).getLsbD i = (decide (i < x.bits) && v.getLsbD i) := by
  cases x with
  | rv64 =>
    by_cases h : i < 64
    · simp [Xlen.trunc, Xlen.bits, h]
    · simp [Xlen.trunc, Xlen.bits, h, BitVec.getLsbD_of_ge v i (by omega)]
  | rv32 =>
    rw [Xlen.trunc, BitVec.getLsbD_and, Bool.and_comm]
    by_cases h : i < 64
    · rw [show (0xFFFFFFFF#64).getLsbD i = decide (i < 32) from
        (by decide : ∀ j : Fin 64, (0xFFFFFFFF#64).getLsbD j.val = decide (j.val < 32)) ⟨i, h⟩]
      rfl
    · simp [BitVec.getLsbD_of_ge v i (by omega)]

/-- Truncation is the remainder modulo 2^XLEN. -/
theorem Xlen.toNat_trunc (x : Xlen) (v : Word) : (x.trunc v).toNat = v.toNat % 2 ^ x.bits := by
  refine Nat.eq_of_testBit_eq fun i => ?_
  rw [Nat.testBit_mod_two_pow]
  exact x.getLsbD_trunc v i

/-- A value of XLEN bits is below 2^XLEN. -/
theorem Xlen.trunc_eq_self_iff (x : Xlen) (v : Word) : x.trunc v = v ↔ v.toNat < 2 ^ x.bits := by
  rw [← BitVec.toNat_inj, x.toNat_trunc]
  exact ⟨fun h => h ▸ Nat.mod_lt _ (by positivity), Nat.mod_eq_of_lt⟩

/-- A value of XLEN bits has no bit from XLEN up. -/
theorem Xlen.trunc_eq_self_iff_bits (x : Xlen) (v : Word) : x.trunc v = v ↔ ∀ i, x.bits ≤ i → v.getLsbD i = false := by
  constructor
  · intro h i hi
    rw [← h, x.getLsbD_trunc]
    simp [show ¬ i < x.bits by omega]
  · intro h
    refine BitVec.eq_of_getLsbD_eq fun i _ => ?_
    rw [x.getLsbD_trunc]
    by_cases hi : i < x.bits
    · simp [hi]
    · simp [hi, h i (by omega)]

@[simp] theorem Xlen.trunc_trunc (x : Xlen) (v : Word) : x.trunc (x.trunc v) = x.trunc v := by
  rw [Xlen.trunc_eq_self_iff, x.toNat_trunc]
  exact Nat.mod_lt _ (by positivity)

@[simp] theorem Xlen.trunc_zero (x : Xlen) : x.trunc 0 = 0 := by cases x <;> rfl

theorem Xlen.trunc_of_lt (x : Xlen) (v : Word) (h : v.toNat < 2 ^ 32) : x.trunc v = v := by
  rw [Xlen.trunc_eq_self_iff]
  cases x <;> simp only [Xlen.bits] <;> omega

/-- Any part of a value of XLEN bits is one. -/
theorem Xlen.trunc_and_left (x : Xlen) {v : Word} (w : Word) (h : x.trunc v = v) : x.trunc (v &&& w) = v &&& w := by
  rw [Xlen.trunc_eq_self_iff_bits] at h ⊢
  intro i hi
  simp [BitVec.getLsbD_and, h i hi]

theorem Xlen.trunc_and_right (x : Xlen) {v : Word} (w : Word) (h : x.trunc v = v) : x.trunc (w &&& v) = w &&& v := by
  rw [BitVec.and_comm]
  exact x.trunc_and_left w h

theorem Xlen.trunc_or (x : Xlen) {v w : Word} (hv : x.trunc v = v) (hw : x.trunc w = w) :
    x.trunc (v ||| w) = v ||| w := by
  rw [Xlen.trunc_eq_self_iff_bits] at *
  intro i hi
  simp [BitVec.getLsbD_or, hv i hi, hw i hi]

@[simp] theorem Xlen.trunc_ones (x : Xlen) : x.trunc x.ones = x.ones := by simp [Xlen.ones]

@[simp] theorem Xlen.trunc_topBit (x : Xlen) : x.trunc x.topBit = x.topBit := by cases x <;> rfl

theorem Xlen.toNat_ones (x : Xlen) : x.ones.toNat = 2 ^ x.bits - 1 := by cases x <;> decide

/-- Bit XLEN-1 alone. -/
theorem Xlen.getLsbD_topBit (x : Xlen) (i : Nat) : x.topBit.getLsbD i = decide (i = x.bits - 1) := by
  by_cases h : i < 64
  · cases x
    · exact (by decide : ∀ j : Fin 64, (Xlen.rv32.topBit).getLsbD j.val = decide (j.val = 31)) ⟨i, h⟩
    · exact (by decide : ∀ j : Fin 64, (Xlen.rv64.topBit).getLsbD j.val = decide (j.val = 63)) ⟨i, h⟩
  · rw [BitVec.getLsbD_of_ge _ i (by omega)]
    cases x
    · exact (decide_eq_false (by simp only [Xlen.bits]; omega)).symm
    · exact (decide_eq_false (by simp only [Xlen.bits]; omega)).symm

theorem Xlen.getLsbD_ones (x : Xlen) (i : Nat) : x.ones.getLsbD i = decide (i < x.bits) := by
  have := x.bits_le
  rw [Xlen.ones, x.getLsbD_trunc, BitVec.getLsbD_allOnes]
  by_cases h : i < x.bits
  · rw [decide_eq_true h, decide_eq_true (by omega : i < 64)]
    rfl
  · rw [decide_eq_false h, Bool.false_and]

/-- A value of XLEN bits under the all-ones mask is itself. -/
theorem Xlen.and_ones (x : Xlen) {v : Word} (h : x.trunc v = v) : v &&& x.ones = v := by
  rw [Xlen.trunc_eq_self_iff_bits] at h
  refine BitVec.eq_of_getLsbD_eq fun i _ => ?_
  rw [BitVec.getLsbD_and, x.getLsbD_ones]
  by_cases hi : i < x.bits
  · simp [hi]
  · simp [hi, h i (by omega)]

theorem Xlen.and_not_ones (x : Xlen) {v : Word} (h : x.trunc v = v) : v &&& ~~~x.ones = 0 := by
  rw [Xlen.trunc_eq_self_iff_bits] at h
  refine BitVec.eq_of_getLsbD_eq fun i hi => ?_
  rw [BitVec.getLsbD_and, BitVec.getLsbD_not, x.getLsbD_ones]
  by_cases hx : i < x.bits
  · simp [hx]
  · simp [hx, h i (by omega)]

end Sys2Proof
end

