-- ==== Sys2Proof/Laws/Registers.lean ====
section
/-! SUPPORT. The register files: what a read after a write gives, and the values a write keeps inside XLEN bits. -/

namespace Sys2Proof.Machine

/-- x0 reads 0 (10_state.md R32). -/
@[simp] theorem State.readX_zero (s : State) : s.readX 0#5 = 0#64 := rfl

theorem State.readX_of_ne (s : State) (i : RegIdx) (hi : i ≠ 0#5) (h : i.toNat - 1 < 31) :
    s.readX i = s.x[i.toNat - 1] := by
  unfold State.readX
  exact dif_neg hi

/-- A write of x0 is discarded (10_state.md R32). -/
@[simp] theorem State.writeX_zero (s : State) (v : Word) : s.writeX 0#5 v = s := rfl

theorem State.writeX_of_ne (s : State) (i : RegIdx) (v : Word) (hi : i ≠ 0#5) (h : i.toNat - 1 < 31) :
    s.writeX i v = { s with x := s.x.set (i.toNat - 1) v } := by
  unfold State.writeX
  exact dif_neg hi

theorem RegIdx.toNat_ne_zero {i : RegIdx} (hi : i ≠ 0#5) : i.toNat ≠ 0 := fun h => hi (BitVec.eq_of_toNat_eq (by simpa using h))

/-- A read after a write: the written value at that register unless it is x0, the old value everywhere else. -/
theorem State.readX_writeX (s : State) (i j : RegIdx) (v : Word) :
    (s.writeX i v).readX j = if j = i ∧ i ≠ 0#5 then v else s.readX j := by
  have hi := i.isLt
  have hj := j.isLt
  by_cases h0 : i = 0#5
  · subst h0
    simp
  · rw [s.writeX_of_ne i v h0 (by omega)]
    by_cases hj0 : j = 0#5
    · subst hj0
      simp only [State.readX_zero, eq_comm (a := 0#5), h0, false_and, if_false]
    · rw [State.readX_of_ne _ j hj0 (by omega), State.readX_of_ne _ j hj0 (by omega)]
      have := RegIdx.toNat_ne_zero h0
      have := RegIdx.toNat_ne_zero hj0
      simp only [Vector.getElem_set]
      by_cases e : j = i
      · subst e
        simp [h0]
      · have : i.toNat ≠ j.toNat := fun h => e (BitVec.eq_of_toNat_eq h.symm)
        simp [e, show ¬ i.toNat - 1 = j.toNat - 1 by omega]

/-- A register reads what the file holds: states with the same file read the same. -/
theorem State.readX_congr {s t : State} (h : t.x = s.x) (i : RegIdx) : t.readX i = s.readX i := by
  unfold State.readX
  simp only [h]

@[simp] theorem State.readX_respond (s : State) (r : Response) (i : RegIdx) : (s.respond r).readX i = s.readX i := rfl

/-- Two files that read the same are the same. -/
theorem State.x_eq_of_readX {s t : State} (h : ∀ i : RegIdx, i ≠ 0#5 → t.readX i = s.readX i) : t.x = s.x := by
  refine Vector.ext fun k hk => ?_
  have hne : BitVec.ofNat 5 (k + 1) ≠ 0#5 := by
    intro e
    have := congrArg BitVec.toNat e
    simp at this
    omega
  have ht : (BitVec.ofNat 5 (k + 1)).toNat = k + 1 := by simp; omega
  have := h (BitVec.ofNat 5 (k + 1)) hne
  rw [State.readX_of_ne _ _ hne (by omega), State.readX_of_ne _ _ hne (by omega)] at this
  simpa [ht] using this

/-- A write of a value of XLEN bits keeps every register inside XLEN bits. -/
theorem State.fits_readX_writeX {s : State} (hs : ∀ i : RegIdx, s.tr (s.readX i) = s.readX i) (i : RegIdx) {v : Word}
    (hv : s.tr v = v) (j : RegIdx) : (s.writeX i v).tr ((s.writeX i v).readX j) = (s.writeX i v).readX j := by
  unfold State.tr at *
  rw [State.writeX_cfg, State.readX_writeX]
  split
  · exact hv
  · exact hs j

end Sys2Proof.Machine
end

