-- ==== Sys2Proof/Laws/Csr.lean ====
section
/-! SUPPORT. The CSR access: what a successful one went through, what it can change, and that it keeps the invariant. -/

namespace Sys2Proof.Machine

@[simp] theorem mergeMask_zero (old nv : Word) : mergeMask old nv 0#64 = old := by
  refine BitVec.eq_of_getLsbD_eq fun i hi => ?_
  simp only [mergeMask, BitVec.getLsbD_or, BitVec.getLsbD_and, BitVec.getLsbD_not, BitVec.getLsbD_zero, hi]
  simp

@[simp] theorem mergeMip_zero (s : State) (nv : Word) : s.mergeMip nv 0#64 = s := by
  have : mergeMask s.mip nv 0#64 = s.mip := mergeMask_zero _ _
  unfold mergeMask at this
  unfold State.mergeMip
  rw [this]

/-- A successful access, taken apart (41_csr_dispatch.md R200). -/
theorem csrAccess_cases {s s' : State} {i : CsrIdx} {nv m old : Word} (h : s.csrAccess i nv m = some (old, s')) :
    ∃ d, s.cfg.csrTable.lookup i = some d ∧ s.csrAllowed i m d = true ∧
      ((∃ r, d.rmw = some r ∧ rmwCsr s i r nv m = some (old, s')) ∨
        (d.rmw = none ∧ ∃ r, d.read = some r ∧ readCsr s i r = some old ∧
          ((m = 0 ∧ s' = s) ∨
            (m ≠ 0 ∧ ∃ w, d.write = some w ∧ writeCsr s i w (mergeMask old nv m) = some s')))) := by
  unfold State.csrAccess State.descriptor at h
  split at h
  · cases h
  · rename_i d hd
    split at h
    · rename_i ha
      refine ⟨d, hd, ha, ?_⟩
      split at h
      · rename_i r hr
        exact .inl ⟨r, hr, h⟩
      · rename_i hr
        refine .inr ⟨hr, ?_⟩
        unfold State.csrSeparate at h
        split at h
        · cases h
        · rename_i r hread
          split at h
          · cases h
          · rename_i v hv
            split at h
            · rename_i hm
              obtain ⟨rfl, rfl⟩ := Prod.mk.injEq _ _ _ _ ▸ Option.some.inj h
              exact ⟨r, hread, hv, .inl ⟨hm, rfl⟩⟩
            · rename_i hm
              split at h
              · cases h
              · rename_i w hw
                obtain ⟨t, ht, he⟩ := Option.map_eq_some_iff.mp h
                obtain ⟨rfl, rfl⟩ := Prod.mk.injEq _ _ _ _ ▸ he
                exact ⟨r, hread, hv, .inr ⟨hm, w, hw, ht⟩⟩
    · cases h

/-- With mask 0 an access changes nothing (41_csr_dispatch.md R207, R211 (b)). -/
theorem csrAccess_zero_mask {s s' : State} {i : CsrIdx} {nv old : Word} (h : s.csrAccess i nv 0 = some (old, s')) :
    s' = s := by
  obtain ⟨d, -, -, ⟨r, -, hr⟩ | ⟨-, r, -, -, ⟨-, rfl⟩ | ⟨hm, -⟩⟩⟩ := csrAccess_cases h
  · cases r with
    | added k =>
      obtain ⟨o, -, e⟩ := Option.map_eq_some_iff.mp hr
      exact (Prod.mk.inj e).2.symm
    | fails => cases hr
    | mip => simp_all [rmwCsr]
    | sip => simp_all [rmwCsr]
  · rfl
  · exact absurd rfl hm

/-- With mask 0 the new value does not matter. -/
theorem csrAccess_zero_mask_eq (s : State) (i : CsrIdx) (nv : Word) : s.csrAccess i nv 0 = s.csrAccess i 0 0 := by
  unfold State.csrAccess State.csrSeparate
  split
  · rfl
  · split
    · split
      · rename_i r _
        cases r <;> simp [rmwCsr]
      · split
        · rfl
        · split <;> simp
    · rfl

/-! ### `State.install`: the fields an added handler cannot change (log entry 12) -/

@[simp] theorem State.install_cfg (s t : State) : (s.install t).cfg = s.cfg := rfl
@[simp] theorem State.install_pc (s t : State) : (s.install t).pc = s.pc := rfl
@[simp] theorem State.install_priv (s t : State) : (s.install t).priv = s.priv := rfl
@[simp] theorem State.install_misa (s t : State) : (s.install t).misa = s.misa := rfl
@[simp] theorem State.install_features (s t : State) : (s.install t).features = s.features := rfl
@[simp] theorem State.install_blocked (s t : State) : (s.install t).blocked = s.blocked := rfl
@[simp] theorem State.install_altstack (s t : State) : (s.install t).altstack = s.altstack := rfl
@[simp] theorem State.install_mem (s t : State) : (s.install t).mem = s.mem := rfl
@[simp] theorem State.install_ops (s t : State) : (s.install t).ops = s.ops := rfl
@[simp] theorem State.install_resp (s t : State) : (s.install t).resp = s.resp := rfl
@[simp] theorem State.install_inbox (s t : State) : (s.install t).inbox = s.inbox := rfl

@[simp] theorem State.install_vl (s t : State) : (s.install t).vec.vl = s.vec.vl := by
  unfold State.install
  split <;> rfl

@[simp] theorem State.install_vtype (s t : State) : (s.install t).vec.vtype = s.vec.vtype := by
  unfold State.install
  split <;> rfl

/-- The vector overlay is absent without V (10_state.md R58). -/
theorem State.install_vec_inactive {s : State} (h : s.vActive = false) (t : State) : (s.install t).vec = s.vec := by
  simp [State.install, h]

/-- The registers of S are absent without S (10_state.md R45, R50). -/
theorem State.install_no_s {s : State} (h : misaHas s.misa Ext.S = false) (t : State) :
    (s.install t).medeleg = s.medeleg ∧ (s.install t).mideleg = s.mideleg ∧ (s.install t).stvec = s.stvec ∧
    (s.install t).sepc = s.sepc ∧ (s.install t).scause = s.scause ∧ (s.install t).stval = s.stval := by
  simp [State.install, h]

/-- What an added handler can change at all (41_csr_dispatch.md R211 (c)). -/
theorem State.install_frame (s t : State) :
    s.install t = { s with
      x := (s.install t).x, f := (s.install t).f
      fflags := (s.install t).fflags, frm := (s.install t).frm, mstatus := (s.install t).mstatus
      mie := (s.install t).mie, mip := (s.install t).mip, medeleg := (s.install t).medeleg
      mideleg := (s.install t).mideleg, mtvec := (s.install t).mtvec, mepc := (s.install t).mepc
      mcause := (s.install t).mcause, mtval := (s.install t).mtval
      stvec := (s.install t).stvec, sepc := (s.install t).sepc, scause := (s.install t).scause
      stval := (s.install t).stval
      vec := { s.vec with
        vr := (s.install t).vec.vr, vstart := (s.install t).vec.vstart, vxsat := (s.install t).vec.vxsat
        vxrm := (s.install t).vec.vxrm } } := by
  unfold State.install
  split <;> rfl

/-- The baseline's handlers that write, and the field group they may change (41_csr_dispatch.md R216 to R231). -/
theorem writeCsr_frame {s s' : State} {i : CsrIdx} {w : CsrWrite} {v : Word} (hw : ∀ k, w ≠ .added k)
    (h : writeCsr s i w v = some s') :
    s' = { s with
      fflags := s'.fflags, frm := s'.frm, mstatus := s'.mstatus, mie := s'.mie, medeleg := s'.medeleg
      mideleg := s'.mideleg, mtvec := s'.mtvec, mepc := s'.mepc, mcause := s'.mcause, mtval := s'.mtval
      stvec := s'.stvec, sepc := s'.sepc, scause := s'.scause, stval := s'.stval
      vec := { s.vec with vstart := s'.vec.vstart, vxsat := s'.vec.vxsat, vxrm := s'.vec.vxrm } } := by
  cases w <;> try exact absurd rfl (hw _)
  all_goals simp only [writeCsr, Option.some.injEq, reduceCtorEq] at h
  all_goals subst h
  all_goals try rfl
  unfold State.installFcsr State.dirtyFs
  split <;> rfl

/-- What an access can change, whatever the table (41_csr_dispatch.md R211 (c), log entry 12). -/
theorem csrAccess_frame {s s' : State} {i : CsrIdx} {nv m old : Word} (h : s.csrAccess i nv m = some (old, s')) :
    s' = { s with
      x := s'.x, f := s'.f
      fflags := s'.fflags, frm := s'.frm, mstatus := s'.mstatus, mie := s'.mie, mip := s'.mip, medeleg := s'.medeleg
      mideleg := s'.mideleg, mtvec := s'.mtvec, mepc := s'.mepc, mcause := s'.mcause, mtval := s'.mtval
      stvec := s'.stvec, sepc := s'.sepc, scause := s'.scause, stval := s'.stval
      vec := { s.vec with
        vr := s'.vec.vr, vstart := s'.vec.vstart, vxsat := s'.vec.vxsat, vxrm := s'.vec.vxrm } } := by
  obtain ⟨d, -, -, ⟨r, -, hr⟩ | ⟨-, r, -, -, ⟨-, rfl⟩ | ⟨-, w, -, hw⟩⟩⟩ := csrAccess_cases h
  · cases r with
    | added k =>
      obtain ⟨⟨o, t⟩, -, e⟩ := Option.map_eq_some_iff.mp hr
      obtain ⟨-, rfl⟩ := Prod.mk.inj e
      split
      · rfl
      · exact s.install_frame t
    | fails => cases hr
    | mip => cases hr; rfl
    | sip => cases hr; rfl
  · rfl
  · by_cases hk : ∃ k, w = .added k
    · obtain ⟨k, rfl⟩ := hk
      obtain ⟨t, -, rfl⟩ := Option.map_eq_some_iff.mp hw
      exact s.install_frame t
    · have hf := writeCsr_frame (fun k e => hk ⟨k, e⟩) hw
      rw [hf]

/-- Under a descriptor without an added write or combined handler an access leaves the register files alone as well. -/
theorem csrAccess_frame_baseline {s s' : State} {i : CsrIdx} {nv m old : Word}
    (hd : ∀ d k, s.cfg.csrTable.lookup i = some d → d.write ≠ some (.added k) ∧ d.rmw ≠ some (.added k))
    (h : s.csrAccess i nv m = some (old, s')) : s'.x = s.x ∧ s'.f = s.f ∧ s'.vec.vr = s.vec.vr := by
  obtain ⟨d, hl, -, ⟨r, hr', hr⟩ | ⟨-, r, -, -, ⟨-, rfl⟩ | ⟨-, w, hw', hw⟩⟩⟩ := csrAccess_cases h
  · cases r with
    | added k => exact absurd hr' (hd d k hl).2
    | fails => cases hr
    | mip => cases hr; exact ⟨rfl, rfl, rfl⟩
    | sip => cases hr; exact ⟨rfl, rfl, rfl⟩
  · exact ⟨rfl, rfl, rfl⟩
  · rw [writeCsr_frame (fun k e => (hd d k hl).1 (e ▸ hw')) hw]
    exact ⟨rfl, rfl, rfl⟩

/-! ### When a handler fails (41_csr_dispatch.md R210) -/

theorem readCsr_eq_none {s : State} {i : CsrIdx} {r : CsrRead} (h : readCsr s i r = none) :
    r = .fails ∨ ∃ k, r = .added k := by
  cases r <;> simp_all [readCsr]

theorem writeCsr_eq_none {s : State} {i : CsrIdx} {w : CsrWrite} {v : Word} (h : writeCsr s i w v = none) :
    w = .fails ∨ ∃ k, w = .added k := by
  cases w <;> simp_all [writeCsr]

theorem rmwCsr_eq_none {s : State} {i : CsrIdx} {r : CsrRmw} {nv m : Word} (h : rmwCsr s i r nv m = none) :
    r = .fails ∨ ∃ k, r = .added k := by
  cases r <;> simp_all [rmwCsr]

/-! ### The operand ports do not matter to an access: it depends on the block and its arguments alone (R200) -/

theorem predHolds_withOps (s : State) (o : Operands) (i : CsrIdx) (p : CsrPred) :
    predHolds { s with ops := o } i p = predHolds s i p := by
  cases p <;> rfl

theorem readCsr_withOps (s : State) (o : Operands) (i : CsrIdx) (r : CsrRead) :
    readCsr { s with ops := o } i r = readCsr s i r := by
  cases r <;> rfl

theorem writeCsr_withOps (s : State) (o : Operands) (i : CsrIdx) (w : CsrWrite) (v : Word) :
    writeCsr { s with ops := o } i w v = (writeCsr s i w v).map fun t => { t with ops := o } := by
  cases w <;> try rfl
  rename_i k
  show (addedWrite k s.block i v).map _ = _
  simp only [writeCsr]
  cases addedWrite k s.block i v <;> rfl

theorem rmwCsr_withOps (s : State) (o : Operands) (i : CsrIdx) (r : CsrRmw) (nv m : Word) :
    rmwCsr { s with ops := o } i r nv m = (rmwCsr s i r nv m).map fun t => (t.1, { t.2 with ops := o }) := by
  cases r <;> try rfl
  rename_i k
  show (addedRmw k s.block i (nv &&& m) m).map _ = _
  simp only [rmwCsr]
  cases addedRmw k s.block i (nv &&& m) m
  · rfl
  · simp only [Option.map_some]
    split <;> rfl

theorem csrAccess_withOps (s : State) (o : Operands) (i : CsrIdx) (nv m : Word) :
    State.csrAccess { s with ops := o } i nv m = (s.csrAccess i nv m).map fun t => (t.1, { t.2 with ops := o }) := by
  unfold State.csrAccess
  show (match s.descriptor i with | none => _ | some d => _) = _
  cases s.descriptor i with
  | none => rfl
  | some d =>
    have ha : State.csrAllowed { s with ops := o } i m d = s.csrAllowed i m d := by
      unfold State.csrAllowed available
      cases d.pred <;> simp [predHolds_withOps]
    simp only [ha]
    split
    · split
      · exact rmwCsr_withOps _ _ _ _ _ _
      · unfold State.csrSeparate
        split
        · rfl
        · simp only [readCsr_withOps]
          split
          · rfl
          · split
            · rfl
            · split
              · rfl
              · rw [writeCsr_withOps]
                simp only [Option.map_map]
                rfl
    · rfl

/-- The predicate of the descriptor holds in an allowed access (41_csr_dispatch.md R205). -/
theorem predHolds_of_csrAllowed {s : State} {i : CsrIdx} {m : Word} {d : CsrDescriptor} {p : CsrPred}
    (h : s.csrAllowed i m d = true) (hp : d.pred = some p) : predHolds s i p = true := by
  simp only [State.csrAllowed, available, hp, Bool.and_eq_true] at h
  exact h.2

/-- In a well-formed table the predicate a handler needs holds when the access is allowed (log entry 16). -/
theorem predHolds_guard {s : State} {i : CsrIdx} {m : Word} {d : CsrDescriptor} {g : CsrPred}
    (h : s.csrAllowed i m d = true) (hg : d.guardOk g = true) : predHolds s i g = true := by
  simp only [CsrDescriptor.guardOk, Bool.or_eq_true, beq_iff_eq] at hg
  rcases hg with rfl | hg
  · rfl
  · exact predHolds_of_csrAllowed h hg

/-- A descriptor of a well-formed table is well-formed. -/
theorem wf_of_lookup {c : Config} (hc : c.csrTableOk = true) {i : CsrIdx} {d : CsrDescriptor}
    (h : c.csrTable.lookup i = some d) : d.wf = true := by
  simp only [Config.csrTableOk, Bool.and_eq_true, List.all_eq_true] at hc
  obtain ⟨l₁, l₂, e, -⟩ := List.lookup_eq_some_iff.mp h
  exact hc.2 (i, d) (by simp [e])

end Sys2Proof.Machine
end

