-- ==== Sys2Proof/Laws/Decode.lean ====
section
/-! SUPPORT. The fields of a built word are those it was built from, and a word is built from its fields. -/

namespace Sys2Proof

/-- A command word bit by bit (30_encoding.md R132). -/
theorem getLsbD_commandWord (op : BitVec 5) (r : RegIdx) (c : CsrIdx) (l : BitVec 2) (a : BitVec 8) (i : Nat) :
    (commandWord op r c l a).getLsbD i =
      if i < 5 then op.getLsbD i else if i < 10 then r.getLsbD (i - 5) else if i < 22 then c.getLsbD (i - 10)
      else if i < 24 then l.getLsbD (i - 22) else a.getLsbD (i - 24) := by
  have h : ∀ z : BitVec (8 + (2 + (12 + (5 + 5)))), z = a ++ (l ++ (c ++ (r ++ op))) → z.getLsbD i =
      if i < 5 then op.getLsbD i else if i < 10 then r.getLsbD (i - 5) else if i < 22 then c.getLsbD (i - 10)
      else if i < 24 then l.getLsbD (i - 22) else a.getLsbD (i - 24) := by
    rintro _ rfl
    simp only [BitVec.getLsbD_append]
    split_ifs <;> first | rfl | omega
  exact h (commandWord op r c l a) rfl

/-- A SYSTEM word bit by bit (30_encoding.md R141). -/
theorem getLsbD_systemWord (c : CsrIdx) (r : RegIdx) (f : BitVec 3) (d : RegIdx) (i : Nat) :
    (systemWord c r f d).getLsbD i =
      if i < 7 then (0b1110011#7).getLsbD i else if i < 12 then d.getLsbD (i - 7) else if i < 15 then f.getLsbD (i - 12)
      else if i < 20 then r.getLsbD (i - 15) else c.getLsbD (i - 20) := by
  have h : ∀ z : BitVec (12 + (5 + (3 + (5 + 7)))), z = c ++ (r ++ (f ++ (d ++ 0b1110011#7))) → z.getLsbD i =
      if i < 7 then (0b1110011#7).getLsbD i else if i < 12 then d.getLsbD (i - 7) else if i < 15 then f.getLsbD (i - 12)
      else if i < 20 then r.getLsbD (i - 15) else c.getLsbD (i - 20) := by
    rintro _ rfl
    simp only [BitVec.getLsbD_append]
    split_ifs <;> first | rfl | omega
  exact h (systemWord c r f d) rfl

@[simp] theorem opField_commandWord (op : BitVec 5) (r : RegIdx) (c : CsrIdx) (l : BitVec 2) (a : BitVec 8) :
    opField (commandWord op r c l a) = op := by
  refine BitVec.eq_of_getLsbD_eq fun i hi => ?_
  simp only [opField, BitVec.getLsbD_extractLsb', getLsbD_commandWord, hi, decide_true, Bool.true_and]
  split_ifs <;> first | omega | (congr 1; omega)

@[simp] theorem ridxField_commandWord (op : BitVec 5) (r : RegIdx) (c : CsrIdx) (l : BitVec 2) (a : BitVec 8) :
    ridxField (commandWord op r c l a) = r := by
  refine BitVec.eq_of_getLsbD_eq fun i hi => ?_
  simp only [ridxField, BitVec.getLsbD_extractLsb', getLsbD_commandWord, hi, decide_true, Bool.true_and]
  split_ifs <;> first | omega | (congr 1; omega)

@[simp] theorem csrField_commandWord (op : BitVec 5) (r : RegIdx) (c : CsrIdx) (l : BitVec 2) (a : BitVec 8) :
    csrField (commandWord op r c l a) = c := by
  refine BitVec.eq_of_getLsbD_eq fun i hi => ?_
  simp only [csrField, BitVec.getLsbD_extractLsb', getLsbD_commandWord, hi, decide_true, Bool.true_and]
  split_ifs <;> first | omega | (congr 1; omega)

@[simp] theorem lvlField_commandWord (op : BitVec 5) (r : RegIdx) (c : CsrIdx) (l : BitVec 2) (a : BitVec 8) :
    lvlField (commandWord op r c l a) = l := by
  refine BitVec.eq_of_getLsbD_eq fun i hi => ?_
  simp only [lvlField, BitVec.getLsbD_extractLsb', getLsbD_commandWord, hi, decide_true, Bool.true_and]
  split_ifs <;> first | omega | (congr 1; omega)

@[simp] theorem argField_commandWord (op : BitVec 5) (r : RegIdx) (c : CsrIdx) (l : BitVec 2) (a : BitVec 8) :
    argField (commandWord op r c l a) = a := by
  refine BitVec.eq_of_getLsbD_eq fun i hi => ?_
  simp only [argField, BitVec.getLsbD_extractLsb', getLsbD_commandWord, hi, decide_true, Bool.true_and]
  split_ifs <;> first | omega | (congr 1; omega)

@[simp] theorem opcodeField_systemWord (c : CsrIdx) (r : RegIdx) (f : BitVec 3) (d : RegIdx) :
    opcodeField (systemWord c r f d) = 0b1110011#7 := by
  refine BitVec.eq_of_getLsbD_eq fun i hi => ?_
  simp only [opcodeField, BitVec.getLsbD_extractLsb', getLsbD_systemWord, hi, decide_true, Bool.true_and]
  split_ifs <;> first | omega | (congr 1; omega)

@[simp] theorem rdField_systemWord (c : CsrIdx) (r : RegIdx) (f : BitVec 3) (d : RegIdx) :
    rdField (systemWord c r f d) = d := by
  refine BitVec.eq_of_getLsbD_eq fun i hi => ?_
  simp only [rdField, BitVec.getLsbD_extractLsb', getLsbD_systemWord, hi, decide_true, Bool.true_and]
  split_ifs <;> first | omega | (congr 1; omega)

@[simp] theorem funct3Field_systemWord (c : CsrIdx) (r : RegIdx) (f : BitVec 3) (d : RegIdx) :
    funct3Field (systemWord c r f d) = f := by
  refine BitVec.eq_of_getLsbD_eq fun i hi => ?_
  simp only [funct3Field, BitVec.getLsbD_extractLsb', getLsbD_systemWord, hi, decide_true, Bool.true_and]
  split_ifs <;> first | omega | (congr 1; omega)

@[simp] theorem rs1Field_systemWord (c : CsrIdx) (r : RegIdx) (f : BitVec 3) (d : RegIdx) :
    rs1Field (systemWord c r f d) = r := by
  refine BitVec.eq_of_getLsbD_eq fun i hi => ?_
  simp only [rs1Field, BitVec.getLsbD_extractLsb', getLsbD_systemWord, hi, decide_true, Bool.true_and]
  split_ifs <;> first | omega | (congr 1; omega)

@[simp] theorem immField_systemWord (c : CsrIdx) (r : RegIdx) (f : BitVec 3) (d : RegIdx) :
    immField (systemWord c r f d) = c := by
  refine BitVec.eq_of_getLsbD_eq fun i hi => ?_
  simp only [immField, BitVec.getLsbD_extractLsb', getLsbD_systemWord, hi, decide_true, Bool.true_and]
  split_ifs <;> first | omega | (congr 1; omega)

/-- Two words whose fields agree agree (30_encoding.md R132). -/
theorem eq_of_commandFields {w v : BitVec 32} (ho : opField w = opField v) (hr : ridxField w = ridxField v)
    (hc : csrField w = csrField v) (hl : lvlField w = lvlField v) (ha : argField w = argField v) : w = v := by
  refine BitVec.eq_of_getLsbD_eq fun i hi => ?_
  have bit : ∀ {lo n : Nat}, w.extractLsb' lo n = v.extractLsb' lo n → lo ≤ i → i < lo + n →
      w.getLsbD i = v.getLsbD i := by
    intro lo n h h₁ h₂
    have := congrArg (BitVec.getLsbD · (i - lo)) h
    simpa [BitVec.getLsbD_extractLsb', show i - lo < n by omega, show lo + (i - lo) = i by omega] using this
  by_cases h5 : i < 5; · exact bit ho (by omega) (by omega)
  by_cases h10 : i < 10; · exact bit hr (by omega) (by omega)
  by_cases h22 : i < 22; · exact bit hc (by omega) (by omega)
  by_cases h24 : i < 24; · exact bit hl (by omega) (by omega)
  exact bit ha (by omega) (by omega)

/-- Two guest words whose fields agree agree (30_encoding.md R141). -/
theorem eq_of_systemFields {w v : BitVec 32} (ho : opcodeField w = opcodeField v) (hd : rdField w = rdField v)
    (hf : funct3Field w = funct3Field v) (hr : rs1Field w = rs1Field v) (hc : immField w = immField v) : w = v := by
  refine BitVec.eq_of_getLsbD_eq fun i hi => ?_
  have bit : ∀ {lo n : Nat}, w.extractLsb' lo n = v.extractLsb' lo n → lo ≤ i → i < lo + n →
      w.getLsbD i = v.getLsbD i := by
    intro lo n h h₁ h₂
    have := congrArg (BitVec.getLsbD · (i - lo)) h
    simpa [BitVec.getLsbD_extractLsb', show i - lo < n by omega, show lo + (i - lo) = i by omega] using this
  by_cases h7 : i < 7; · exact bit ho (by omega) (by omega)
  by_cases h12 : i < 12; · exact bit hd (by omega) (by omega)
  by_cases h15 : i < 15; · exact bit hf (by omega) (by omega)
  by_cases h20 : i < 20; · exact bit hr (by omega) (by omega)
  exact bit hc (by omega) (by omega)

/-- A word is a trampoline word only if its funct3 is 0: no Zicsr word is one. -/
theorem systemWord_ne_tramp (c : CsrIdx) (r : RegIdx) (f : BitVec 3) (d : RegIdx) (h : f ≠ 0) :
    systemWord c r f d ≠ trampWord0 ∧ systemWord c r f d ≠ trampWord1 := by
  constructor <;> intro e <;> have := congrArg funct3Field e <;> rw [funct3Field_systemWord] at this <;> exact h (this.trans (by decide))

end Sys2Proof
end

