-- ==== Sys2Proof/Laws/Invariant.lean ====
section
/-! SUPPORT. The parts of the invariant: each depends on the fields it names alone, and the shared operations keep them. -/

namespace Sys2Proof.Machine

/-! ### What each part depends on -/

theorem State.ConfigInv.congr {s t : State} (h : s.ConfigInv) (hc : t.cfg = s.cfg := by rfl)
    (hm : t.misa = s.misa := by rfl) (hf : t.features = s.features := by rfl) : t.ConfigInv :=
  ⟨hc ▸ h.cfg_wf, by rw [hc, hm, h.misa], by rw [hc, hf, h.features]⟩

theorem State.PrivInv.congr {s t : State} (h : s.PrivInv) (hc : t.cfg = s.cfg := by rfl)
    (hm : t.misa = s.misa := by rfl) (hp : t.priv = s.priv := by rfl) (hs : t.mstatus = s.mstatus := by rfl) :
    t.PrivInv := by
  refine ⟨?_, ?_, ?_, ?_, ?_⟩ <;> simp only [hc, hm, hp, hs]
  exacts [h.priv_legal, h.mpp_legal, h.user_mode, h.no_s, h.no_fp]

theorem State.CsrInv.congr {s t : State} (h : s.CsrInv) (hm : t.misa = s.misa := by rfl)
    (h₁ : t.mie = s.mie := by rfl) (h₂ : t.mip = s.mip := by rfl) (h₃ : t.medeleg = s.medeleg := by rfl)
    (h₄ : t.mideleg = s.mideleg := by rfl) (h₅ : t.mtvec = s.mtvec := by rfl) (h₆ : t.stvec = s.stvec := by rfl)
    (h₇ : t.mepc = s.mepc := by rfl) (h₈ : t.sepc = s.sepc := by rfl) : t.CsrInv := by
  refine ⟨?_, ?_, ?_, ?_, ?_, ?_, ?_, ?_⟩ <;> simp only [hm, h₁, h₂, h₃, h₄, h₅, h₆, h₇, h₈]
  exacts [h.mie, h.mip, h.medeleg, h.mideleg, h.mtvec, h.stvec, h.mepc, h.sepc]

theorem State.WidthInv.congr {s t : State} (h : s.WidthInv) (hc : t.cfg = s.cfg := by rfl) (hx : t.x = s.x := by rfl)
    (hpc : t.pc = s.pc := by rfl) (h₁ : t.mtvec = s.mtvec := by rfl) (h₂ : t.mepc = s.mepc := by rfl)
    (h₃ : t.mcause = s.mcause := by rfl) (h₄ : t.mtval = s.mtval := by rfl) (h₅ : t.stvec = s.stvec := by rfl)
    (h₆ : t.sepc = s.sepc := by rfl) (h₇ : t.scause = s.scause := by rfl) (h₈ : t.stval = s.stval := by rfl)
    (hv : t.vec = s.vec := by rfl) (ha : t.altstack = s.altstack := by rfl) : t.WidthInv := by
  constructor
  case x =>
    intro i
    have := h.x i
    simpa only [State.Fits, State.tr, hc, State.readX_congr hx] using this
  all_goals simp only [State.Fits, State.tr, hc, hpc, h₁, h₂, h₃, h₄, h₅, h₆, h₇, h₈, hv, ha]
  exacts [h.pc, h.mtvec, h.mepc, h.mcause, h.mtval, h.stvec, h.sepc, h.scause, h.stval, h.vstart, h.vl, h.vtype,
    h.ssSp, h.ssSize]

/-- New registers, pc and vector state, the control registers and the alternate stack as they were. -/
theorem State.WidthInv.context {s t : State} (h : s.WidthInv) (hc : t.cfg = s.cfg) (h₁ : t.mtvec = s.mtvec)
    (h₂ : t.mepc = s.mepc) (h₃ : t.mcause = s.mcause) (h₄ : t.mtval = s.mtval) (h₅ : t.stvec = s.stvec)
    (h₆ : t.sepc = s.sepc) (h₇ : t.scause = s.scause) (h₈ : t.stval = s.stval) (ha : t.altstack = s.altstack)
    (hx : ∀ i : RegIdx, s.Fits (t.readX i)) (hpc : s.Fits t.pc) (hv : s.Fits t.vec.vstart) (hl : s.Fits t.vec.vl)
    (hy : s.Fits t.vec.vtype) : t.WidthInv := by
  constructor
  case x =>
    intro i
    have := hx i
    simpa only [State.Fits, State.tr, hc] using this
  all_goals simp only [State.Fits, State.tr, hc, h₁, h₂, h₃, h₄, h₅, h₆, h₇, h₈, ha]
  exacts [hpc, h.mtvec, h.mepc, h.mcause, h.mtval, h.stvec, h.sepc, h.scause, h.stval, hv, hl, hy, h.ssSp, h.ssSize]

theorem State.MemInv.congr {s t : State} (h : s.MemInv) (hc : t.cfg = s.cfg := by rfl)
    (hm : t.mem = s.mem := by rfl) : t.MemInv :=
  ⟨by rw [hm]; exact h.wf, by rw [hm, hc]; exact h.bound⟩

theorem State.AltInv.congr {s t : State} (h : s.AltInv) (ha : t.altstack = s.altstack := by rfl) : t.AltInv := by
  unfold State.AltInv at *
  rw [ha]
  exact h

/-- The ports are no part of the invariant. -/
theorem State.Inv.respond {s : State} (h : s.Inv) (r : Response) : (s.respond r).Inv :=
  ⟨h.config.congr, h.priv.congr, h.csr.congr, h.width.congr, h.mem.congr, h.alt.congr⟩

theorem State.Inv.accept {s : State} (h : s.Inv) (t : Transaction) (rest : List Transaction) :
    (s.accept t rest).Inv :=
  ⟨h.config.congr, h.priv.congr, h.csr.congr, h.width.congr, h.mem.congr, h.alt.congr⟩

/-! ### Facts of a well-formed configuration -/

theorem State.Inv.csrTableOk {s : State} (h : s.Inv) : s.cfg.csrTableOk = true := by
  have := h.config.cfg_wf
  simp only [Config.wf, Bool.and_eq_true] at this
  exact this.2

/-- With S there is U (log entry 16). -/
theorem State.Inv.u_of_s {s : State} (h : s.Inv) (hs : misaHas s.misa Ext.S = true) : misaHas s.misa Ext.U = true := by
  have := h.config.cfg_wf
  simp only [Config.wf, Bool.and_eq_true, Config.modesOk, Config.hasExt] at this
  rw [misaHas, h.config.misa] at *
  have hsu := this.1.1.1.2.1.1
  rw [hs] at hsu
  simpa using hsu

/-- misa is an XLEN-bit value (10_state.md R40). -/
theorem State.Inv.fits_misa {s : State} (h : s.Inv) : s.Fits s.misa := by
  have hw := h.config.cfg_wf
  simp only [Config.wf, Bool.and_eq_true, Config.misaOk] at hw
  have hm := hw.1.1.1.1
  unfold State.Fits State.tr
  rw [h.config.misa]
  cases hx : s.cfg.xlen with
  | rv64 => rfl
  | rv32 =>
    rw [hx] at hm
    rw [beq_iff_eq] at hm
    rw [hm]
    refine Xlen.trunc_or _ (by decide) (Xlen.trunc_and_right _ _ (by decide))

/-! ### Values of XLEN bits -/

theorem State.fits_of_lt (s : State) (v : Word) (h : v.toNat < 2 ^ 32) : s.Fits v := s.cfg.xlen.trunc_of_lt v h

theorem State.fits_setWidth (s : State) {n : Nat} (v : BitVec n) (h : n ≤ 32) : s.Fits (v.setWidth 64) := by
  refine s.fits_of_lt _ ?_
  rw [BitVec.toNat_setWidth]
  have h1 := v.isLt
  have h2 : 2 ^ n ≤ 2 ^ 32 := Nat.pow_le_pow_right (by decide) h
  exact (Nat.mod_le _ _).trans_lt (by omega)

theorem State.fits_flagBit (s : State) (b : Bool) (n : Nat) (h : n < 32) : s.Fits (flagBit b n) := by
  refine s.fits_of_lt _ ?_
  unfold flagBit
  split
  · rw [BitVec.toNat_shiftLeft]
    have : 2 ^ n < 2 ^ 32 := Nat.pow_lt_pow_right (by decide) h
    simp only [BitVec.toNat_ofNat, Nat.shiftLeft_eq]
    exact (Nat.mod_le _ _).trans_lt (by omega)
  · decide

/-- mstatus as a word is an XLEN-bit value. -/
theorem Mstatus.trunc_value (x : Xlen) (m : Mstatus) : x.trunc (m.value x) = m.value x := by
  have hf : ∀ b n, n < 32 → x.trunc (flagBit b n) = flagBit b n := fun b n h =>
    State.fits_flagBit { State.reset with cfg := { defaultConfig with xlen := x } } b n h
  have h2 : ∀ (v : BitVec 2) (n : Nat), n ≤ 13 → x.trunc (v.setWidth 64 <<< n) = v.setWidth 64 <<< n := by
    intro v n hn
    refine x.trunc_of_lt _ ?_
    rw [BitVec.toNat_shiftLeft, BitVec.toNat_setWidth, Nat.shiftLeft_eq]
    have h1 := v.isLt
    have h3 : 2 ^ n ≤ 2 ^ 13 := Nat.pow_le_pow_right (by decide) hn
    have : v.toNat % 2 ^ 64 * 2 ^ n ≤ 3 * 2 ^ 13 :=
      Nat.mul_le_mul ((Nat.mod_le _ _).trans (by omega)) h3
    exact (Nat.mod_le _ _).trans_lt (by omega)
  unfold Mstatus.value
  have htop : x.trunc (if m.fs = 3 then x.topBit else 0) = if m.fs = 3 then x.topBit else 0 := by
    split
    · exact x.trunc_topBit
    · exact x.trunc_zero
  repeat' first
    | exact htop
    | exact hf _ _ (by decide)
    | exact h2 _ _ (by decide)
    | refine x.trunc_or ?_ ?_

theorem State.fits_mstatusValue (s : State) : s.Fits s.mstatusValue := Mstatus.trunc_value _ _

/-- The composed value of a CSR write is an XLEN-bit value (41_csr_dispatch.md R207). -/
theorem State.fits_mergeMask {s : State} {old nv m : Word} (ho : s.Fits old) (hn : s.Fits nv) :
    s.Fits (mergeMask old nv m) :=
  s.cfg.xlen.trunc_or (s.cfg.xlen.trunc_and_left _ ho) (s.cfg.xlen.trunc_and_left _ hn)

theorem trunc_of_and_not {x : Xlen} {v mask : Word} (h : v &&& ~~~mask = 0) (hm : x.trunc mask = mask) :
    x.trunc v = v := by
  rw [Xlen.trunc_eq_self_iff_bits] at *
  intro i hi
  have := congrArg (BitVec.getLsbD · i) h
  by_cases h64 : i < 64
  · have hmi := hm i hi
    simp only [BitVec.getLsbD_and, BitVec.getLsbD_not, h64, hmi] at this
    simpa using this
  · exact BitVec.getLsbD_of_ge _ _ (by omega)

theorem trunc_implementedIrqs (x : Xlen) (misa : Word) : x.trunc (implementedIrqs misa) = implementedIrqs misa := by
  unfold implementedIrqs
  split <;> exact x.trunc_of_lt _ (by decide)

/-- What a read handler returns is an XLEN-bit value. -/
theorem fits_readCsr {s : State} (h : s.Inv) {i : CsrIdx} {r : CsrRead} {v : Word} (hv : readCsr s i r = some v) : s.Fits v := by
  have hx := s.cfg.xlen
  have hmie : s.Fits s.mie := trunc_of_and_not h.csr.mie (trunc_implementedIrqs _ _)
  have hmed : s.Fits s.medeleg := trunc_of_and_not h.csr.medeleg (Xlen.trunc_of_lt _ _ (by decide))
  have hmid : s.Fits s.mideleg := trunc_of_and_not h.csr.mideleg (Xlen.trunc_of_lt _ _ (by decide))
  by_cases hk : ∃ k, r = .added k
  · obtain ⟨k, rfl⟩ := hk
    obtain ⟨w, -, rfl⟩ := Option.map_eq_some_iff.mp hv
    exact Xlen.trunc_trunc _ _
  cases r <;> try exact absurd ⟨_, rfl⟩ hk
  all_goals simp only [readCsr, Option.some.injEq, reduceCtorEq] at hv
  all_goals subst hv
  case fflags => exact s.fits_setWidth _ (by decide)
  case frm => exact s.fits_setWidth _ (by decide)
  case fcsr => exact s.fits_setWidth _ (by decide)
  case vstart => exact h.width.vstart
  case vxsat => exact s.fits_setWidth _ (by decide)
  case vxrm => exact s.fits_setWidth _ (by decide)
  case vl => exact h.width.vl
  case vtype => exact h.width.vtype
  case sstatus => exact s.cfg.xlen.trunc_and_left _ s.fits_mstatusValue
  case sie => exact s.cfg.xlen.trunc_and_left _ hmie
  case stvec => exact h.width.stvec
  case sepc => exact h.width.sepc
  case scause => exact h.width.scause
  case stval => exact h.width.stval
  case mstatus => exact s.fits_mstatusValue
  case misa => exact h.fits_misa
  case medeleg => exact hmed
  case mideleg => exact hmid
  case mie => exact hmie
  case mtvec => exact h.width.mtvec
  case mepc => exact h.width.mepc
  case mcause => exact h.width.mcause
  case mtval => exact h.width.mtval
  case const v => exact Xlen.trunc_trunc _ _

end Sys2Proof.Machine
end

