-- ==== Sys2Proof/Laws/Keeps.lean ====
section
/-! SUPPORT. The shared operations that write control state keep the invariant: CSR writes, taking a trap, returning from
one, installing an alternate stack. -/

namespace Sys2Proof.Machine

theorem and_mask_and_not (v mask : Word) : v &&& mask &&& ~~~mask = 0 := by
  refine BitVec.eq_of_getLsbD_eq fun i hi => ?_
  simp only [BitVec.getLsbD_and, BitVec.getLsbD_not, hi]
  cases v.getLsbD i <;> cases mask.getLsbD i <;> simp

/-- Bits merged under a mask inside the implemented bits are implemented bits. -/
theorem merge_and_not {old nv m mask : Word} (ho : old &&& ~~~mask = 0) (hm : m &&& ~~~mask = 0) :
    ((old &&& ~~~m) ||| (nv &&& m)) &&& ~~~mask = 0 := by
  refine BitVec.eq_of_getLsbD_eq fun i hi => ?_
  have h1 := congrArg (BitVec.getLsbD · i) ho
  have h2 := congrArg (BitVec.getLsbD · i) hm
  simp only [BitVec.getLsbD_and, BitVec.getLsbD_or, BitVec.getLsbD_not, hi] at *
  cases h3 : mask.getLsbD i <;> simp_all

theorem tvecLegal_tvecWrite {old v : Word} (h : tvecLegal old = true) : tvecLegal (tvecWrite old v) = true := by
  unfold tvecWrite
  split
  · assumption
  · exact h

/-- A write of MPP leaves a legal privilege or the old value (10_state.md R43). -/
theorem legalMpp_cases (misa : Word) (old : Priv) (v : BitVec 2) :
    (legalMpp misa old v).legal misa = true ∨ legalMpp misa old v = old := by
  unfold legalMpp
  split
  · split
    · exact .inl (by assumption)
    · exact .inr rfl
  · exact .inr rfl

/-- A write of mstatus keeps the legal modes and the absent fields 0 (10_state.md R42, R43). -/
theorem State.PrivInv.writeMstatus {s : State} (h : s.PrivInv) (v : Word) : (s.writeMstatus v).PrivInv := by
  refine ⟨h.priv_legal, ?_, h.user_mode, ?_, ?_⟩
  · rcases legalMpp_cases s.misa s.mstatus.mpp (v.extractLsb' 11 2) with e | e
    · exact e
    · show (legalMpp _ _ _).legal _ = true
      rw [e]
      exact h.mpp_legal
  · intro hs
    have hs' : misaHas s.misa Ext.S = false := hs
    have := h.no_s hs'
    simpa [State.writeMstatus, Mstatus.write, hs'] using this
  · intro hf
    have hf' : misaFp s.misa = false := hf
    have := h.no_fp hf'
    simpa only [State.writeMstatus, Mstatus.write, hf', Bool.false_eq_true, if_false] using this

theorem State.Inv.writeMstatus {s : State} (h : s.Inv) (v : Word) : (s.writeMstatus v).Inv :=
  ⟨h.config.congr, h.priv.writeMstatus v, h.csr.congr, h.width.congr, h.mem.congr, h.alt.congr⟩

theorem State.Inv.writeMie {s : State} (h : s.Inv) (v : Word) : (s.writeMie v).Inv :=
  ⟨h.config.congr, h.priv.congr, ⟨and_mask_and_not _ _, h.csr.mip, h.csr.medeleg, h.csr.mideleg, h.csr.mtvec,
    h.csr.stvec, h.csr.mepc, h.csr.sepc⟩, h.width.congr, h.mem.congr, h.alt.congr⟩

/-- FS becomes Dirty only where there is floating point (41_csr_dispatch.md R214, R219). -/
theorem State.Inv.dirtyFs {s : State} (h : s.Inv) (hf : misaFp s.misa = true) : s.dirtyFs.Inv :=
  ⟨h.config.congr,
    ⟨h.priv.priv_legal, h.priv.mpp_legal, h.priv.user_mode, h.priv.no_s, fun e => by
      rw [State.dirtyFs_misa, hf] at e
      cases e⟩,
    h.csr.congr, h.width.congr, h.mem.congr, h.alt.congr⟩

/-- Installing the fields of fcsr touches none of the invariant's parts. -/
theorem State.Inv.installFcsr {s : State} (h : s.Inv) (v : BitVec 32) : (s.installFcsr v).Inv := by
  refine ⟨h.config.congr, h.priv.congr, h.csr.congr, ?_, h.mem.congr, h.alt.congr⟩
  refine ⟨h.width.x, h.width.pc, h.width.mtvec, h.width.mepc, h.width.mcause, h.width.mtval, h.width.stvec,
    h.width.sepc, h.width.scause, h.width.stval, ?_, ?_, ?_, h.width.ssSp, h.width.ssSize⟩
  all_goals simp only [State.installFcsr, State.Fits, State.tr]
  all_goals split
  exacts [h.width.vstart, h.width.vstart, h.width.vl, h.width.vl, h.width.vtype, h.width.vtype]

/-- What an added handler leaves meets the invariant, whatever it answered (41_csr_dispatch.md R211 (c)). -/
theorem State.Inv.install {s : State} (h : s.Inv) (t : State) : (s.install t).Inv := by
  obtain ⟨c, p, r, wd, m, a⟩ := h
  have tv : ∀ {old v : Word}, s.Fits old → s.Fits (tvecWrite old (s.tr v)) := fun ho => by
    unfold tvecWrite
    split
    exacts [Xlen.trunc_trunc _ _, ho]
  have ifS : ∀ {P : Word → Prop} {v w : Word}, P v → P w → P (if misaHas s.misa Ext.S then v else w) := fun hv hw => by
    split
    exacts [hv, hw]
  refine ⟨c.congr, (p.writeMstatus (t.mstatus.value s.cfg.xlen)).congr, ?_, ?_, m.congr, a.congr⟩
  · refine ⟨and_mask_and_not _ _, merge_and_not r.mip ?_, ?_, ?_, tvecLegal_tvecWrite r.mtvec, ?_, and_mask_and_not _ _, ?_⟩
    · show mipWritable s.misa &&& ~~~implementedIrqs s.misa = 0
      unfold mipWritable implementedIrqs
      split <;> decide
    · exact ifS (P := fun v => v &&& ~~~medelegMask = 0) (and_mask_and_not _ _) r.medeleg
    · exact ifS (P := fun v => v &&& ~~~midelegMask = 0) (and_mask_and_not _ _) r.mideleg
    · exact ifS (P := fun v => tvecLegal v = true) (tvecLegal_tvecWrite r.stvec) r.stvec
    · exact ifS (P := fun v => v &&& ~~~epcMask s.misa = 0) (and_mask_and_not _ _) r.sepc
  · constructor
    case x =>
      intro i
      show s.Fits ((s.install t).readX i)
      by_cases hi : i = 0
      · rw [State.readX, dif_pos hi]
        exact Xlen.trunc_zero _
      · rw [State.readX, dif_neg hi]
        show s.Fits ((t.x.map s.tr)[i.toNat - 1]'_)
        rw [Vector.getElem_map]
        exact Xlen.trunc_trunc _ _
    case pc => exact wd.pc
    case mtvec => exact tv wd.mtvec
    case mepc => exact s.cfg.xlen.trunc_and_left _ (Xlen.trunc_trunc _ _)
    case mcause => exact Xlen.trunc_trunc _ _
    case mtval => exact Xlen.trunc_trunc _ _
    case stvec => exact ifS (P := s.Fits) (tv wd.stvec) wd.stvec
    case sepc => exact ifS (P := s.Fits) (s.cfg.xlen.trunc_and_left _ (Xlen.trunc_trunc _ _)) wd.sepc
    case scause => exact ifS (P := s.Fits) (Xlen.trunc_trunc _ _) wd.scause
    case stval => exact ifS (P := s.Fits) (Xlen.trunc_trunc _ _) wd.stval
    case ssSp => exact wd.ssSp
    case ssSize => exact wd.ssSize
    all_goals simp only [State.install, State.Fits, State.tr]
    all_goals split
    exacts [Xlen.trunc_trunc _ _, wd.vstart, wd.vl, wd.vl, wd.vtype, wd.vtype]

/-- An allowed write of an XLEN-bit value keeps the invariant (41_csr_dispatch.md R216 to R231). -/
theorem inv_writeCsr {s s' : State} {i : CsrIdx} {w : CsrWrite} {v : Word} (h : s.Inv) (hv : s.Fits v)
    (hg : predHolds s i w.guard = true) (hw : writeCsr s i w v = some s') : s'.Inv := by
  have hfp : w.guard = .fp → misaFp s.misa = true := by
    intro e
    rw [e] at hg
    simp only [predHolds, Bool.and_eq_true] at hg
    exact hg.1
  obtain ⟨c, p, r, wd, m, a⟩ := h
  have hI : s.Inv := ⟨c, p, r, wd, m, a⟩
  by_cases hk : ∃ k, w = .added k
  · obtain ⟨k, rfl⟩ := hk
    obtain ⟨t, -, rfl⟩ := Option.map_eq_some_iff.mp hw
    exact hI.install t
  cases w <;> try exact absurd ⟨_, rfl⟩ hk
  all_goals simp only [writeCsr, Option.some.injEq, reduceCtorEq] at hw
  all_goals subst hw
  case fflags =>
    exact State.Inv.dirtyFs (s := { s with fflags := v.extractLsb' 0 5 })
      ⟨c.congr, p.congr, r.congr, wd.congr, m.congr, a.congr⟩ (hfp rfl)
  case frm =>
    exact State.Inv.dirtyFs (s := { s with frm := v.extractLsb' 0 3 })
      ⟨c.congr, p.congr, r.congr, wd.congr, m.congr, a.congr⟩ (hfp rfl)
  case fcsr => exact (hI.installFcsr _).dirtyFs (hfp rfl)
  case vstart => exact ⟨c.congr, p.congr, r.congr, { wd with vstart := hv }, m.congr, a.congr⟩
  case vxsat => exact ⟨c.congr, p.congr, r.congr, { wd with }, m.congr, a.congr⟩
  case vxrm => exact ⟨c.congr, p.congr, r.congr, { wd with }, m.congr, a.congr⟩
  case sstatus => exact hI.writeMstatus _
  case sie => exact hI.writeMie _
  case stvec =>
    refine ⟨c.congr, p.congr, { r with stvec := tvecLegal_tvecWrite r.stvec }, { wd with stvec := ?_ }, m.congr, a.congr⟩
    simp only [tvecWrite]
    split
    exacts [hv, wd.stvec]
  case sepc =>
    exact ⟨c.congr, p.congr, { r with sepc := and_mask_and_not _ _ },
      { wd with sepc := s.cfg.xlen.trunc_and_left _ hv }, m.congr, a.congr⟩
  case scause => exact ⟨c.congr, p.congr, r.congr, { wd with scause := hv }, m.congr, a.congr⟩
  case stval => exact ⟨c.congr, p.congr, r.congr, { wd with stval := hv }, m.congr, a.congr⟩
  case mstatus => exact hI.writeMstatus _
  case medeleg =>
    exact ⟨c.congr, p.congr, { r with medeleg := and_mask_and_not _ _ }, wd.congr, m.congr, a.congr⟩
  case mideleg =>
    exact ⟨c.congr, p.congr, { r with mideleg := and_mask_and_not _ _ }, wd.congr, m.congr, a.congr⟩
  case mie => exact hI.writeMie _
  case mtvec =>
    refine ⟨c.congr, p.congr, { r with mtvec := tvecLegal_tvecWrite r.mtvec }, { wd with mtvec := ?_ }, m.congr, a.congr⟩
    simp only [tvecWrite]
    split
    exacts [hv, wd.mtvec]
  case mepc =>
    exact ⟨c.congr, p.congr, { r with mepc := and_mask_and_not _ _ },
      { wd with mepc := s.cfg.xlen.trunc_and_left _ hv }, m.congr, a.congr⟩
  case mcause => exact ⟨c.congr, p.congr, r.congr, { wd with mcause := hv }, m.congr, a.congr⟩
  case mtval => exact ⟨c.congr, p.congr, r.congr, { wd with mtval := hv }, m.congr, a.congr⟩
  case ignored => exact hI

/-- A register write of an XLEN-bit value keeps the invariant (40_regfile_ops.md R171). -/
theorem State.Inv.writeX {s : State} (h : s.Inv) (i : RegIdx) {v : Word} (hv : s.Fits v) : (s.writeX i v).Inv := by
  obtain ⟨c, p, rr, wd, mm, a⟩ := h
  refine ⟨c.congr (by simp) (by simp) (by simp), p.congr (by simp) (by simp) (by simp) (by simp),
    rr.congr (by simp) (by simp) (by simp) (by simp) (by simp) (by simp) (by simp) (by simp) (by simp), ?_,
    mm.congr (by simp) (by simp), a.congr (by simp)⟩
  refine wd.context (by simp) (by simp) (by simp) (by simp) (by simp) (by simp) (by simp) (by simp) (by simp) (by simp)
    (fun j => ?_) (by simpa using wd.pc) (by simpa using wd.vstart) (by simpa using wd.vl) (by simpa using wd.vtype)
  rw [State.readX_writeX]
  split
  · exact hv
  · exact wd.x j

/-- The writable bits of a combined access are implemented ones (41_csr_dispatch.md R227, R228). -/
theorem inv_rmwCsr {s s' : State} {i : CsrIdx} {r : CsrRmw} {nv m old : Word} (h : s.Inv) (hg : predHolds s i r.guard = true)
    (hr : rmwCsr s i r nv m = some (old, s')) : s'.Inv := by
  by_cases hk : ∃ k, r = .added k
  · obtain ⟨k, rfl⟩ := hk
    obtain ⟨⟨o, t⟩, -, e⟩ := Option.map_eq_some_iff.mp hr
    obtain ⟨-, rfl⟩ := Prod.mk.inj e
    split
    exacts [h, h.install t]
  obtain ⟨c, p, rr, wd, mm, a⟩ := h
  have sub : ∀ {wm : Word}, wm &&& ~~~implementedIrqs s.misa = 0 → (s.mergeMip nv wm).Inv := fun hwm =>
    ⟨c.congr, p.congr, { rr with mip := merge_and_not rr.mip hwm }, wd.congr, mm.congr, a.congr⟩
  have zero_sub : ∀ {x y : Word}, y &&& ~~~implementedIrqs s.misa = 0 → x &&& y &&& ~~~implementedIrqs s.misa = 0 := by
    intro x y hy
    rw [BitVec.and_assoc, hy]
    exact BitVec.and_zero
  cases r <;> try exact absurd ⟨_, rfl⟩ hk
  all_goals simp only [rmwCsr, Option.some.injEq, Prod.mk.injEq, reduceCtorEq] at hr
  all_goals obtain ⟨-, rfl⟩ := hr
  · refine sub (zero_sub ?_)
    unfold mipWritable implementedIrqs
    split <;> decide
  · refine sub (zero_sub ?_)
    have hs : misaHas s.misa Ext.S = true := hg
    rw [implementedIrqs, if_pos hs]
    decide

/-- A successful access of XLEN-bit operands keeps the invariant, and its answer is an XLEN-bit value. -/
theorem inv_csrAccess {s s' : State} {i : CsrIdx} {nv m old : Word} (h : s.Inv) (hn : s.Fits nv)
    (ha : s.csrAccess i nv m = some (old, s')) : s'.Inv ∧ s.Fits old := by
  obtain ⟨d, hd, hal, hr⟩ := csrAccess_cases ha
  have hwf := wf_of_lookup h.csrTableOk hd
  simp only [CsrDescriptor.wf, Bool.and_eq_true] at hwf
  have hmip : s.Fits s.mip := trunc_of_and_not h.csr.mip (trunc_implementedIrqs _ _)
  rcases hr with ⟨r, hrm, hr⟩ | ⟨-, r, -, hread, ⟨-, rfl⟩ | ⟨-, w, hw, hs⟩⟩
  · have hg := hwf.2
    rw [hrm] at hg
    refine ⟨inv_rmwCsr h (predHolds_guard hal (by simpa using hg)) hr, ?_⟩
    cases r with
    | added k =>
      obtain ⟨o, -, e⟩ := Option.map_eq_some_iff.mp hr
      obtain ⟨rfl, -⟩ := Prod.mk.inj e
      exact Xlen.trunc_trunc _ _
    | fails => cases hr
    | mip => cases hr; exact hmip
    | sip => cases hr; exact s.cfg.xlen.trunc_and_left _ hmip
  · exact ⟨h, fits_readCsr h hread⟩
  · have hg := hwf.1.2
    rw [hw] at hg
    have ho := fits_readCsr h hread
    exact ⟨inv_writeCsr h (s.fits_mergeMask ho hn) (predHolds_guard hal (by simpa using hg)) hs, ho⟩

/-! ### Traps -/

/-- An encoded cause is an XLEN-bit value (60_exceptions.md R345). -/
theorem State.fits_encodeCause {s : State} {r : Word} (h : s.Fits r) : s.Fits (s.encodeCause r) := by
  unfold State.encodeCause
  split
  · refine s.fits_of_lt _ ?_
    cases s.priv <;> decide
  · exact h

theorem fits_trapVector (x : Xlen) {tvec : Word} (c : Word) (h : x.trunc tvec = tvec) :
    x.trunc (trapVector x tvec c) = trapVector x tvec c := by
  unfold trapVector
  simp only
  split
  · exact x.trunc_trunc _
  · exact x.trunc_and_left _ h

theorem State.fits_tvalFor {s : State} (c : Word) {t : Word} (h : s.Fits t) : s.Fits (tvalFor s.cfg.xlen c t) := by
  unfold tvalFor
  split
  · exact h
  · exact Xlen.trunc_zero _

/-- A trap that targets S finds S present and the mode below M (60_exceptions.md R347). -/
theorem State.of_targetsS {s : State} {c : Word} (h : s.targetsS c = true) :
    misaHas s.misa Ext.S = true ∧ s.priv ≠ .m := by
  simp only [State.targetsS, Bool.and_eq_true, bne_iff_ne] at h
  exact h.1

/-- Taking a trap in a system environment keeps the invariant (60_exceptions.md R352). -/
theorem State.Inv.trapEnter {s : State} (h : s.Inv) (he : s.cfg.env = .system) {r t : Word} (hr : s.Fits r)
    (ht : s.Fits t) : (s.trapEnter r t).Inv := by
  obtain ⟨c, p, rr, wd, mm, a⟩ := h
  unfold State.trapEnter
  simp only
  split
  · rename_i hT
    obtain ⟨hs, -⟩ := s.of_targetsS hT
    refine ⟨c.congr, ⟨hs, p.mpp_legal, fun e => ?_, fun e => ?_, p.no_fp⟩,
      { rr with sepc := and_mask_and_not _ _ }, ?_, mm.congr, a.congr⟩
    · exact absurd (he.symm.trans e) (by decide)
    · exact absurd (hs.symm.trans e) (by decide)
    · exact { wd with
        sepc := s.cfg.xlen.trunc_and_left _ wd.pc
        scause := s.fits_encodeCause hr
        stval := s.fits_tvalFor _ ht
        pc := fits_trapVector _ _ wd.stvec }
  · refine ⟨c.congr, ⟨rfl, p.priv_legal, fun e => ?_, p.no_s, p.no_fp⟩,
      { rr with mepc := and_mask_and_not _ _ }, ?_, mm.congr, a.congr⟩
    · exact absurd (he.symm.trans e) (by decide)
    · exact { wd with
        mepc := s.cfg.xlen.trunc_and_left _ wd.pc
        mcause := s.fits_encodeCause hr
        mtval := s.fits_tvalFor _ ht
        pc := fits_trapVector _ _ wd.mtvec }

/-- TRAP's effect keeps the invariant in both environments. -/
theorem State.Inv.takeTrap {s : State} (h : s.Inv) {r t : Word} (hr : s.Fits r) (ht : s.Fits t) :
    (s.takeTrap r t).Inv := by
  unfold State.takeTrap
  split
  · rename_i he
    exact (h.trapEnter he hr ht).respond _
  · exact h.respond _

/-- MRET keeps the invariant (60_exceptions.md R360). -/
theorem State.Inv.mretReturn {s : State} (h : s.Inv) (hm : s.priv = .m) : s.mretReturn.Inv := by
  obtain ⟨c, p, rr, wd, mm, a⟩ := h
  refine ⟨c.congr, ⟨p.mpp_legal, ?_, fun e => ?_, p.no_s, p.no_fp⟩, rr.congr, { wd with pc := wd.mepc }, mm.congr, a.congr⟩
  · simp only [State.mretReturn]
    split
    · assumption
    · rfl
  · exact absurd (hm.symm.trans (p.user_mode e)) (by decide)

/-- SRET keeps the invariant (60_exceptions.md R362). -/
theorem State.Inv.sretReturn {s : State} (h : s.Inv) (hs : misaHas s.misa Ext.S = true) (hu : s.priv ≠ .u) :
    s.sretReturn.Inv := by
  have hU := h.u_of_s hs
  obtain ⟨c, p, rr, wd, mm, a⟩ := h
  refine ⟨c.congr, ⟨?_, p.mpp_legal, fun e => absurd (p.user_mode e) hu, fun e => ?_, p.no_fp⟩, rr.congr,
    { wd with pc := wd.sepc }, mm.congr, a.congr⟩
  · simp only [State.sretReturn]
    split
    · exact hs
    · exact hU
  · exact absurd (hs.symm.trans e) (by decide)

/-! ### The alternate stack -/

/-- An install changes the alternate stack alone (43_signal_frame.md R313). -/
theorem State.altInstall_frame (s : State) (a f z sp : Word) :
    (s.altInstall a f z sp).2 = { s with altstack := (s.altInstall a f z sp).2.altstack } := by
  unfold State.altInstall
  split
  · rfl
  · split
    · rfl
    · split <;> rfl

/-- Installing an XLEN-bit descriptor keeps the invariant (43_signal_frame.md R313). -/
theorem State.Inv.altInstall {s : State} (h : s.Inv) {a f z : Word} (sp : Word) (ha : s.Fits a) (hz : s.Fits z) :
    (s.altInstall a f z sp).2.Inv := by
  unfold State.altInstall
  split
  · exact h
  · obtain ⟨c, p, rr, wd, mm, al⟩ := h
    split
    · exact ⟨c.congr, p.congr, rr.congr, { wd with ssSp := Xlen.trunc_zero _, ssSize := Xlen.trunc_zero _ }, mm.congr,
        .inl rfl⟩
    · split
      · rename_i hsz
        exact ⟨c.congr, p.congr, rr.congr, { wd with ssSp := ha, ssSize := hz }, mm.congr, .inr hsz.2⟩
      · exact ⟨c, p, rr, wd, mm, al⟩

end Sys2Proof.Machine
end

