-- ==== Sys2Proof/Laws/Memory.lean ====
section
/-! SUPPORT. Guest memory: the canonical form is kept, a read after a write, and the bytes of a word. -/

namespace Sys2Proof.Machine

/-! ### The canonical form -/

theorem Memory.mem_put {a : Nat} {b : Byte} {t : Memory} {c : Host.Cell} (h : c ∈ Memory.put a b t) :
    c = (a, b) ∨ c ∈ t := by
  unfold Memory.put at h
  split at h
  · exact .inr h
  · simpa using h

/-- Every cell of a memory after a byte write is the written one or an old one. -/
theorem Memory.mem_writeByte {m : Memory} {a : Nat} {b : Byte} {c : Host.Cell} (h : c ∈ m.writeByte a b) :
    c = (a, b) ∨ c ∈ m := by
  induction m with
  | nil => simpa using Memory.mem_put h
  | cons p t ih =>
    obtain ⟨k, v⟩ := p
    simp only [Memory.writeByte] at h
    split at h
    · exact Memory.mem_put h
    · split at h
      · rcases Memory.mem_put h with h | h
        · exact .inl h
        · exact .inr (List.mem_cons_of_mem _ h)
      · rcases List.mem_cons.mp h with h | h
        · exact .inr (by simp [h])
        · rcases ih h with h | h
          · exact .inl h
          · exact .inr (List.mem_cons_of_mem _ h)

theorem Memory.wf_cons {p : Host.Cell} {t : Memory} :
    Memory.wf (p :: t) ↔ (∀ q ∈ t, p.1 < q.1) ∧ p.2 ≠ unlistedByte ∧ Memory.wf t := by
  simp only [Memory.wf, List.pairwise_cons, List.forall_mem_cons]
  tauto

theorem Memory.wf_nil : Memory.wf [] := by simp [Memory.wf]

theorem Memory.wf_put {a : Nat} {b : Byte} {t : Memory} (ht : Memory.wf t) (h : ∀ q ∈ t, a < q.1) :
    Memory.wf (Memory.put a b t) := by
  unfold Memory.put
  split
  · exact ht
  · exact Memory.wf_cons.mpr ⟨h, ‹_›, ht⟩

/-- A byte write keeps the canonical form. -/
theorem Memory.wf_writeByte {m : Memory} (hm : m.wf) (a : Nat) (b : Byte) : (m.writeByte a b).wf := by
  induction m with
  | nil => exact Memory.wf_put Memory.wf_nil (by simp)
  | cons p t ih =>
    obtain ⟨k, v⟩ := p
    obtain ⟨hlt, hv, ht⟩ := Memory.wf_cons.mp hm
    simp only [Memory.writeByte]
    split
    · rename_i hak
      refine Memory.wf_put hm fun q hq => ?_
      rcases List.mem_cons.mp hq with rfl | hq
      · exact hak
      · exact hak.trans (hlt q hq)
    · split
      · rename_i hak
        subst hak
        exact Memory.wf_put ht hlt
      · refine Memory.wf_cons.mpr ⟨fun q hq => ?_, hv, ih ht⟩
        rcases Memory.mem_writeByte hq with rfl | hq
        · simp only; omega
        · exact hlt q hq

/-- Writing bytes keeps the canonical form. -/
theorem Memory.wf_writeBytes {m : Memory} (hm : m.wf) (a : Nat) (bs : List Byte) : (m.writeBytes a bs).wf := by
  induction bs generalizing m a with
  | nil => exact hm
  | cons b t ih => exact ih (Memory.wf_writeByte hm a b) (a + 1)

/-! ### Read after write -/

theorem Memory.readByte_of_lt {m : Memory} {a : Nat} (h : ∀ q ∈ m, a < q.1) : m.readByte a = unlistedByte := by
  induction m with
  | nil => rfl
  | cons p t ih =>
    obtain ⟨k, v⟩ := p
    have hk : a < k := h (k, v) (by simp)
    simp only [Memory.readByte]
    rw [if_neg (by omega)]
    exact ih fun q hq => h q (by simp [hq])

theorem Memory.readByte_put {a : Nat} {b : Byte} {t : Memory} (h : ∀ q ∈ t, a < q.1) (c : Nat) :
    (Memory.put a b t).readByte c = if c = a then b else t.readByte c := by
  unfold Memory.put
  split
  · split
    · subst_vars; exact Memory.readByte_of_lt h
    · rfl
  · simp only [Memory.readByte, eq_comm]

/-- A read after a byte write: the written byte at its address, the old byte everywhere else. -/
theorem Memory.readByte_writeByte {m : Memory} (hm : m.wf) (a : Nat) (b : Byte) (c : Nat) :
    (m.writeByte a b).readByte c = if c = a then b else m.readByte c := by
  induction m with
  | nil => exact Memory.readByte_put (by simp) c
  | cons p t ih =>
    obtain ⟨k, v⟩ := p
    obtain ⟨hlt, hv, ht⟩ := Memory.wf_cons.mp hm
    simp only [Memory.writeByte]
    split
    · rename_i hak
      refine Memory.readByte_put (fun q hq => ?_) c
      rcases List.mem_cons.mp hq with rfl | hq
      · exact hak
      · exact hak.trans (hlt q hq)
    · split
      · rename_i hak
        subst hak
        rw [Memory.readByte_put hlt]
        simp only [Memory.readByte]
        split
        · rfl
        · rw [if_neg (by omega)]
      · simp only [Memory.readByte, ih ht]
        split
        · rw [if_neg (by omega)]
        · rfl

/-- A read outside the bytes written gives what it gave before. -/
theorem Memory.readByte_writeBytes_outside {m : Memory} (hm : m.wf) (a : Nat) (bs : List Byte) (c : Nat)
    (h : c < a ∨ a + bs.length ≤ c) : (m.writeBytes a bs).readByte c = m.readByte c := by
  induction bs generalizing m a with
  | nil => rfl
  | cons b t ih =>
    simp only [List.length_cons] at h
    simp only [Memory.writeBytes]
    rw [ih (Memory.wf_writeByte hm a b) (a + 1) (by omega), Memory.readByte_writeByte hm, if_neg (by omega)]

/-- A read inside the bytes written gives the byte written there. -/
theorem Memory.readByte_writeBytes_inside {m : Memory} (hm : m.wf) (a : Nat) (bs : List Byte) (k : Nat)
    (h : k < bs.length) : (m.writeBytes a bs).readByte (a + k) = bs[k] := by
  induction bs generalizing m a k with
  | nil => simp at h
  | cons b t ih =>
    simp only [Memory.writeBytes]
    cases k with
    | zero =>
      rw [Memory.readByte_writeBytes_outside (Memory.wf_writeByte hm a b) _ _ _ (by omega),
        Memory.readByte_writeByte hm]
      simp
    | succ k =>
      have := ih (Memory.wf_writeByte hm a b) (a + 1) k (by simpa using h)
      rw [show a + (k + 1) = a + 1 + k by omega, this]
      rfl

theorem Memory.length_readBytes (m : Memory) (a n : Nat) : (m.readBytes a n).length = n := by
  induction n generalizing a with
  | zero => rfl
  | succ n ih => simp [Memory.readBytes, ih]

theorem Memory.getElem_readBytes (m : Memory) (a n k : Nat) (h : k < n) :
    (m.readBytes a n)[k]'(by rw [Memory.length_readBytes]; exact h) = m.readByte (a + k) := by
  induction n generalizing a k with
  | zero => omega
  | succ n ih =>
    cases k with
    | zero => simp [Memory.readBytes]
    | succ k =>
      simp only [Memory.readBytes, List.getElem_cons_succ]
      rw [ih (a + 1) k (by omega)]
      congr 1
      omega

/-- Bytes that agree one by one agree as a list. -/
theorem Memory.readBytes_eq {m : Memory} {a : Nat} {bs : List Byte}
    (h : ∀ k (hk : k < bs.length), m.readByte (a + k) = bs[k]) : m.readBytes a bs.length = bs := by
  refine List.ext_getElem (Memory.length_readBytes _ _ _) fun k h₁ h₂ => ?_
  rw [Memory.getElem_readBytes _ _ _ _ h₂]
  exact h k h₂

theorem Memory.readBytes_congr {m m' : Memory} {a n : Nat} (h : ∀ k < n, m'.readByte (a + k) = m.readByte (a + k)) :
    m'.readBytes a n = m.readBytes a n := by
  refine List.ext_getElem (by simp [Memory.length_readBytes]) fun k h₁ h₂ => ?_
  have hk : k < n := by simpa [Memory.length_readBytes] using h₁
  rw [Memory.getElem_readBytes _ _ _ _ hk, Memory.getElem_readBytes _ _ _ _ hk]
  exact h k hk

/-! ### The bytes of a word -/

@[simp] theorem length_leBytes (n : Nat) (v : Word) : (leBytes n v).length = n := by
  induction n generalizing v with
  | zero => rfl
  | succ n ih => simp [leBytes, ih]

/-- The word of the low `n` bytes of a word is the word cut to `n` bytes. -/
theorem ofLeBytes_leBytes (n : Nat) (v : Word) (i : Nat) :
    (ofLeBytes (leBytes n v)).getLsbD i = (decide (i < 8 * n) && v.getLsbD i) := by
  induction n generalizing v i with
  | zero => simp [leBytes, ofLeBytes]
  | succ n ih =>
    simp only [leBytes, ofLeBytes, BitVec.getLsbD_or, BitVec.getLsbD_setWidth, BitVec.getLsbD_extractLsb',
      BitVec.getLsbD_shiftLeft, ih, BitVec.getLsbD_ushiftRight]
    by_cases h8 : i < 8
    · have : i < 64 := by omega
      simp [h8, this, show i < 8 * (n + 1) by omega]
    · by_cases h64 : i < 64
      · simp [h8, h64, show 8 + (i - 8) = i by omega, show i - 8 < 8 * n ↔ i < 8 * (n + 1) by omega]
      · simp [h8, h64, BitVec.getLsbD_of_ge v i (by omega)]

/-- A word of eight bytes survives its own bytes. -/
theorem ofLeBytes_leBytes_eight (v : Word) : ofLeBytes (leBytes 8 v) = v := by
  refine BitVec.eq_of_getLsbD_eq fun i hi => ?_
  rw [ofLeBytes_leBytes]
  simp [show i < 8 * 8 by omega]

/-- A word of XLEN bits survives its XLEN/8 bytes. -/
theorem ofLeBytes_leBytes_xlen (x : Xlen) (v : Word) (h : x.trunc v = v) : ofLeBytes (leBytes x.bytes v) = v := by
  cases x with
  | rv64 => exact ofLeBytes_leBytes_eight v
  | rv32 =>
    refine BitVec.eq_of_getLsbD_eq fun i hi => ?_
    rw [ofLeBytes_leBytes, Xlen.bytes]
    by_cases h32 : i < 8 * 4
    · simp [h32]
    · rw [← h]
      simp only [Xlen.trunc, BitVec.getLsbD_and]
      have : (0xFFFFFFFF#64).getLsbD i = false := by
        have : ∀ j : Fin 64, ¬ j.val < 32 → (0xFFFFFFFF#64).getLsbD j.val = false := by decide
        exact this ⟨i, hi⟩ (by simpa using h32)
      simp [h32, this]

/-- A word of at most 32 bits survives its four bytes. -/
theorem ofLeBytes_leBytes_four (v : BitVec 32) : (ofLeBytes (leBytes 4 (v.setWidth 64))).setWidth 32 = v := by
  refine BitVec.eq_of_getLsbD_eq fun i hi => ?_
  rw [BitVec.getLsbD_setWidth, ofLeBytes_leBytes]
  simp [hi, show i < 64 by omega]

end Sys2Proof.Machine
end

