-- ==== Sys2Proof/Laws/Layout.lean ====
section
/-! SUPPORT. The frame as a list of fields: no two overlap, all lie inside FRAME_SIZE, and a field reads back what was
written to it. -/

namespace Sys2Proof.Machine

/-- Two fields share no byte. -/
def Field.Apart (f g : Field) : Prop := f.1 + f.2.length ≤ g.1 ∨ g.1 + g.2.length ≤ f.1

/-- Every field lies in `[lo, hi)`. -/
def Within (lo hi : Nat) (fs : List Field) : Prop := ∀ f ∈ fs, lo ≤ f.1 ∧ f.1 + f.2.length ≤ hi

theorem Field.Apart.symm {f g : Field} (h : Field.Apart f g) : Field.Apart g f := Or.symm h

/-! ### Writing a list of fields -/

/-- Writing fields keeps the canonical form. -/
theorem wf_writeFields {m : Memory} (hm : m.wf) (base : Nat) (fs : List Field) : (writeFields m base fs).wf := by
  induction fs generalizing m with
  | nil => exact hm
  | cons f t ih => exact ih (Memory.wf_writeBytes hm _ _)

/-- A byte outside every field reads as before. -/
theorem readByte_writeFields_outside {m : Memory} (hm : m.wf) (base : Nat) (fs : List Field) (c : Nat)
    (h : ∀ f ∈ fs, c < base + f.1 ∨ base + f.1 + f.2.length ≤ c) :
    (writeFields m base fs).readByte c = m.readByte c := by
  induction fs generalizing m with
  | nil => rfl
  | cons f t ih =>
    obtain ⟨o, bs⟩ := f
    have h0 := h (o, bs) (by simp)
    simp only [writeFields]
    rw [ih (Memory.wf_writeBytes hm _ _) fun g hg => h g (by simp [hg])]
    exact Memory.readByte_writeBytes_outside hm _ _ _ h0

/-- A field of a list in which no two overlap reads back as it was written. -/
theorem readBytes_writeFields {m : Memory} (hm : m.wf) (base : Nat) {fs : List Field} (hd : fs.Pairwise Field.Apart)
    {f : Field} (hf : f ∈ fs) : (writeFields m base fs).readBytes (base + f.1) f.2.length = f.2 := by
  induction fs generalizing m with
  | nil => simp at hf
  | cons g t ih =>
    obtain ⟨hg, ht⟩ := List.pairwise_cons.mp hd
    have hm' := Memory.wf_writeBytes hm (base + g.1) g.2
    rcases List.mem_cons.mp hf with rfl | hf
    · refine Memory.readBytes_eq fun k hk => ?_
      rw [writeFields, readByte_writeFields_outside hm' base t _ fun e he => ?_]
      · exact Memory.readByte_writeBytes_inside hm _ _ _ hk
      · have := hg e he
        simp only [Field.Apart] at this
        omega
    · exact ih hm' ht hf

/-! ### Equally spaced fields -/

theorem mem_wordsAt {off stride n : Nat} {l : List Word} {f : Field} :
    f ∈ wordsAt off stride n l ↔ ∃ k, ∃ h : k < l.length, f = (off + stride * k, leBytes n l[k]) := by
  induction l generalizing off with
  | nil => simp [wordsAt]
  | cons v t ih =>
    simp only [wordsAt, List.mem_cons, ih, List.length_cons]
    constructor
    · rintro (rfl | ⟨k, hk, rfl⟩)
      · exact ⟨0, by omega, by simp⟩
      · exact ⟨k + 1, by omega, by simp [Nat.mul_succ]; omega⟩
    · rintro ⟨k, hk, rfl⟩
      cases k with
      | zero => exact .inl (by simp)
      | succ k => exact .inr ⟨k, by omega, by simp [Nat.mul_succ]; omega⟩

theorem within_wordsAt {off stride n hi : Nat} {l : List Word} (hn : n ≤ stride) (hhi : off + stride * l.length ≤ hi) :
    Within off hi (wordsAt off stride n l) := by
  intro f hf
  obtain ⟨k, hk, rfl⟩ := mem_wordsAt.mp hf
  have : stride * (k + 1) ≤ stride * l.length := Nat.mul_le_mul_left _ hk
  simp only [length_leBytes, Nat.mul_add] at *
  omega

theorem apart_wordsAt {off stride n : Nat} {l : List Word} (hn : n ≤ stride) :
    (wordsAt off stride n l).Pairwise Field.Apart := by
  induction l generalizing off with
  | nil => exact List.Pairwise.nil
  | cons v t ih =>
    refine List.pairwise_cons.mpr ⟨fun f hf => .inl ?_, ih⟩
    have := (within_wordsAt hn (Nat.le_refl _) f hf).1
    simp only [length_leBytes]
    omega

theorem pairwise_append_within {lo hi lo' hi' : Nat} {fs gs : List Field} (hf : fs.Pairwise Field.Apart)
    (hg : gs.Pairwise Field.Apart) (wf : Within lo hi fs) (wg : Within lo' hi' gs) (h : hi ≤ lo' ∨ hi' ≤ lo) :
    (fs ++ gs).Pairwise Field.Apart := by
  refine List.pairwise_append.mpr ⟨hf, hg, fun f hf g hg => ?_⟩
  have := wf f hf
  have := wg g hg
  simp only [Field.Apart]
  omega

theorem Within.append {lo hi lo' hi' l h : Nat} {fs gs : List Field} (hf : Within lo hi fs) (hg : Within lo' hi' gs)
    (h₁ : l ≤ lo) (h₂ : l ≤ lo') (h₃ : hi ≤ h) (h₄ : hi' ≤ h) : Within l h (fs ++ gs) := by
  intro f hm
  rcases List.mem_append.mp hm with hm | hm
  · have := hf f hm; omega
  · have := hg f hm; omega

/-! ### The frame -/

theorem le_roundUp (k n : Nat) (hk : 0 < k) : n ≤ roundUp k n := by
  have := Nat.div_add_mod (n + (k - 1)) k
  have := Nat.mod_lt (n + (k - 1)) hk
  unfold roundUp
  rw [Nat.mul_comm]
  omega

@[simp] theorem length_halves (l : List VWord) : (l.flatMap halves).length = 2 * l.length := by
  induction l with
  | nil => rfl
  | cons v t ih => rw [List.flatMap_cons, List.length_append, ih]; simp [halves]; omega

theorem within_vrFields (s : State) :
    Within (vrOff s.cfg.xlen s.cfg.mcReserved) (vcsrOff s.cfg.xlen s.cfg.mcReserved)
      (wordsAt (vrOff s.cfg.xlen s.cfg.mcReserved) 8 8 (s.vec.vr.toList.flatMap halves)) :=
  within_wordsAt (by omega) (by rw [length_halves]; simp [vrOff, vcsrOff])

theorem within_vcsrFields (s : State) :
    Within (vcsrOff s.cfg.xlen s.cfg.mcReserved) (vcsrOff s.cfg.xlen s.cfg.mcReserved + 5 * s.cfg.xlen.bytes)
      (wordsAt (vcsrOff s.cfg.xlen s.cfg.mcReserved) s.cfg.xlen.bytes s.cfg.xlen.bytes s.vec.csrs) :=
  within_wordsAt (by omega) (by simp [VecState.csrs]; omega)

theorem vrOff_le_vcsrOff (x : Xlen) (r : Nat) : vrOff x r ≤ vcsrOff x r := by simp [vrOff, vcsrOff]

/-- The vector area ends five machine words after the vector registers. -/
theorem within_vectorFields (s : State) :
    Within (vrOff s.cfg.xlen s.cfg.mcReserved) (vcsrOff s.cfg.xlen s.cfg.mcReserved + 5 * s.cfg.xlen.bytes) s.vectorFields := by
  unfold State.vectorFields
  split
  · exact (within_vrFields s).append (within_vcsrFields s) (Nat.le_refl _) (vrOff_le_vcsrOff _ _) (by omega) (by omega)
  · intro f hf
    simp at hf

theorem apart_vectorFields (s : State) : s.vectorFields.Pairwise Field.Apart := by
  unfold State.vectorFields
  split
  · exact pairwise_append_within (apart_wordsAt (by omega)) (apart_wordsAt (by omega)) (within_vrFields s)
      (within_vcsrFields s) (.inl (Nat.le_refl _))
  · exact List.Pairwise.nil

/-- The machine context before the vector area: pc, the general registers, the floating-point registers and fcsr. -/
def State.scalarFields (s : State) : List Field :=
  wordsAt (pcOff s.cfg.xlen) s.cfg.xlen.bytes s.cfg.xlen.bytes (s.pc :: s.x.toList)
    ++ wordsAt (fprOff s.cfg.xlen) 8 8 s.f.toList
    ++ [(fcsrOff s.cfg.xlen, leBytes 4 (s.fcsrValue.setWidth 64))]

theorem mcontextFields_eq (s : State) : s.mcontextFields = s.scalarFields ++ s.vectorFields := rfl

theorem within_xFields (s : State) : Within (pcOff s.cfg.xlen) (fprOff s.cfg.xlen)
    (wordsAt (pcOff s.cfg.xlen) s.cfg.xlen.bytes s.cfg.xlen.bytes (s.pc :: s.x.toList)) :=
  within_wordsAt (by omega) (by simp [pcOff, fprOff]; omega)

theorem within_fFields (s : State) : Within (fprOff s.cfg.xlen) (fcsrOff s.cfg.xlen)
    (wordsAt (fprOff s.cfg.xlen) 8 8 s.f.toList) :=
  within_wordsAt (by omega) (by simp [fprOff, fcsrOff])

theorem within_fcsrField (s : State) : Within (fcsrOff s.cfg.xlen) (fcsrOff s.cfg.xlen + 4)
    [(fcsrOff s.cfg.xlen, leBytes 4 (s.fcsrValue.setWidth 64))] := by
  intro f hf
  simp at hf
  simp [hf]

theorem pcOff_le_fprOff (x : Xlen) : pcOff x ≤ fprOff x := by simp [pcOff, fprOff]
theorem fprOff_le_fcsrOff (x : Xlen) : fprOff x ≤ fcsrOff x := by simp [fprOff, fcsrOff]

theorem within_xfFields (s : State) : Within (pcOff s.cfg.xlen) (fcsrOff s.cfg.xlen)
    (wordsAt (pcOff s.cfg.xlen) s.cfg.xlen.bytes s.cfg.xlen.bytes (s.pc :: s.x.toList)
      ++ wordsAt (fprOff s.cfg.xlen) 8 8 s.f.toList) :=
  (within_xFields s).append (within_fFields s) (Nat.le_refl _) (pcOff_le_fprOff _) (fprOff_le_fcsrOff _) (Nat.le_refl _)

theorem within_scalarFields (s : State) : Within (pcOff s.cfg.xlen) (fcsrOff s.cfg.xlen + 4) s.scalarFields :=
  (within_xfFields s).append (within_fcsrField s) (Nat.le_refl _)
    ((pcOff_le_fprOff _).trans (fprOff_le_fcsrOff _)) (by omega) (Nat.le_refl _)

theorem apart_scalarFields (s : State) : s.scalarFields.Pairwise Field.Apart :=
  pairwise_append_within (pairwise_append_within (apart_wordsAt (by omega)) (apart_wordsAt (by omega)) (within_xFields s)
    (within_fFields s) (.inl (Nat.le_refl _))) (by simp) (within_xfFields s) (within_fcsrField s) (.inl (Nat.le_refl _))

theorem fcsrEnd_le_vrOff (x : Xlen) (r : Nat) : fcsrOff x + 4 ≤ vrOff x r := by
  have := le_roundUp 16 (32 * x.bytes + 260 + r) (by omega)
  simp only [fcsrOff, vrOff, vBase]
  omega

theorem within_mcontextFields (s : State) :
    Within (mcbOff s.cfg.xlen) (vcsrOff s.cfg.xlen s.cfg.mcReserved + 5 * s.cfg.xlen.bytes) s.mcontextFields := by
  have h₁ := fcsrEnd_le_vrOff s.cfg.xlen s.cfg.mcReserved
  have h₂ := vrOff_le_vcsrOff s.cfg.xlen s.cfg.mcReserved
  have h₃ := pcOff_le_fprOff s.cfg.xlen
  have h₄ := fprOff_le_fcsrOff s.cfg.xlen
  rw [mcontextFields_eq]
  exact (within_scalarFields s).append (within_vectorFields s) (Nat.le_refl _) (by simp only [pcOff] at h₃; omega)
    (by omega) (by omega)

theorem apart_mcontextFields (s : State) : s.mcontextFields.Pairwise Field.Apart := by
  rw [mcontextFields_eq]
  exact pairwise_append_within (apart_scalarFields s) (apart_vectorFields s) (within_scalarFields s)
    (within_vectorFields s) (.inl (fcsrEnd_le_vrOff _ _))

theorem within_ucontextFields (s : State) : Within ucOff (mcbOff s.cfg.xlen) s.ucontextFields := by
  intro f hf
  unfold State.ucontextFields at hf
  simp only [List.mem_cons, List.not_mem_nil, or_false] at hf
  rcases hf with rfl | rfl | rfl | rfl | rfl | rfl <;> cases s.cfg.xlen <;>
    simp [ucOff, ucFlagsOff, ucLinkOff, ssSpOff, ssFlagsOff, ssSizeOff, sigmaskOff, mcbOff, mcOff, Xlen.bytes]

theorem apart_ucontextFields (s : State) : s.ucontextFields.Pairwise Field.Apart := by
  unfold State.ucontextFields
  cases s.cfg.xlen <;>
    simp [Field.Apart, ucOff, ucFlagsOff, ucLinkOff, ssSpOff, ssFlagsOff, ssSizeOff, sigmaskOff, Xlen.bytes]

theorem within_infoAndTrampFields (s : State) : Within 0 136 s.infoAndTrampFields := by
  intro f hf
  unfold State.infoAndTrampFields at hf
  rcases List.mem_cons.mp hf with rfl | hf
  · simp [infoOff]
  · split at hf <;> simp at hf
    rcases hf with rfl | rfl <;> simp

theorem apart_infoAndTrampFields (s : State) : s.infoAndTrampFields.Pairwise Field.Apart := by
  unfold State.infoAndTrampFields
  split <;> simp [Field.Apart, infoOff]

/-- No two fields of the frame overlap. -/
theorem apart_frameFields (s : State) : s.frameFields.Pairwise Field.Apart := by
  have hU := within_ucontextFields s
  have hM := within_mcontextFields s
  have hb : ucOff ≤ mcbOff s.cfg.xlen := by simp [mcbOff]
  have hb' : mcbOff s.cfg.xlen ≤ vcsrOff s.cfg.xlen s.cfg.mcReserved + 5 * s.cfg.xlen.bytes := by
    simp only [vcsrOff]
    omega
  exact pairwise_append_within (pairwise_append_within (apart_mcontextFields s) (apart_ucontextFields s) hM hU
    (.inr (Nat.le_refl _))) (apart_infoAndTrampFields s) (hM.append hU hb (Nat.le_refl _) (Nat.le_refl _) hb')
    (within_infoAndTrampFields s) (.inr (by simp [ucOff]))

theorem mcbOff_add_mcSize_le (s : State) :
    mcbOff s.cfg.xlen + mcSize s.cfg.xlen s.cfg.mcReserved s.vectorArea ≤ s.frameSize := by
  have := le_roundUp 16 (mcOff s.cfg.xlen + mcSize s.cfg.xlen s.cfg.mcReserved s.vectorArea) (by omega)
  simp only [State.frameSize, frameSizeOf, mcbOff]
  omega

theorem fcsrEnd_le_frameSize (s : State) : fcsrOff s.cfg.xlen + 4 ≤ s.frameSize := by
  refine Nat.le_trans ?_ (mcbOff_add_mcSize_le s)
  have h16 := le_roundUp 16 (32 * s.cfg.xlen.bytes + 260 + s.cfg.mcReserved) (by omega)
  have h8 := le_roundUp 8 (32 * s.cfg.xlen.bytes + 260 + s.cfg.mcReserved) (by omega)
  simp only [mcSize, fcsrOff, vBase]
  split <;> omega

theorem vectorEnd_le_frameSize (s : State) (h : s.vActive = true) :
    vcsrOff s.cfg.xlen s.cfg.mcReserved + 5 * s.cfg.xlen.bytes ≤ s.frameSize := by
  refine Nat.le_trans ?_ (mcbOff_add_mcSize_le s)
  have hva : s.vectorArea = true := by simp [State.vectorArea, h]
  simp only [mcSize, hva, if_true, vcsrOff]
  cases s.cfg.xlen <;> simp [Xlen.bytes, vecAreaSize] <;> omega

/-- Every field lies inside FRAME_SIZE. -/
theorem within_frameFields (s : State) : Within 0 s.frameSize s.frameFields := by
  have hsz : mcbOff s.cfg.xlen ≤ s.frameSize := by
    have := mcbOff_add_mcSize_le s
    omega
  have hmc : Within 0 s.frameSize s.mcontextFields := by
    intro f hf
    refine ⟨by omega, ?_⟩
    rw [mcontextFields_eq] at hf
    rcases List.mem_append.mp hf with hf | hf
    · exact (within_scalarFields s f hf).2.trans (fcsrEnd_le_frameSize s)
    · by_cases hv : s.vActive = true
      · exact (within_vectorFields s f hf).2.trans (vectorEnd_le_frameSize s hv)
      · simp [State.vectorFields, hv] at hf
  refine (hmc.append (within_ucontextFields s) (Nat.le_refl _) (by omega) (Nat.le_refl _) hsz).append
    (within_infoAndTrampFields s) (Nat.le_refl _) (Nat.le_refl _) (Nat.le_refl _) ?_
  refine Nat.le_trans ?_ hsz
  simp only [mcbOff, ucOff]
  omega

end Sys2Proof.Machine
end

