-- ==== Sys2Proof/Laws/PerInstr.lean ====
section
/-! SUPPORT. Per instruction: the encoded word has the fixed bits of its row of spec/opcode_table.json. The masks and
matches below are the table's own. -/

namespace Sys2Proof

theorem commandWord_and_op (op : BitVec 5) (r : RegIdx) (c : CsrIdx) (l : BitVec 2) (a : BitVec 8) :
    commandWord op r c l a &&& 0x0000001F#32 = op.setWidth 32 := by
  refine BitVec.eq_of_getLsbD_eq fun i hi => ?_
  have hm : (0x0000001F#32).getLsbD i = decide (i < 5) :=
    (by decide : ∀ j : Fin 32, (0x0000001F#32).getLsbD j.val = decide (j.val < 5)) ⟨i, hi⟩
  rw [BitVec.getLsbD_and, getLsbD_commandWord, hm, BitVec.getLsbD_setWidth]
  by_cases h : i < 5
  · simp [h, hi]
  · simp [h, BitVec.getLsbD_of_ge op i (by omega)]

theorem systemWord_and_fixed (c : CsrIdx) (r : RegIdx) (f : BitVec 3) (d : RegIdx) :
    systemWord c r f d &&& 0x0000707F#32 = systemWord 0 0 f 0 := by
  refine BitVec.eq_of_getLsbD_eq fun i hi => ?_
  have hm : (0x0000707F#32).getLsbD i = (decide (i < 7) || (decide (12 ≤ i) && decide (i < 15))) :=
    (by decide : ∀ j : Fin 32, (0x0000707F#32).getLsbD j.val =
      (decide (j.val < 7) || (decide (12 ≤ j.val) && decide (j.val < 15)))) ⟨i, hi⟩
  rw [BitVec.getLsbD_and, getLsbD_systemWord, getLsbD_systemWord, hm]
  by_cases h7 : i < 7
  · simp only [h7, if_true, decide_true, Bool.true_or, Bool.and_true]
  · by_cases h12 : i < 12
    · simp only [h7, h12, if_true, if_false, decide_false, Bool.false_or, show ¬ 12 ≤ i by omega, Bool.false_and,
        Bool.and_false]
      simp
    · by_cases h15 : i < 15
      · simp only [h7, h12, h15, if_true, if_false, show 12 ≤ i by omega, decide_true, Bool.or_true,
          Bool.and_true]
      · simp only [h7, h12, h15, if_false, decide_false, Bool.and_false, Bool.or_false]
        simp

namespace Laws.TableRow

/-- The bits of the word that the instruction's row fixes ("mask" of spec/opcode_table.json). -/
def mask : Instr → BitVec 32
  | .gprRd _ => 0x0000001F#32
  | .gprWr _ => 0x0000001F#32
  | .fprRd _ => 0x0000001F#32
  | .fprWr _ => 0x0000001F#32
  | .vrRd _ => 0x0000001F#32
  | .vrWr _ => 0x0000001F#32
  | .pcRd => 0x0000001F#32
  | .pcWr => 0x0000001F#32
  | .privRd => 0x0000001F#32
  | .extQ _ => 0x0000001F#32
  | .featQ _ => 0x0000001F#32
  | .csrRmw _ => 0x0000001F#32
  | .csrRd _ => 0x0000001F#32
  | .csrWr _ => 0x0000001F#32
  | .vlmax => 0x0000001F#32
  | .vcfgWr => 0x0000001F#32
  | .trap => 0x0000001F#32
  | .irqPend => 0x0000001F#32
  | .ipUpdate => 0x0000001F#32
  | .mret => 0x00C0001F#32
  | .sret => 0x00C0001F#32
  | .sigSetup => 0x0000001F#32
  | .sigReturn => 0x0000001F#32
  | .maskRd => 0x0000001F#32
  | .maskWr => 0x0000001F#32
  | .altRd _ => 0x0000001F#32
  | .altSet _ => 0x0000001F#32
  | .csrrw _ _ _ => 0x0000707F#32
  | .csrrs _ _ _ => 0x0000707F#32
  | .csrrc _ _ _ => 0x0000707F#32
  | .csrrwi _ _ _ => 0x0000707F#32
  | .csrrsi _ _ _ => 0x0000707F#32
  | .csrrci _ _ _ => 0x0000707F#32
  | .trampLiA7 => 0xFFFFFFFF#32
  | .trampEcall => 0xFFFFFFFF#32

/-- What the row fixes them to ("match" of spec/opcode_table.json). -/
def fixed : Instr → BitVec 32
  | .gprRd _ => 0x00000001#32
  | .gprWr _ => 0x00000002#32
  | .fprRd _ => 0x00000003#32
  | .fprWr _ => 0x00000004#32
  | .vrRd _ => 0x00000005#32
  | .vrWr _ => 0x00000006#32
  | .pcRd => 0x00000007#32
  | .pcWr => 0x00000008#32
  | .privRd => 0x00000009#32
  | .extQ _ => 0x0000000A#32
  | .featQ _ => 0x0000000B#32
  | .csrRmw _ => 0x0000000C#32
  | .csrRd _ => 0x0000000D#32
  | .csrWr _ => 0x0000000E#32
  | .vlmax => 0x0000000F#32
  | .vcfgWr => 0x00000010#32
  | .trap => 0x00000011#32
  | .irqPend => 0x00000012#32
  | .ipUpdate => 0x00000013#32
  | .mret => 0x00C00014#32
  | .sret => 0x00400014#32
  | .sigSetup => 0x00000015#32
  | .sigReturn => 0x00000016#32
  | .maskRd => 0x00000017#32
  | .maskWr => 0x00000018#32
  | .altRd _ => 0x00000019#32
  | .altSet _ => 0x0000001A#32
  | .csrrw _ _ _ => 0x00001073#32
  | .csrrs _ _ _ => 0x00002073#32
  | .csrrc _ _ _ => 0x00003073#32
  | .csrrwi _ _ _ => 0x00005073#32
  | .csrrsi _ _ _ => 0x00006073#32
  | .csrrci _ _ _ => 0x00007073#32
  | .trampLiA7 => 0x08B00893#32
  | .trampEcall => 0x00000073#32

/-- The encoded word has the fixed bits of its row. -/
def Statement (i : Instr) : Prop := encode i &&& mask i = fixed i

theorem gprRd (r : RegIdx) : Statement (.gprRd r) := (commandWord_and_op _ _ _ _ _).trans rfl
theorem gprWr (r : RegIdx) : Statement (.gprWr r) := (commandWord_and_op _ _ _ _ _).trans rfl
theorem fprRd (r : RegIdx) : Statement (.fprRd r) := (commandWord_and_op _ _ _ _ _).trans rfl
theorem fprWr (r : RegIdx) : Statement (.fprWr r) := (commandWord_and_op _ _ _ _ _).trans rfl
theorem vrRd (r : RegIdx) : Statement (.vrRd r) := (commandWord_and_op _ _ _ _ _).trans rfl
theorem vrWr (r : RegIdx) : Statement (.vrWr r) := (commandWord_and_op _ _ _ _ _).trans rfl
theorem pcRd : Statement .pcRd := (commandWord_and_op _ _ _ _ _).trans rfl
theorem pcWr : Statement .pcWr := (commandWord_and_op _ _ _ _ _).trans rfl
theorem privRd : Statement .privRd := (commandWord_and_op _ _ _ _ _).trans rfl
theorem extQ (a : BitVec 8) : Statement (.extQ a) := (commandWord_and_op _ _ _ _ _).trans rfl
theorem featQ (a : BitVec 8) : Statement (.featQ a) := (commandWord_and_op _ _ _ _ _).trans rfl
theorem csrRmw (c : CsrIdx) : Statement (.csrRmw c) := (commandWord_and_op _ _ _ _ _).trans rfl
theorem csrRd (c : CsrIdx) : Statement (.csrRd c) := (commandWord_and_op _ _ _ _ _).trans rfl
theorem csrWr (c : CsrIdx) : Statement (.csrWr c) := (commandWord_and_op _ _ _ _ _).trans rfl
theorem vlmax : Statement .vlmax := (commandWord_and_op _ _ _ _ _).trans rfl
theorem vcfgWr : Statement .vcfgWr := (commandWord_and_op _ _ _ _ _).trans rfl
theorem trap : Statement .trap := (commandWord_and_op _ _ _ _ _).trans rfl
theorem irqPend : Statement .irqPend := (commandWord_and_op _ _ _ _ _).trans rfl
theorem ipUpdate : Statement .ipUpdate := (commandWord_and_op _ _ _ _ _).trans rfl
theorem mret : Statement .mret := rfl
theorem sret : Statement .sret := rfl
theorem sigSetup : Statement .sigSetup := (commandWord_and_op _ _ _ _ _).trans rfl
theorem sigReturn : Statement .sigReturn := (commandWord_and_op _ _ _ _ _).trans rfl
theorem maskRd : Statement .maskRd := (commandWord_and_op _ _ _ _ _).trans rfl
theorem maskWr : Statement .maskWr := (commandWord_and_op _ _ _ _ _).trans rfl
theorem altRd (a : BitVec 8) : Statement (.altRd a) := (commandWord_and_op _ _ _ _ _).trans rfl
theorem altSet (a : BitVec 8) : Statement (.altSet a) := (commandWord_and_op _ _ _ _ _).trans rfl
theorem csrrw (rd : RegIdx) (rs1 : RegIdx) (c : CsrIdx) : Statement (.csrrw rd rs1 c) := (systemWord_and_fixed _ _ _ _).trans rfl
theorem csrrs (rd : RegIdx) (rs1 : RegIdx) (c : CsrIdx) : Statement (.csrrs rd rs1 c) := (systemWord_and_fixed _ _ _ _).trans rfl
theorem csrrc (rd : RegIdx) (rs1 : RegIdx) (c : CsrIdx) : Statement (.csrrc rd rs1 c) := (systemWord_and_fixed _ _ _ _).trans rfl
theorem csrrwi (rd : RegIdx) (uimm : RegIdx) (c : CsrIdx) : Statement (.csrrwi rd uimm c) := (systemWord_and_fixed _ _ _ _).trans rfl
theorem csrrsi (rd : RegIdx) (uimm : RegIdx) (c : CsrIdx) : Statement (.csrrsi rd uimm c) := (systemWord_and_fixed _ _ _ _).trans rfl
theorem csrrci (rd : RegIdx) (uimm : RegIdx) (c : CsrIdx) : Statement (.csrrci rd uimm c) := (systemWord_and_fixed _ _ _ _).trans rfl
theorem trampLiA7 : Statement .trampLiA7 := rfl
theorem trampEcall : Statement .trampEcall := rfl

end Laws.TableRow

end Sys2Proof
end

