-- ==== Sys2Proof/Laws/Signal.lean ====
section
/-! SUPPORT. Delivery and return: what a delivery leaves in each register and each field, what a load gives, and that both
keep the invariant. -/

namespace Sys2Proof.Machine

/-! ### Loads -/

/-- A load has no bit above its bytes. -/
theorem ofLeBytes_getLsbD_ge (l : List Byte) (i : Nat) (h : 8 * l.length ≤ i) : (ofLeBytes l).getLsbD i = false := by
  induction l generalizing i with
  | nil => simp [ofLeBytes]
  | cons b t ih =>
    simp only [List.length_cons] at h
    simp only [ofLeBytes, BitVec.getLsbD_or, BitVec.getLsbD_setWidth, BitVec.getLsbD_shiftLeft,
      ih (i - 8) (by omega), BitVec.getLsbD_of_ge b i (by omega), Bool.and_false, Bool.or_false]

/-- A load of XLEN/8 bytes is an XLEN-bit value (00_scope.md R13). -/
theorem trunc_load (x : Xlen) (m : Memory) (a : Nat) : x.trunc (m.load a x.bytes) = m.load a x.bytes := by
  rw [Xlen.trunc_eq_self_iff_bits]
  intro i hi
  refine ofLeBytes_getLsbD_ge _ i ?_
  rw [Memory.length_readBytes]
  cases x <;> simp only [Xlen.bits, Xlen.bytes] at * <;> omega

/-- A field of the frame loads as it was written (20_memory.md R104). -/
theorem load_frameField {s : State} (hm : s.mem.wf) (base : Nat) {o n : Nat} {v : Word}
    (h : (o, leBytes n v) ∈ s.frameFields) :
    (writeFields s.mem base s.frameFields).load (base + o) n = ofLeBytes (leBytes n v) := by
  have := readBytes_writeFields hm base (apart_frameFields s) h
  rw [length_leBytes] at this
  rw [Memory.load, this]

theorem load_frameField_xlen {s : State} (hm : s.mem.wf) (base : Nat) {o : Nat} {v : Word} (hv : s.Fits v)
    (h : (o, leBytes s.cfg.xlen.bytes v) ∈ s.frameFields) :
    (writeFields s.mem base s.frameFields).load (base + o) s.cfg.xlen.bytes = v := by
  rw [load_frameField hm base h, ofLeBytes_leBytes_xlen _ _ hv]

theorem load_frameField_eight {s : State} (hm : s.mem.wf) (base : Nat) {o : Nat} {v : Word}
    (h : (o, leBytes 8 v) ∈ s.frameFields) :
    (writeFields s.mem base s.frameFields).load (base + o) 8 = v := by
  rw [load_frameField hm base h, ofLeBytes_leBytes_eight]

/-- A word of at most 32 bits survives its four bytes. -/
theorem ofLeBytes_leBytes_four_word (v : Word) (h : v.toNat < 2 ^ 32) : ofLeBytes (leBytes 4 v) = v := by
  refine BitVec.eq_of_getLsbD_eq fun i _ => ?_
  rw [ofLeBytes_leBytes]
  by_cases hi : i < 8 * 4
  · simp [hi]
  · have : v.getLsbD i = false := by
      rw [BitVec.getLsbD, Nat.testBit_lt_two_pow]
      exact h.trans_le (Nat.pow_le_pow_right (by decide) (by omega))
    simp [hi, this]

theorem load_frameField_four {s : State} (hm : s.mem.wf) (base : Nat) {o : Nat} {v : Word} (hv : v.toNat < 2 ^ 32)
    (h : (o, leBytes 4 v) ∈ s.frameFields) :
    (writeFields s.mem base s.frameFields).load (base + o) 4 = v := by
  rw [load_frameField hm base h, ofLeBytes_leBytes_four_word _ hv]

/-! ### The fields of the frame, one by one -/

theorem mem_frameFields_pc (s : State) : (pcOff s.cfg.xlen, leBytes s.cfg.xlen.bytes s.pc) ∈ s.frameFields := by
  simp [State.frameFields, State.mcontextFields, wordsAt]

theorem mem_frameFields_x (s : State) (i : RegIdx) (hi : i ≠ 0) :
    (pcOff s.cfg.xlen + s.cfg.xlen.bytes * i.toNat, leBytes s.cfg.xlen.bytes (s.readX i)) ∈ s.frameFields := by
  have h0 := RegIdx.toNat_ne_zero hi
  have hlt := i.isLt
  have : (pcOff s.cfg.xlen + s.cfg.xlen.bytes * i.toNat, leBytes s.cfg.xlen.bytes (s.readX i)) ∈
      wordsAt (pcOff s.cfg.xlen) s.cfg.xlen.bytes s.cfg.xlen.bytes (s.pc :: s.x.toList) := by
    rw [mem_wordsAt]
    refine ⟨i.toNat, by simp; omega, ?_⟩
    rw [s.readX_of_ne i hi (by omega)]
    simp only [List.getElem_cons, h0, dif_neg, not_false_iff, Vector.getElem_toList]
  simp [State.frameFields, State.mcontextFields, this]

theorem mem_frameFields_f (s : State) (j : RegIdx) :
    (fprOff s.cfg.xlen + 8 * j.toNat, leBytes 8 (s.readF j)) ∈ s.frameFields := by
  have hlt := j.isLt
  have : (fprOff s.cfg.xlen + 8 * j.toNat, leBytes 8 (s.readF j)) ∈ wordsAt (fprOff s.cfg.xlen) 8 8 s.f.toList := by
    rw [mem_wordsAt]
    exact ⟨j.toNat, by simp; omega, by simp [State.readF]⟩
  simp [State.frameFields, State.mcontextFields, this]

theorem mem_frameFields_fcsr (s : State) :
    (fcsrOff s.cfg.xlen, leBytes 4 (s.fcsrValue.setWidth 64)) ∈ s.frameFields := by
  simp [State.frameFields, State.mcontextFields]

theorem mem_frameFields_ucontext {s : State} {f : Field} (h : f ∈ s.ucontextFields) : f ∈ s.frameFields := by
  simp [State.frameFields, h]

theorem mem_frameFields_vector {s : State} {f : Field} (h : f ∈ s.vectorFields) : f ∈ s.frameFields := by
  simp [State.frameFields, State.mcontextFields, h]

theorem mem_frameFields_infoAndTramp {s : State} {f : Field} (h : f ∈ s.infoAndTrampFields) : f ∈ s.frameFields := by
  simp [State.frameFields, h]

/-- The halves of the k-th vector register stand at places 2k and 2k+1. -/
theorem getElem_halves (l : List VWord) (k : Nat) (h : k < l.length) :
    (l.flatMap halves)[2 * k]'(by rw [length_halves]; omega) = l[k].extractLsb' 0 64 ∧
    (l.flatMap halves)[2 * k + 1]'(by rw [length_halves]; omega) = l[k].extractLsb' 64 64 := by
  induction l generalizing k with
  | nil => simp at h
  | cons v t ih =>
    cases k with
    | zero => simp [halves]
    | succ k =>
      have := ih k (by simpa using h)
      simpa [halves, Nat.mul_succ] using this

theorem mem_frameFields_vr (s : State) (hv : s.vActive = true) (k : RegIdx) :
    (vrOff s.cfg.xlen s.cfg.mcReserved + 16 * k.toNat, leBytes 8 ((s.readV k).extractLsb' 0 64)) ∈ s.frameFields ∧
    (vrOff s.cfg.xlen s.cfg.mcReserved + 16 * k.toNat + 8, leBytes 8 ((s.readV k).extractLsb' 64 64)) ∈
      s.frameFields := by
  have hlt := k.isLt
  have hl : k.toNat < s.vec.vr.toList.length := by simp; omega
  obtain ⟨h₁, h₂⟩ := getElem_halves s.vec.vr.toList k.toNat hl
  have e : s.vec.vr.toList[k.toNat] = s.readV k := by simp [State.readV]
  rw [e] at h₁ h₂
  constructor <;> refine mem_frameFields_vector ?_ <;> rw [State.vectorFields, if_pos hv, List.mem_append] <;>
    refine .inl (mem_wordsAt.mpr ?_)
  · exact ⟨2 * k.toNat, by rw [length_halves]; omega, by rw [h₁]; congr 1; omega⟩
  · exact ⟨2 * k.toNat + 1, by rw [length_halves]; omega, by rw [h₂]; congr 1; omega⟩

theorem mem_frameFields_vcsr (s : State) (hv : s.vActive = true) (k : Nat) (hk : k < 5) :
    (vcsrOff s.cfg.xlen s.cfg.mcReserved + k * s.cfg.xlen.bytes,
      leBytes s.cfg.xlen.bytes (s.vec.csrs[k]'(by simpa [VecState.csrs] using hk))) ∈ s.frameFields := by
  refine mem_frameFields_vector ?_
  rw [State.vectorFields, if_pos hv, List.mem_append]
  exact .inr (mem_wordsAt.mpr ⟨k, by simpa [VecState.csrs] using hk, by rw [Nat.mul_comm]⟩)

/-! ### Delivery -/

theorem State.frameAddr_fits (s : State) : s.Fits s.frameAddr := by
  unfold State.frameAddr
  simp only
  split
  · exact Xlen.trunc_ones _
  · exact s.cfg.xlen.trunc_and_left _ (Xlen.trunc_trunc _ _)

/-- A register after a delivery (43_signal_frame.md R295). -/
theorem State.readX_deliver (s : State) (frame : Word) (i : RegIdx) :
    (s.deliver frame).readX i =
      if i = 1 then (if s.cfg.hasTrampoline then frame else s.tr s.ops.req.restorer)
      else if i = 12 then s.tr (frame + BitVec.ofNat 64 ucOff)
      else if i = 11 then s.tr (frame + BitVec.ofNat 64 infoOff)
      else if i = 10 then s.ops.req.sig.setWidth 64
      else if i = 2 then frame
      else s.readX i := by
  simp only [State.deliver, State.readX_writeX]
  have h : ∀ r : RegIdx, r ≠ 0#5 → (i = r ∧ r ≠ 0#5 ↔ i = r) := fun r hr => and_iff_left hr
  simp only [h 1 (by decide), h 12 (by decide), h 11 (by decide), h 10 (by decide), h 2 (by decide)]
  rfl

/-- What a delivery leaves as it was (43_signal_frame.md R295). -/
theorem State.deliver_frame (s : State) (frame : Word) :
    s.deliver frame = { s with
      mem := writeFields s.mem frame.toNat s.frameFields
      x := (s.deliver frame).x
      pc := s.tr s.ops.req.handler
      blocked := s.ops.req.hmask } := by
  have h : ∀ (t : State) (r : RegIdx) (v : Word), t.writeX r v = { t with x := (t.writeX r v).x } := by
    intro t r v
    unfold State.writeX
    split <;> rfl
  have g : ∀ (t u : State), u = { t with x := u.x } → ∀ (r : RegIdx) (v : Word),
      u.writeX r v = { t with x := (u.writeX r v).x } := by
    intro t u hu r v
    rw [h u r v, hu]
  unfold State.deliver
  exact g _ _ (g _ _ (g _ _ (g _ _ (h _ _ _) _ _) _ _) _ _) _ _

/-- A cell of memory after a delivery is an old one or lies in the frame. -/
theorem Memory.mem_writeBytes {m : Memory} {a : Nat} {bs : List Byte} {c : Host.Cell} (h : c ∈ m.writeBytes a bs) :
    c ∈ m ∨ (a ≤ c.1 ∧ c.1 < a + bs.length) := by
  induction bs generalizing m a with
  | nil => exact .inl h
  | cons b t ih =>
    simp only [List.length_cons]
    rcases ih h with h | h
    · rcases Memory.mem_writeByte h with rfl | h
      · exact .inr ⟨by simp, by simp⟩
      · exact .inl h
    · exact .inr (by omega)

theorem mem_writeFields {m : Memory} {base lo hi : Nat} {fs : List Field} (hw : Within lo hi fs) {c : Host.Cell}
    (h : c ∈ writeFields m base fs) : c ∈ m ∨ (base + lo ≤ c.1 ∧ c.1 < base + hi) := by
  induction fs generalizing m with
  | nil => exact .inl h
  | cons f t ih =>
    obtain ⟨o, bs⟩ := f
    have hf := hw (o, bs) (by simp)
    simp only at hf
    rcases ih (fun g hg => hw g (by simp [hg])) h with h | h
    · rcases Memory.mem_writeBytes h with h | h
      · exact .inl h
      · exact .inr (by omega)
    · exact .inr h

/-- An admitted range lies inside the address space (20_memory.md R103). -/
theorem State.lock_bound {s : State} {a : Word} {n : Nat} {mode : LockMode} (h : s.lock a n mode = true) :
    a.toNat + n ≤ 2 ^ s.cfg.xlen.bits := by
  simp only [State.lock, Bool.and_eq_true, decide_eq_true_eq] at h
  exact h.1

/-- A delivery into an admitted frame keeps the invariant. -/
theorem State.Inv.deliver {s : State} (h : s.Inv) {frame : Word} (hf : s.Fits frame)
    (hl : s.lock frame s.frameSize .write = true) : (s.deliver frame).Inv := by
  have hreg := s.readX_deliver frame
  have hd := s.deliver_frame frame
  obtain ⟨c, p, rr, wd, mm, a⟩ := h
  have hcfg : (s.deliver frame).cfg = s.cfg := by rw [hd]
  have hpc : (s.deliver frame).pc = s.tr s.ops.req.handler := by rw [hd]
  refine ⟨c.congr (by rw [hd]) (by rw [hd]) (by rw [hd]), p.congr (by rw [hd]) (by rw [hd]) (by rw [hd]) (by rw [hd]),
    rr.congr (by rw [hd]) (by rw [hd]) (by rw [hd]) (by rw [hd]) (by rw [hd]) (by rw [hd]) (by rw [hd]) (by rw [hd])
      (by rw [hd]), ?_, ?_, a.congr (by rw [hd])⟩
  · refine wd.context hcfg (by rw [hd]) (by rw [hd]) (by rw [hd]) (by rw [hd]) (by rw [hd]) (by rw [hd]) (by rw [hd])
      (by rw [hd]) (by rw [hd]) (fun i => ?_) (by rw [hpc]; exact Xlen.trunc_trunc _ _) (by rw [hd]; exact wd.vstart)
      (by rw [hd]; exact wd.vl) (by rw [hd]; exact wd.vtype)
    rw [hreg i]
    split
    · split
      · exact hf
      · exact Xlen.trunc_trunc _ _
    · split
      · exact Xlen.trunc_trunc _ _
      · split
        · exact Xlen.trunc_trunc _ _
        · split
          · exact s.fits_setWidth _ (by decide)
          · split
            · exact hf
            · exact wd.x i
  · have hm : (s.deliver frame).mem = writeFields s.mem frame.toNat s.frameFields := by rw [hd]
    refine ⟨by rw [hm]; exact wf_writeFields mm.wf _ _, fun cell hc => ?_⟩
    rw [hm] at hc
    rw [hcfg]
    have := s.lock_bound hl
    rcases mem_writeFields (within_frameFields s) hc with hc | hc
    · exact mm.bound cell hc
    · omega

/-! ### Return -/

/-- The integer registers that a return restores (43_signal_frame.md R304). -/
theorem State.readX_restoreRegs (s : State) (frame : Word) (i : RegIdx) (hi : i ≠ 0) :
    (s.restoreRegs frame).readX i =
      s.frameLoad frame (pcOff s.cfg.xlen + s.cfg.xlen.bytes * i.toNat) s.cfg.xlen.bytes := by
  have h0 := RegIdx.toNat_ne_zero hi
  have hlt := i.isLt
  rw [State.readX_of_ne _ i hi (by omega)]
  simp only [State.restoreRegs, Vector.getElem_ofFn]
  rw [show i.toNat - 1 + 1 = i.toNat by omega]

/-- The shape of the state a return builds, for any values read. -/
theorem State.restoreContext_shape (s : State) (pc : Word) (xs : Vector Word 31) (fs : Vector (BitVec 64) 32)
    (w : BitVec 32) (rv : VecState) :
    let t := { s with pc := pc, x := xs, f := fs }.installFcsr w
    let u := if s.vActive then { t with vec := rv } else t
    u = { s with pc := pc, x := xs, f := fs, fflags := w.extractLsb' 0 5, frm := w.extractLsb' 5 3, vec := u.vec } ∧
      (s.vActive = true → u.vec = rv) ∧ (s.vActive = false → u.vec = s.vec) := by
  simp only
  cases hv : s.vActive with
  | true => exact ⟨rfl, fun _ => rfl, fun e => absurd e (by decide)⟩
  | false =>
    have hm : { s with pc := pc, x := xs, f := fs }.vxMirrorOn = false := by
      show (s.cfg.fcsrVxMirror && s.vActive) = false
      rw [hv, Bool.and_false]
    refine ⟨rfl, fun e => absurd e (by decide), fun _ => ?_⟩
    simp only [State.installFcsr, hm, Bool.false_eq_true, if_false]

/-- The state a return builds before it reinstalls the alternate stack. -/
theorem State.restoreContext_frame (s : State) (frame : Word) :
    s.restoreContext frame = { s with
      pc := s.frameLoad frame (pcOff s.cfg.xlen) s.cfg.xlen.bytes
      x := (s.restoreRegs frame).x
      f := (s.restoreRegs frame).f
      fflags := ((s.frameLoad frame (fcsrOff s.cfg.xlen) 4).setWidth 32).extractLsb' 0 5
      frm := ((s.frameLoad frame (fcsrOff s.cfg.xlen) 4).setWidth 32).extractLsb' 5 3
      vec := (s.restoreContext frame).vec } :=
  (State.restoreContext_shape s _ (s.restoreRegs frame).x (s.restoreRegs frame).f _ (s.restoredVec frame)).1

/-- Without V a return leaves the vector state as it was (10_state.md R58). -/
theorem State.restoreContext_vec_inactive {s : State} (hv : s.vActive = false) (frame : Word) :
    (s.restoreContext frame).vec = s.vec :=
  (State.restoreContext_shape s _ (s.restoreRegs frame).x (s.restoreRegs frame).f _ (s.restoredVec frame)).2.2 hv

theorem State.restoreContext_vec_active {s : State} (hv : s.vActive = true) (frame : Word) :
    (s.restoreContext frame).vec = s.restoredVec frame :=
  (State.restoreContext_shape s _ (s.restoreRegs frame).x (s.restoreRegs frame).f _ (s.restoredVec frame)).2.1 hv

/-- A return keeps the invariant (43_signal_frame.md R304, R305). -/
theorem State.Inv.restore {s : State} (h : s.Inv) (frame : Word) : (s.restore frame).Inv := by
  have hf := s.restoreContext_frame frame
  have hload : ∀ off, s.Fits (s.frameLoad frame off s.cfg.xlen.bytes) := fun off => trunc_load _ _ _
  have hcfg : (s.restoreContext frame).cfg = s.cfg := by rw [hf]
  have halt : (s.restoreContext frame).altstack = s.altstack := by rw [hf]
  have hpc : (s.restoreContext frame).pc = s.frameLoad frame (pcOff s.cfg.xlen) s.cfg.xlen.bytes := by rw [hf]
  have hx : (s.restoreContext frame).x = (s.restoreRegs frame).x := by rw [hf]
  have hvec : s.Fits (s.restoreContext frame).vec.vstart ∧ s.Fits (s.restoreContext frame).vec.vl ∧
      s.Fits (s.restoreContext frame).vec.vtype := by
    cases hv : s.vActive with
    | true =>
      rw [State.restoreContext_vec_active hv]
      exact ⟨hload _, hload _, hload _⟩
    | false =>
      rw [State.restoreContext_vec_inactive hv]
      exact ⟨h.width.vstart, h.width.vl, h.width.vtype⟩
  have hctx : (s.restoreContext frame).Inv := by
    obtain ⟨c, p, rr, wd, mm, a⟩ := h
    refine ⟨c.congr hcfg (by rw [hf]) (by rw [hf]), p.congr hcfg (by rw [hf]) (by rw [hf]) (by rw [hf]),
      rr.congr (by rw [hf]) (by rw [hf]) (by rw [hf]) (by rw [hf]) (by rw [hf]) (by rw [hf]) (by rw [hf]) (by rw [hf])
        (by rw [hf]), ?_, mm.congr hcfg (by rw [hf]), a.congr halt⟩
    refine wd.context hcfg (by rw [hf]) (by rw [hf]) (by rw [hf]) (by rw [hf]) (by rw [hf]) (by rw [hf]) (by rw [hf])
      (by rw [hf]) halt (fun i => ?_) (by rw [hpc]; exact hload _) hvec.1 hvec.2.1 hvec.2.2
    by_cases hi : i = 0
    · subst hi
      exact Xlen.trunc_zero _
    · rw [State.readX_congr hx, State.readX_restoreRegs _ _ _ hi]
      exact hload _
  unfold State.restore
  simp only
  refine State.Inv.altInstall ?_ _ ?_ ?_
  · obtain ⟨c, p, rr, wd, mm, a⟩ := hctx
    exact ⟨c.congr, p.congr, rr.congr, wd.congr, mm.congr, a.congr⟩
  · simp only [State.Fits, State.tr, hcfg]
    exact hload _
  · simp only [State.Fits, State.tr, hcfg]
    exact hload _

/-! ### The two commands -/

/-- A delivery with a good signal number and an admitted frame completes (43_signal_frame.md R290). -/
theorem execSigSetup_admitted {s : State} (hg : s.ops.req.sigOk = true)
    (hl : s.lock s.frameAddr s.frameSize .write = true) :
    execSigSetup s = .next ((s.deliver s.frameAddr).respond .ok) := by
  unfold execSigSetup
  rw [if_pos hg, if_pos hl]

/-- A return from an admitted frame completes (43_signal_frame.md R300). -/
theorem execSigReturn_admitted {s : State} (hl : s.lock (s.readX 2) s.frameSize .read = true) :
    execSigReturn s = .next ((s.restore (s.readX 2)).respond .sigreturned) := by
  unfold execSigReturn
  exact if_pos hl

end Sys2Proof.Machine
end

