-- ==== Sys2Proof/Tests/Slice0.lean ====
section
/-! SUPPORT. Tests: the checks of WellFormed, one word per constructor written out bit by bit from 30_encoding.md, one
step per instruction with results of 95_test_vectors.md (its row is named in each comment), and for each statement of
Certificates/Slice0/Obligations.lean with hypotheses a state and operands that meet them. -/

namespace Sys2Proof.Tests

open Sys2Proof.Machine

set_option Elab.async false

/-! ### Configurations and states (95_test_vectors.md, section 1) -/

/-- The memory map of the signal rows: a stack page below 0x7FFF0000, and an alternate stack. -/
def twoRegions : List Region := [⟨0x7FFEF000, 0x1000, true, true⟩, ⟨0x40000000, 0x4000, true, true⟩]

def k1 : Config := defaultConfig
def k2 : Config := { k1 with misa := 0x8000000000141129, env := .user, regions := twoRegions }
def k3 : Config := { k2 with misa := 0x40141129, xlen := .rv32 }
def k4 : Config := { k1 with env := .user, regions := twoRegions }
def k5 : Config := { k1 with vtypeLayout := .v10, fcsrVxMirror := false }
def k6 : Config := { k1 with misa := 0x8000000000101129 }

/-- Reset of a configuration; in a user environment with entry 0x10000 and stack pointer 0x7FFF0000. -/
def boot (c : Config) : State := State.resetOf c { Launch.zero with entry := 0x10000, sp0 := 0x7FFF0000 } Draws.zero

/-- The state with the operands A and B on its ports. -/
def ab (s : State) (a b : Word) : State := { s with ops := { s.ops with a := a, b := b } }

/-- The state with a signal request on its port. -/
def request (s : State) (sig : BitVec 8) (onstack : Bool) : State :=
  { s with ops := { s.ops with
      req := { SigReq.zero with sig := sig, handler := 0x10200, onstack := onstack, hmask := 0x200 } } }

/-- The state with one transaction waiting, whose operands are those on the ports. -/
def waiting (ch : Channel) (w : BitVec 32) (s : State) : State := { s with inbox := [⟨ch, w, s.ops⟩] }

/-- The state after a step, if the step gives one. -/
def next? (r : Host.Outcome State Fault Refusal) : Option State :=
  match r with
  | .next t => some t
  | .fault _ => none
  | .refused _ => none

/-- The refusal a step ends in, if it ends in one. -/
def refusal? (r : Host.Outcome State Fault Refusal) : Option Refusal :=
  match r with
  | .next _ => none
  | .fault _ => none
  | .refused e => some e

/-- One command with operands A and B. -/
def cmd (w : BitVec 32) (s : State) (a b : Word := 0) : Option State := next? (step (waiting .command w (ab s a b)))

/-- One command with the operands that are on the ports. -/
def cmd' (w : BitVec 32) (s : State) : Option State := next? (step (waiting .command w s))

/-- One guest word. -/
def guest (w : BitVec 32) (s : State) : Option State := next? (step (waiting .guest w s))

/-- DOUT after a step. -/
def dout (r : Option State) : Option (BitVec 64) := r.map (·.resp.dout)

/-- K1 with FS = 1. -/
def fpOn : State := { boot k1 with mstatus := { (boot k1).mstatus with fs := 1 } }

/-- K1 in S. -/
def inS : State := { boot k1 with priv := .s }

/-- K1 in U. -/
def inU : State := { boot k1 with priv := .u }

/-- K2 with the alternate stack at 0x40000000, 16 KiB. -/
def withAlt : State := { boot k2 with altstack := ⟨0x40000000, 0x4000⟩ }

/-! ### WellFormed -/

theorem test_wf_every_configuration : [k1, k2, k3, k4, k5, k6].all Config.wf = true := by decide

/-- misa of rv32 (MXL = 1) is no misa of rv64, and a bit between the letters and MXL is none at all. -/
theorem test_wf_refuses_misa :
    ({ k1 with misa := 0x40141129 } : Config).misaOk = false ∧
    ({ k1 with misa := 0x8000000004141129 } : Config).misaOk = false ∧
    ({ k3 with misa := 0x8000000000141129 } : Config).misaOk = false ∧
    ({ k1 with misa := 0x40141129 } : Config).wf = false := by decide

theorem test_wf_refuses_s_without_u :
    ({ k1 with misa := 0x8000000000041129 } : Config).modesOk = false ∧
    ({ k1 with misa := 0x8000000000041129 } : Config).wf = false := by decide

theorem test_wf_refuses_user_without_u :
    ({ k2 with misa := 0x8000000000001129 } : Config).modesOk = false ∧
    ({ k2 with misa := 0x8000000000001129 } : Config).wf = false := by decide

/-- RESET_ZERO without U, where the MPP of 0 is no legal privilege; without RESET_ZERO a configuration needs no U. -/
theorem test_wf_refuses_reset_zero_without_u :
    ({ k1 with misa := 0x8000000000001129 } : Config).modesOk = false ∧
    ({ k1 with misa := 0x8000000000001129, resetZero := false } : Config).wf = true := by decide

theorem test_wf_refuses_wide_reset_vector :
    ({ k3 with resetVector := 0x100000000 } : Config).resetVectorOk = false ∧
    ({ k3 with resetVector := 0x100000000 } : Config).wf = false := by decide

/-- A code left out, and a code twice. -/
theorem test_wf_refuses_irq_priority :
    ({ k1 with irqPriority := [11, 3, 7, 9, 1] } : Config).irqPriorityOk = false ∧
    ({ k1 with irqPriority := [11, 3, 7, 9, 1, 1] } : Config).irqPriorityOk = false ∧
    ({ k1 with irqPriority := [11, 3, 7, 9, 1, 1] } : Config).wf = false := by decide

/-- An index with two descriptors. -/
theorem test_wf_refuses_csr_twice :
    ({ k1 with csrTable := (0x300, csrReadOnly "again" .any (.const 0)) :: baselineCsrTable } : Config).csrTableOk = false
    := by decide

/-- A vector handler outside the vector predicate: a read, a write and a combined handler. -/
theorem test_wf_refuses_csr_without_guard :
    (csrReadOnly "vl" .any .vl).wf = false ∧
    ({ name := "vstart", pred := none, read := none, write := some .vstart, rmw := none } : CsrDescriptor).wf = false ∧
    (csrCombined "sip" .any .sip).wf = false ∧
    ({ k1 with csrTable := [(0xC20, csrReadOnly "vl" .any .vl)] } : Config).wf = false := by decide

/-- An instruction whose unit the configuration has not: V, S, or a system environment. -/
theorem test_wf_refuses_instructions :
    (Instr.vrRd 0).wf k2 = false ∧ (Instr.vrWr 0).wf k2 = false ∧ Instr.vcfgWr.wf k2 = false ∧
    Instr.sret.wf k6 = false ∧ Instr.sret.wf k2 = false ∧ Instr.mret.wf k2 = false := by decide

/-! ### Words, as ARG, LVL, CSR, RIDX, OP (30_encoding.md R132, R133), unused fields not 0 where a constructor keeps none -/

theorem test_decode_gprRd : decode .command 0b00000000_00_000000000000_11111_00001#32 = .ok (.gprRd 31) := by decide
theorem test_decode_gprWr : decode .command 0b00000000_00_000000000000_00101_00010#32 = .ok (.gprWr 5) := by decide
theorem test_decode_fprRd : decode .command 0b00000000_00_000000000000_00110_00011#32 = .ok (.fprRd 6) := by decide
theorem test_decode_fprWr : decode .command 0b00000000_00_000000000000_10000_00100#32 = .ok (.fprWr 16) := by decide
theorem test_decode_vrRd : decode .command 0b00000000_00_000000000000_00001_00101#32 = .ok (.vrRd 1) := by decide
theorem test_decode_vrWr : decode .command 0b11111111_11_111111111111_01000_00110#32 = .ok (.vrWr 8) := by decide
theorem test_decode_pcRd : decode .command 0b00000000_00_000000000000_00000_00111#32 = .ok .pcRd := by decide
theorem test_decode_pcWr : decode .command 0b00000000_00_000000000000_00000_01000#32 = .ok .pcWr := by decide
theorem test_decode_privRd : decode .command 0b10000001_10_100000000001_10001_01001#32 = .ok .privRd := by decide
theorem test_decode_extQ : decode .command 0b00010101_00_000000000000_00000_01010#32 = .ok (.extQ 21) := by decide
theorem test_decode_featQ : decode .command 0b00000001_00_000000000000_00000_01011#32 = .ok (.featQ 1) := by decide
theorem test_decode_csrRmw : decode .command 0b00000000_00_001101000100_00000_01100#32 = .ok (.csrRmw 0x344) := by decide
theorem test_decode_csrRd : decode .command 0b00000000_00_110000100000_00000_01101#32 = .ok (.csrRd 0xC20) := by decide
theorem test_decode_csrWr : decode .command 0b00000000_00_001100000000_00000_01110#32 = .ok (.csrWr 0x300) := by decide
theorem test_decode_vlmax : decode .command 0b00000000_00_000000000000_00000_01111#32 = .ok .vlmax := by decide
theorem test_decode_vcfgWr : decode .command 0b00000000_00_000000000000_00000_10000#32 = .ok .vcfgWr := by decide
theorem test_decode_trap : decode .command 0b00000000_00_000000000000_00000_10001#32 = .ok .trap := by decide
theorem test_decode_irqPend : decode .command 0b00000000_00_000000000000_00000_10010#32 = .ok .irqPend := by decide
theorem test_decode_ipUpdate : decode .command 0b00000000_00_000000000000_00000_10011#32 = .ok .ipUpdate := by decide
theorem test_decode_mret : decode .command 0b00000000_11_000000000000_00000_10100#32 = .ok .mret := by decide
theorem test_decode_sret : decode .command 0b00000000_01_000000000000_00000_10100#32 = .ok .sret := by decide
theorem test_decode_sigSetup : decode .command 0b00000000_00_000000000000_00000_10101#32 = .ok .sigSetup := by decide
theorem test_decode_sigReturn : decode .command 0b00000000_00_000000000000_00000_10110#32 = .ok .sigReturn := by decide
theorem test_decode_maskRd : decode .command 0b00000000_00_000000000000_00000_10111#32 = .ok .maskRd := by decide
theorem test_decode_maskWr : decode .command 0b00000000_00_000000000000_00000_11000#32 = .ok .maskWr := by decide
theorem test_decode_altRd : decode .command 0b00000010_00_000000000000_00000_11001#32 = .ok (.altRd 2) := by decide
theorem test_decode_altSet : decode .command 0b00000010_00_000000000000_00000_11010#32 = .ok (.altSet 2) := by decide

/-- R134: the reserved operations and the reserved levels of XRET. -/
theorem test_decode_reserved :
    decode .command 0b00000000_00_000000000000_00000_00000#32 = .error .reservedOp ∧
    decode .command 0b00000000_00_000000000000_00000_11011#32 = .error .reservedOp ∧
    decode .command 0b00000000_00_000000000000_00000_11111#32 = .error .reservedOp ∧
    decode .command 0b00000000_10_000000000000_00000_10100#32 = .error .reservedLevel ∧
    decode .command 0b00000000_00_000000000000_00000_10100#32 = .error .reservedLevel := by decide

/-! Guest words, as csr, rs1 or uimm, funct3, rd, opcode (R141), and the two trampoline words (R142). -/

theorem test_decode_csrrw :
    decode .guest 0b001100000000_00010_001_00001_1110011#32 = .ok (.csrrw 1 2 0x300) := by decide
theorem test_decode_csrrs :
    decode .guest 0b001100000100_00011_010_00101_1110011#32 = .ok (.csrrs 5 3 0x304) := by decide
theorem test_decode_csrrc :
    decode .guest 0b001100000100_11111_011_00000_1110011#32 = .ok (.csrrc 0 31 0x304) := by decide
theorem test_decode_csrrwi :
    decode .guest 0b000000000001_10001_101_01010_1110011#32 = .ok (.csrrwi 10 17 0x001) := by decide
theorem test_decode_csrrsi :
    decode .guest 0b001101000100_11111_110_00000_1110011#32 = .ok (.csrrsi 0 31 0x344) := by decide
theorem test_decode_csrrci :
    decode .guest 0b001101000100_00001_111_00110_1110011#32 = .ok (.csrrci 6 1 0x344) := by decide
theorem test_decode_trampLiA7 :
    decode .guest 0b000010001011_00000_000_10001_0010011#32 = .ok .trampLiA7 := by decide
theorem test_decode_trampEcall :
    decode .guest 0b000000000000_00000_000_00000_1110011#32 = .ok .trampEcall := by decide

/-- ebreak and funct3 = 4 are no words of the table. -/
theorem test_decode_other_guest_words :
    decode .guest 0b000000000001_00000_000_00000_1110011#32 = .error .otherGuestWord ∧
    decode .guest 0b001100000000_00010_100_00001_1110011#32 = .error .otherGuestWord := by decide

/-! ### One step of each instruction -/

/-- Row G2: x0 reads 0 after a write of it. -/
theorem test_gprWr_x0 : dout ((cmd 0x02#32 (boot k1) 7).bind fun s => cmd 0x01#32 s) = some 0 := by decide +kernel
/-- Row G5: the write keeps XLEN bits. -/
theorem test_gprWr_truncates : (cmd 0x22#32 (boot k3) 0xFFFFFFFF00000005).map (·.readX 1) = some 5 := by decide +kernel
/-- Row R8: the unused fields of the word are ignored. -/
theorem test_gprRd : dout (cmd 0x1FFCA1#32 ((boot k1).writeX 5 9)) = some 9 := by decide +kernel
/-- Row G6: no NaN box is made or checked. -/
theorem test_fprWr : (cmd 0x04#32 (boot k1) 0xFFFFFFFF3F800000).map (·.readF 0) = some 0xFFFFFFFF3F800000 := by decide +kernel
/-- R176: all 64 bits, also where XLEN is 32. -/
theorem test_fprRd : dout (cmd 0x03#32 ((boot k3).writeF 0 0x1122334455667788)) = some 0x1122334455667788 := by decide +kernel
/-- Row G8. -/
theorem test_vrWr :
    (cmd' 0x26#32 { boot k1 with ops := { (boot k1).ops with w := 0x000102030405060708090A0B0C0D0E0F } }).map (·.readV 1)
      = some 0x000102030405060708090A0B0C0D0E0F := by decide +kernel
/-- Row G8, and row G9: refused without V. -/
theorem test_vrRd :
    (cmd 0x25#32 ((boot k1).writeV 1 0x0F)).map (·.resp.wout) = some 0x0F ∧
    refusal? (step (waiting .command 0x25#32 (boot k2))) = some .vectorInactive := by decide +kernel
/-- Row G12: pc is RESET_VECTOR after reset. -/
theorem test_pcRd : dout (cmd 0x07#32 (boot k1)) = some 0x80000000 := by decide +kernel
/-- Row G11: an odd pc is stored. -/
theorem test_pcWr : (cmd 0x08#32 (boot k1) 0x80000003).map (·.pc) = some 0x80000003 := by decide +kernel
/-- Rows G13, G14. -/
theorem test_privRd : dout (cmd 0x09#32 (boot k1)) = some 3 ∧ dout (cmd 0x09#32 (boot k2)) = some 0 := by decide +kernel
/-- Rows G15, G16: V. -/
theorem test_extQ : dout (cmd 0x1500000A#32 (boot k1)) = some 1 ∧ dout (cmd 0x1500000A#32 (boot k2)) = some 0 := by decide +kernel
/-- Row G18: misa has no letter 30, though bit 30 of misa may be set. -/
theorem test_extQ_beyond_the_letters : dout (cmd 0x1E00000A#32 (boot k3)) = some 0 := by decide +kernel
/-- Rows G19, G20, G21. -/
theorem test_featQ :
    dout (cmd 0x0000000B#32 (boot k1)) = some 0 ∧ dout (cmd 0x0100000B#32 (boot k1)) = some 1 ∧
    dout (cmd 0x0500000B#32 (boot k1)) = some 0 := by decide +kernel
/-- Row C5: mie keeps the implemented bits, and the old value is returned. -/
theorem test_csrRmw :
    (cmd 0xC100C#32 { boot k1 with mie := 0x888 } (-1) (-1)).map (fun t => (t.resp.dout, t.mie)) = some (0x888, 0xAAA)
    := by decide +kernel
/-- Row C37: sip lets only a delegated SSIP be written. -/
theorem test_csrRmw_sip :
    (cmd 0x5100C#32 { boot k1 with mideleg := 0x222 } (-1) (-1)).map (fun t => (t.resp.dout, t.mip)) = some (0, 2)
    := by decide +kernel
/-- Row C42: sstatus shows SIE and FS, not MIE and MPP. -/
theorem test_csrRd :
    dout (cmd 0x4000D#32 { boot k1 with mstatus := { Mstatus.zero with sie := true, mie := true, mpp := .m, fs := 1 } })
      = some 0x2002 := by decide +kernel
/-- Rows C1, C17: no descriptor, and a mode that is too low. -/
theorem test_csrRd_illegal :
    (cmd 0x1FFC0D#32 (boot k1)).map (·.resp) = some Response.illegal ∧
    (cmd 0xC000D#32 inU).map (·.resp) = some Response.illegal := by decide +kernel
/-- Row C9: fcsr writes all its fields and dirties FS. -/
theorem test_csrWr :
    (cmd 0xC0E#32 fpOn 0x7FF).map (fun t => (t.fflags, t.frm, t.vec.vxsat, t.vec.vxrm, t.mstatus.fs))
      = some (0x1F, 7, 1, 3, 3) := by decide +kernel
/-- Row C26: MPP keeps its value when S is not there. -/
theorem test_csrWr_mstatus :
    (cmd 0xC000E#32 { boot k6 with mstatus := { Mstatus.zero with mpp := .m } } 0x800).map (·.mstatus.mpp) = some .m
    := by decide +kernel
/-- 95_test_vectors.md, the vlmax rows for V071: vtype 4 gives 8, and 0x1C shifts everything out. -/
theorem test_vlmax : dout (cmd 0x0F#32 (boot k1) 4) = some 8 ∧ dout (cmd 0x0F#32 (boot k2) 0x1C) = some 0 := by decide +kernel
/-- 95_test_vectors.md, the vlmax rows for V10: vlmul 7 is minus 1, vlmul 5 is minus 3. -/
theorem test_vlmax_fractional :
    dout (cmd 0x0F#32 (boot k5) 7) = some 8 ∧ dout (cmd 0x0F#32 (boot k5) 5) = some 2 := by decide +kernel
/-- Row G23: any vl and any vtype are stored. -/
theorem test_vcfgWr :
    (cmd 0x10#32 (boot k1) 1000 0x8000000000000007).map (fun t => (t.vec.vl, t.vec.vtype))
      = some (1000, 0x8000000000000007) := by decide +kernel
/-- Row T1. -/
theorem test_trap :
    (cmd 0x11#32 { inU with medeleg := 0x100, stvec := 0x80001000, pc := 0x10074, mstatus := { inU.mstatus with sie := true } }
      8).map (fun t => (t.scause, t.sepc, t.mstatus, t.priv, t.pc))
      = some (8, 0x10074, { inU.mstatus with spp := false, spie := true, sie := false }, .s, 0x80001000) := by decide +kernel
/-- Row T7: a vectored interrupt. -/
theorem test_trap_vectored :
    (cmd 0x11#32 { boot k1 with mtvec := 0x80000001 } 0x8000000000000007 0x55).map (fun t => (t.pc, t.mtval))
      = some (0x8000001C, 0) := by decide +kernel
/-- Row I5: MEI comes before MSI and MTI. -/
theorem test_irqPend :
    dout (cmd 0x12#32 { boot k1 with mip := 0x888, mie := 0x888, mstatus := { (boot k1).mstatus with mie := true } })
      = some 0x800000000000000B := by decide +kernel
/-- Row I7: a delegated interrupt with SIE = 0 is no candidate in S. -/
theorem test_irqPend_disabled :
    dout (cmd 0x12#32 { inS with mip := 0x20, mie := 0x20, mideleg := 0x20 }) = some 0 := by decide +kernel
/-- 42_trap_ops.md R264: the implemented bits only. -/
theorem test_ipUpdate :
    (cmd 0x13#32 (boot k1) 0xFFFF 0xFFFF).map (·.mip) = some 0xAAA ∧
    (cmd 0x13#32 { boot k1 with mip := 0x80 } 0x80 0).map (·.mip) = some 0 := by decide +kernel
/-- Row T14. -/
theorem test_mret :
    (cmd 0xC00014#32 { boot k1 with mepc := 0x80000100, mstatus := { Mstatus.zero with mpie := true } }).map
      (fun t => (t.priv, t.mstatus.mie, t.mstatus.mpie, t.mstatus.mpp, t.pc)) = some (.u, true, true, .u, 0x80000100)
    := by decide +kernel
/-- 60_exceptions.md R360: priv becomes what MPP holds, S and M as well. -/
theorem test_mret_modes :
    (cmd 0xC00014#32 { boot k1 with mstatus := { Mstatus.zero with mpp := .s } }).map (·.priv) = some .s ∧
    (cmd 0xC00014#32 { boot k1 with mstatus := { Mstatus.zero with mpp := .m } }).map (fun t => (t.priv, t.mstatus.mpp))
      = some (.m, .u) := by decide +kernel
/-- Row T16: refused outside M. -/
theorem test_mret_refused : refusal? (step (waiting .command 0xC00014#32 inS)) = some .xretPrivilege := by decide +kernel
/-- Row T17. -/
theorem test_sret :
    (cmd 0x400014#32 { inS with sepc := 0x80200100, mstatus := { Mstatus.zero with spp := true, spie := true } }).map
      (fun t => (t.priv, t.mstatus.sie, t.mstatus.spie, t.mstatus.spp, t.pc)) = some (.s, true, true, false, 0x80200100)
    := by decide +kernel
/-- Rows T19, T20: refused in U, and without S. -/
theorem test_sret_refused :
    refusal? (step (waiting .command 0x400014#32 inU)) = some .xretPrivilege ∧
    refusal? (step (waiting .command 0x400014#32 (boot k6))) = some .xretPrivilege := by decide +kernel
/-- Row S1. -/
theorem test_sigSetup :
    (cmd' 0x15#32 (request (boot k2) 10 false)).map
      (fun t => (t.pc, t.readX 1, t.readX 2, t.readX 10, t.readX 11, t.readX 12, t.blocked))
      = some (0x10200, 0x7FFEFCB0, 0x7FFEFCB0, 10, 0x7FFEFCB8, 0x7FFEFD40, 0x200) := by decide +kernel
/-- Row S6: the frame would overflow the alternate stack, and the signal is SIGSEGV. -/
theorem test_sigSetup_overflow :
    (cmd' 0x15#32 (request (withAlt.writeX 2 0x40000100) 11 true)).map
      (fun t => (t.resp.status, t.resp.forceSig, t.resp.resetDisp, t.readX 2))
      = some (.frameFault, some 11, some 11, 0x40000100) := by decide +kernel
/-- Row S14: the return after row S1. -/
theorem test_sigReturn :
    ((cmd' 0x15#32 (request (boot k2) 10 false)).bind fun t => cmd' 0x16#32 t).map
      (fun t => (t.resp.status, t.pc, t.readX 2, t.readX 10, t.blocked))
      = some (.sigreturn, 0x10000, 0x7FFF0000, 0, 0) := by decide +kernel
/-- Row S15: no frame at x2. -/
theorem test_sigReturn_fault :
    (cmd' 0x16#32 ((boot k2).writeX 2 0x1000)).map (fun t => (t.resp.status, t.resp.forceSig, t.resp.resetDisp))
      = some (.frameFault, some 11, none) := by decide +kernel
/-- 43_signal_frame.md R310. -/
theorem test_maskRd : dout (cmd 0x17#32 { boot k2 with blocked := 0x200 }) = some 0x200 := by decide +kernel
/-- 43_signal_frame.md R311: 64 bits, also where XLEN is 32. -/
theorem test_maskWr : (cmd 0x18#32 (boot k3) (-1)).map (·.blocked) = some (-1) := by decide +kernel
/-- Rows M4, M6: disabled, and on the stack. -/
theorem test_altRd :
    dout (cmd 0x02000019#32 (boot k2)) = some 2 ∧
    dout (cmd 0x02000019#32 (withAlt.writeX 2 0x40001000)) = some 1 := by decide +kernel
/-- Row M13: the stack's end is outside it, its start inside. -/
theorem test_altRd_ends :
    dout (cmd 0x02000019#32 (withAlt.writeX 2 0x40004000)) = some 0 ∧
    dout (cmd 0x02000019#32 (withAlt.writeX 2 0x40000000)) = some 1 := by decide +kernel
/-- Rows M5, M8: installed, and too small. -/
theorem test_altSet :
    (cmd 0x0000001A#32 (boot k2) 0x40000000 0x4000).map (fun t => (t.resp.dout, t.altstack)) = some (0, ⟨0x40000000, 0x4000⟩) ∧
    (cmd 0x0000001A#32 (boot k2) 0x40000000 100).map (fun t => (t.resp.dout, t.altstack)) = some (2, ⟨0, 0⟩) := by decide +kernel
/-- Row M7: refused on the stack. -/
theorem test_altSet_on_stack :
    (cmd 0x0000001A#32 (withAlt.writeX 2 0x40001000) 0x50000000 0x4000).map (fun t => (t.resp.dout, t.altstack))
      = some (1, ⟨0x40000000, 0x4000⟩) := by decide +kernel
/-- 30_encoding.md R141: rs1 is read before rd is written: csrrw x1, mtval, x1. -/
theorem test_csrrw :
    (guest 0b001101000011_00001_001_00001_1110011#32 { (boot k1).writeX 1 5 with mtval := 7 }).map
      (fun t => (t.readX 1, t.mtval)) = some (7, 5) := by decide +kernel
/-- 60_exceptions.md R358: csrrw on an index without a descriptor raises illegal instruction and writes no rd. -/
theorem test_csrrw_illegal :
    (guest 0b011111111111_00001_001_00001_1110011#32 ((boot k1).writeX 1 5)).map (fun t => (t.readX 1, t.mcause, t.mepc))
      = some (5, 2, 0x80000000) := by decide +kernel
/-- 30_encoding.md R141: csrrs x0, mtval, x2. -/
theorem test_csrrs :
    (guest 0b001101000011_00010_010_00000_1110011#32 { (boot k1).writeX 2 5 with mtval := 8 }).map
      (fun t => (t.readX 0, t.mtval)) = some (0, 13) := by decide +kernel
/-- 30_encoding.md R141: csrrs x3, vl, x0 does not write, so vl may be read. -/
theorem test_csrrs_reads_vl :
    (guest 0b110000100000_00000_010_00011_1110011#32 { boot k1 with vec := { VecState.zero with vl := 8 } }).map
      (fun t => (t.readX 3, t.vec.vl)) = some (8, 8) := by decide +kernel
/-- 30_encoding.md R141: csrrc x3, mtval, x2. -/
theorem test_csrrc :
    (guest 0b001101000011_00010_011_00011_1110011#32 { (boot k1).writeX 2 5 with mtval := 13 }).map
      (fun t => (t.readX 3, t.mtval)) = some (13, 8) := by decide +kernel
/-- 30_encoding.md R141: csrrwi x3, mtval, 31. -/
theorem test_csrrwi :
    (guest 0b001101000011_11111_101_00011_1110011#32 { boot k1 with mtval := 13 }).map
      (fun t => (t.readX 3, t.mtval)) = some (13, 31) := by decide +kernel
/-- 30_encoding.md R141: csrrsi x3, mtval, 2. -/
theorem test_csrrsi :
    (guest 0b001101000011_00010_110_00011_1110011#32 { boot k1 with mtval := 13 }).map
      (fun t => (t.readX 3, t.mtval)) = some (13, 15) := by decide +kernel
/-- 30_encoding.md R141: csrrci x3, mtval, 12. -/
theorem test_csrrci :
    (guest 0b001101000011_01100_111_00011_1110011#32 { boot k1 with mtval := 13 }).map
      (fun t => (t.readX 3, t.mtval)) = some (13, 1) := by decide +kernel
/-- 30_encoding.md R142. -/
theorem test_trampLiA7 : (guest 0x08B00893#32 (boot k1)).map (·.readX 17) = some 139 := by decide +kernel
/-- 60_exceptions.md R345, R356: an environment call from U, in a system and in a user environment. -/
theorem test_trampEcall :
    (guest 0x00000073#32 { inU with medeleg := 0x100 }).map (fun t => (t.scause, t.priv)) = some (8, .s) ∧
    (guest 0x00000073#32 (boot k2)).map (fun t => (t.resp.causeOut, t.pc)) = some (some 8, 0x10000) := by decide +kernel

/-! ### Witnesses: for each statement with hypotheses, a state and operands that meet all of them together -/

/-- The invariant, as a check that can be evaluated. -/
def invOk (s : State) : Bool :=
  decide (s.cfg.wf = true ∧ s.misa = s.cfg.misa ∧ s.features = s.cfg.features)
  && decide (s.priv.legal s.misa = true ∧ s.mstatus.mpp.legal s.misa = true ∧ (s.cfg.env = .user → s.priv = .u)
      ∧ (misaHas s.misa Ext.S = false → s.mstatus.sie = false ∧ s.mstatus.spie = false ∧ s.mstatus.spp = false)
      ∧ (misaFp s.misa = false → s.mstatus.fs = match s.cfg.env with | .system => 0 | .user => 1))
  && decide (s.mie &&& ~~~implementedIrqs s.misa = 0 ∧ s.mip &&& ~~~implementedIrqs s.misa = 0
      ∧ s.medeleg &&& ~~~medelegMask = 0 ∧ s.mideleg &&& ~~~midelegMask = 0
      ∧ tvecLegal s.mtvec = true ∧ tvecLegal s.stvec = true
      ∧ s.mepc &&& ~~~epcMask s.misa = 0 ∧ s.sepc &&& ~~~epcMask s.misa = 0)
  && decide ((∀ i : RegIdx, s.Fits (s.readX i)) ∧ s.Fits s.pc ∧ s.Fits s.mtvec ∧ s.Fits s.mepc ∧ s.Fits s.mcause
      ∧ s.Fits s.mtval ∧ s.Fits s.stvec ∧ s.Fits s.sepc ∧ s.Fits s.scause ∧ s.Fits s.stval ∧ s.Fits s.vec.vstart
      ∧ s.Fits s.vec.vl ∧ s.Fits s.vec.vtype ∧ s.Fits s.altstack.ssSp ∧ s.Fits s.altstack.ssSize)
  && decide (s.mem.wf ∧ ∀ c ∈ s.mem, c.1 < 2 ^ s.cfg.xlen.bits)
  && decide (s.altstack = ⟨0, 0⟩ ∨ MINSIGSTKSZ ≤ s.altstack.ssSize.toNat)

/-- A state that passes the check meets the invariant. -/
theorem inv_of_check {s : State} (h : invOk s = true) : s.Inv := by
  simp only [invOk, Bool.and_eq_true, decide_eq_true_eq] at h
  obtain ⟨⟨⟨⟨⟨⟨h1, h2, h3⟩, p1, p2, p3, p4, p5⟩, r1, r2, r3, r4, r5, r6, r7, r8⟩,
    w0, w1, w2, w3, w4, w5, w6, w7, w8, w9, w10, w11, w12, w13, w14⟩, m1, m2⟩, a⟩ := h
  exact ⟨⟨h1, h2, h3⟩, ⟨p1, p2, p3, p4, p5⟩, ⟨r1, r2, r3, r4, r5, r6, r7, r8⟩,
    ⟨w0, w1, w2, w3, w4, w5, w6, w7, w8, w9, w10, w11, w12, w13, w14⟩, ⟨m1, m2⟩, a⟩

theorem inv_k1 (a b : Word) : (ab (boot k1) a b).Inv := by
  have h : (boot k1).Inv := inv_of_check (by decide +kernel)
  obtain ⟨c, p, r, w, m, t⟩ := h
  exact ⟨c.congr, p.congr, r.congr, w.congr, m.congr, t.congr⟩

/-- Each operation with every other bit of the word set, and the two levels of XRET. -/
theorem witness_CommandWordsFollowTheOperationMap :
    (∀ k : Fin 27, (0xFFFFFFE0#32 ||| BitVec.ofNat 32 k.val).toNat % 32 = k.val) ∧
    (0xFFFFFFF4#32).toNat / 4194304 % 4 = 3 ∧ (0xFF7FFFF4#32).toNat / 4194304 % 4 = 1 := by decide

/-- Each funct3 with the other fields all zero and all one; a word that decodes. -/
theorem witness_GuestWordsFollowTheZicsrTable :
    (∀ k : Fin 8,
      (0x00000073#32 ||| BitVec.ofNat 32 (4096 * k.val)).toNat % 128 = 0b1110011 ∧
      (0x00000073#32 ||| BitVec.ofNat 32 (4096 * k.val)).toNat / 4096 % 8 = k.val ∧
      (0xFFFF8FF3#32 ||| BitVec.ofNat 32 (4096 * k.val)).toNat % 128 = 0b1110011 ∧
      (0xFFFF8FF3#32 ||| BitVec.ofNat 32 (4096 * k.val)).toNat / 4096 % 8 = k.val) ∧
    decode .guest 0xFFFF9FF3#32 = .ok (.csrrw 31 31 0xFFF) := by decide

/-- OP 0, 0x1B and 0x1F, and XRET with LVL 0 and 2, at the head of a queue. -/
theorem witness_ReservedCommandWordsAreRefused :
    (∀ w : BitVec 32, (waiting .command w (boot k1)).inbox = ⟨.command, w, (boot k1).ops⟩ :: []) ∧
    (0xFFFFFFE0#32).toNat % 32 = 0 ∧ 0x1B ≤ (0x0000001B#32).toNat % 32 ∧ 0x1B ≤ (0xFFFFFFFF#32).toNat % 32 ∧
    (0xFF3FFFF4#32).toNat % 32 = 0x14 ∧ (0xFF3FFFF4#32).toNat / 4194304 % 4 = 0 ∧
    (0xFFBFFFF4#32).toNat % 32 = 0x14 ∧ (0xFFBFFFF4#32).toNat / 4194304 % 4 = 2 := ⟨fun _ => rfl, by decide⟩

/-- A word that decodes, a word that does not, and an empty queue. -/
theorem witness_StepRunsTheDecodedInstruction :
    (waiting .command 0xA1#32 (boot k1)).inbox = ⟨.command, 0xA1#32, (boot k1).ops⟩ :: [] ∧
    decode .command 0xA1#32 = .ok (.gprRd 5) ∧
    (waiting .guest 0x00100073#32 (boot k1)).inbox = ⟨.guest, 0x00100073#32, (boot k1).ops⟩ :: [] ∧
    decode .guest 0x00100073#32 = .error .otherGuestWord ∧
    (boot k1).inbox = [] := ⟨rfl, by decide, rfl, by decide, rfl⟩

theorem witness_PlacedWordRunsNext :
    decodeTableWord 32 0xFFFFFFE2 = some (.gprWr 31) ∧ decodeTableWord 32 0x00000073 = some .trampEcall := by decide

/-- The lowest and the highest register that is not x0. -/
theorem witness_GprReadAndWrite :
    ((1 : RegIdx) ≠ 0 ∧ (1 : RegIdx).toNat - 1 < 31) ∧ ((31 : RegIdx) ≠ 0 ∧ (31 : RegIdx).toNat - 1 < 31) := by decide

theorem witness_FprReadAndWrite : (0 : RegIdx).toNat < 32 ∧ (31 : RegIdx).toNat < 32 := by decide

theorem witness_VectorCommandsWithV :
    (boot k1).misa.getLsbD 21 = true ∧ (0 : RegIdx).toNat < 32 ∧ (31 : RegIdx).toNat < 32 := by decide

/-- Both layouts, and under V10 the values of vlmul where its sign changes. -/
theorem witness_VlmaxFollowsTheFormula :
    (boot k1).cfg.vtypeLayout = .v071 ∧ (boot k5).cfg.vtypeLayout = .v10 ∧
    (ab (boot k5) 3 0).ops.a.toNat % 8 < 4 ∧ 4 ≤ (ab (boot k5) 4 0).ops.a.toNat % 8 := by decide

/-- An access that fails of each of the three commands: an FP CSR with FS = 0 (row C8), medeleg without S (row C28), and a
mode that is too low (row C17). -/
theorem witness_CsrAccessFailsExactlyWhen :
    (ab (boot k1) 0 0).csrAccess 0x001 ((ab (boot k1) 0 0).cfg.xlen.trunc (ab (boot k1) 0 0).ops.a)
      ((ab (boot k1) 0 0).cfg.xlen.trunc (ab (boot k1) 0 0).ops.b) = none ∧
    (boot k6).csrAccess 0x302 0 0 = none ∧
    (ab inU 5 0).csrAccess 0x300 ((ab inU 5 0).cfg.xlen.trunc (ab inU 5 0).ops.a) (ab inU 5 0).cfg.xlen.ones = none :=
  ⟨rfl, rfl, rfl⟩

theorem witness_UnpopulatedCsrIsIllegal :
    (boot k1).cfg.csrTable.lookup 0x7FF = none ∧ (boot k1).cfg.csrTable.lookup 0x000 = none := by decide

/-- The baseline table has the baseline's descriptor everywhere. -/
theorem baselineAt_baseline (s : State) (h : s.cfg.csrTable = baselineCsrTable) (i : CsrIdx) : s.BaselineAt i := by
  unfold State.BaselineAt
  rw [h]

/-- Floating point on, V, S above U, and M. -/
theorem witness_CsrReadsReturnTheRegisters :
    (fpOn.misa.getLsbD 5 = true ∧ fpOn.mstatus.fs ≠ 0) ∧ (boot k1).misa.getLsbD 21 = true ∧
    (inS.misa.getLsbD 18 = true ∧ inS.priv ≠ .u) ∧ ((boot k1).priv = .m ∧ (boot k1).misa.getLsbD 18 = true) ∧
    (∀ i, fpOn.BaselineAt i) ∧ (∀ i, (boot k1).BaselineAt i) ∧ (∀ i, inS.BaselineAt i) :=
  ⟨by decide, by decide, by decide, by decide, baselineAt_baseline _ rfl, baselineAt_baseline _ rfl,
    baselineAt_baseline _ rfl⟩

/-- A mask of 0, and one that is 0 in the low 32 bits where XLEN is 32. -/
theorem witness_ZeroMaskAccessKeepsTheState :
    (ab (boot k1) 5 0).cfg.xlen.trunc (ab (boot k1) 5 0).ops.b = 0 ∧
    (ab (boot k3) 5 0xFFFFFFFF00000000).cfg.xlen.trunc (ab (boot k3) 5 0xFFFFFFFF00000000).ops.b = 0 := by decide

/-- K1 in M with S, mask 1; K6 in M without S, where the clauses of medeleg and mideleg do not apply. -/
theorem witness_MachineCsrRmwLegalises :
    ((ab (boot k1) 3 1).priv = .m ∧ (ab (boot k1) 3 1).cfg.xlen.trunc (ab (boot k1) 3 1).ops.b ≠ 0 ∧
      (ab (boot k1) 3 1).misa.getLsbD 18 = true) ∧
    ((ab (boot k6) 3 1).priv = .m ∧ (ab (boot k6) 3 1).cfg.xlen.trunc (ab (boot k6) 3 1).ops.b ≠ 0) ∧
    (∀ i, (ab (boot k1) 3 1).BaselineAt i) ∧ (∀ i, (ab (boot k6) 3 1).BaselineAt i) :=
  ⟨by decide, by decide, baselineAt_baseline _ rfl, baselineAt_baseline _ rfl⟩

theorem witness_MachineCsrWriteLegalises :
    (ab (boot k1) 3 0).Inv ∧ (ab (boot k1) 3 0).priv = .m ∧ (ab (boot k1) 3 0).misa.getLsbD 18 = true ∧
    ∀ i, (ab (boot k1) 3 0).BaselineAt i :=
  ⟨inv_k1 3 0, by decide, by decide, baselineAt_baseline _ rfl⟩

/-- From S, and from M. -/
theorem witness_SupervisorCsrRmwLegalises :
    ((ab inS 3 1).misa.getLsbD 18 = true ∧ (ab inS 3 1).priv ≠ .u ∧ (ab inS 3 1).cfg.xlen.trunc (ab inS 3 1).ops.b ≠ 0) ∧
    ((ab (boot k1) 3 1).misa.getLsbD 18 = true ∧ (ab (boot k1) 3 1).priv ≠ .u ∧
      (ab (boot k1) 3 1).cfg.xlen.trunc (ab (boot k1) 3 1).ops.b ≠ 0) ∧
    (∀ i, (ab inS 3 1).BaselineAt i) ∧ (∀ i, (ab (boot k1) 3 1).BaselineAt i) :=
  ⟨by decide, by decide, baselineAt_baseline _ rfl, baselineAt_baseline _ rfl⟩

/-- A write of all ones, and writes that give MPP each of its four values. -/
theorem witness_MstatusWriteByField :
    (∀ k : Fin 4,
      let s := ab (boot k1) (BitVec.ofNat 64 (2048 * k.val)) (-1)
      s.priv = .m ∧ s.cfg.xlen.trunc s.ops.b ≠ 0 ∧
        ((s.mstatusValue &&& ~~~s.cfg.xlen.trunc s.ops.b) ||| (s.cfg.xlen.trunc s.ops.a &&& s.cfg.xlen.trunc s.ops.b)).toNat
          / 2048 % 4 = k.val) ∧
    ∀ a b, (ab (boot k1) a b).BaselineAt 0x300 :=
  ⟨by decide, fun _ _ => baselineAt_baseline _ rfl _⟩

theorem witness_FpCsrWriteDirtiesFs :
    (ab fpOn 0x7FF (-1)).misa.getLsbD 5 = true ∧ (ab fpOn 0x7FF (-1)).mstatus.fs ≠ 0 ∧
    (ab fpOn 0x7FF (-1)).cfg.xlen.trunc (ab fpOn 0x7FF (-1)).ops.b ≠ 0 ∧ ∀ i, (ab fpOn 0x7FF (-1)).BaselineAt i :=
  ⟨by decide, by decide, by decide, baselineAt_baseline _ rfl⟩

theorem witness_VectorCsrWrites :
    (ab (boot k1) 5 (-1)).misa.getLsbD 21 = true ∧ (ab (boot k1) 5 (-1)).cfg.xlen.trunc (ab (boot k1) 5 (-1)).ops.b ≠ 0 ∧
    ∀ i, (ab (boot k1) 5 (-1)).BaselineAt i :=
  ⟨by decide, by decide, baselineAt_baseline _ rfl⟩

/-- mip in M, sip in S. -/
theorem witness_InterruptPendingCsrs :
    (boot k1).priv = .m ∧ (boot k1).BaselineAt 0x344 ∧
    inS.misa.getLsbD 18 = true ∧ inS.priv ≠ .u ∧ inS.BaselineAt 0x144 :=
  ⟨by decide, baselineAt_baseline _ rfl _, by decide, by decide, baselineAt_baseline _ rfl _⟩

/-- The three commands give a next state: one that ends OK and one that ends with ILLEGAL_CSR; and a table with no added
write or combined handler at the index. -/
theorem witness_CsrCommandsFrame :
    (∀ (d : CsrDescriptor) (k : Nat), (boot k1).cfg.csrTable.lookup 0x343 = some d →
      d.write ≠ some (.added k) ∧ d.rmw ≠ some (.added k)) ∧
    (∃ t, exec (.csrRmw 0x343) (ab (boot k1) 5 (-1)) = .next t ∧ t.resp.status ≠ .illegalCsr) ∧
    (∃ t, exec (.csrRd 0x300) (boot k1) = .next t ∧ t.resp.status ≠ .illegalCsr) ∧
    (∃ t, exec (.csrWr 0x7FF) (boot k1) = .next t ∧ t.resp.status = .illegalCsr) :=
  ⟨fun d k h => by
      have h' : some (csrReadWrite "mtval" .any .mtval .mtval) = some d := h
      cases h'
      exact ⟨by simp [csrReadWrite], by simp [csrReadWrite]⟩,
    ⟨_, rfl, by decide⟩, ⟨_, rfl, by decide⟩, ⟨_, rfl, by decide⟩⟩

/-- An environment call, another cause, and causes of 32 bits. -/
theorem witness_CauseAndTrapValueAreEncoded :
    (boot k1).cfg.xlen.trunc 8 = 8 ∧ ((8 : Word).toNat = 8) ∧
    (boot k1).cfg.xlen.trunc 0x8000000000000008 = 0x8000000000000008 ∧ (0x8000000000000008 : Word).toNat ≠ 8 ∧
    (boot k3).cfg.xlen.trunc 0x80000007 = 0x80000007 := by decide

/-- Codes at the width of the delegation register, on both sides of it, for both widths. -/
theorem witness_TargetFollowsDelegation :
    (boot k1).cfg.xlen.trunc 63 = 63 ∧ (boot k1).cfg.xlen.trunc 64 = 64 ∧
    (boot k3).cfg.xlen.trunc 0x8000001F = 0x8000001F ∧ (boot k3).cfg.xlen.trunc 0x80000020 = 0x80000020 := by decide

/-- A direct base, a vectored base with an exception and with the largest interrupt code, for both widths. -/
theorem witness_TrapVectorAddress :
    (Xlen.rv64.trunc 0x80000000 = 0x80000000 ∧ (0x80000000 : Word).toNat % 4 = 0) ∧
    (Xlen.rv64.trunc 0x80000001 = 0x80000001 ∧ (0x80000001 : Word).toNat % 4 = 1) ∧
    (Xlen.rv64.trunc 0x7FFFFFFFFFFFFFFF = 0x7FFFFFFFFFFFFFFF ∧ (0x7FFFFFFFFFFFFFFF : Word).toNat < 2 ^ 63) ∧
    (Xlen.rv64.trunc 0x8000000000000000 = 0x8000000000000000 ∧ 2 ^ 63 ≤ (0x8000000000000000 : Word).toNat) ∧
    (Xlen.rv32.trunc 0xFFFFFFFF = 0xFFFFFFFF ∧ 2 ^ 31 ≤ (0xFFFFFFFF : Word).toNat) ∧
    (Xlen.rv32.trunc 0xFFFFFFFD = 0xFFFFFFFD ∧ (0xFFFFFFFD : Word).toNat % 4 = 1) := by decide

/-- In U with an environment call delegated, and not. -/
def callFromU (medeleg : Word) : State := ab { inU with medeleg := medeleg } 8 0

theorem witness_TrapIntoMachineMode :
    (callFromU 0).cfg.env = .system ∧
    (callFromU 0).targetsS ((callFromU 0).encodeCause ((callFromU 0).cfg.xlen.trunc (callFromU 0).ops.a)) = false := by
  decide

theorem witness_TrapIntoSupervisorMode :
    (callFromU 0x100).cfg.env = .system ∧
    (callFromU 0x100).targetsS ((callFromU 0x100).encodeCause ((callFromU 0x100).cfg.xlen.trunc (callFromU 0x100).ops.a))
      = true := by decide

theorem witness_TrapInUserEnvironment : (boot k2).cfg.env = .user := by decide

/-- MRET in M; SRET from S and from M. -/
theorem witness_TrapReturns :
    (boot k1).priv = .m ∧ (inS.misa.getLsbD 18 = true ∧ inS.priv ≠ .u) ∧
    ((boot k1).misa.getLsbD 18 = true ∧ (boot k1).priv ≠ .u) := by decide

/-- A trap into M and a trap into S. -/
theorem witness_TrapThenReturn :
    (∃ t, (callFromU 0).cfg.env = .system ∧ exec .trap (callFromU 0) = .next t ∧ t.priv = .m) ∧
    (∃ t, (callFromU 0x100).cfg.env = .system ∧ exec .trap (callFromU 0x100) = .next t ∧ t.priv = .s) :=
  ⟨⟨_, by decide, rfl, by decide⟩, ⟨_, by decide, rfl, by decide⟩⟩

/-- Both returns from a state of the invariant, and one without C. -/
theorem witness_TrapReturnTargetIsAligned :
    ((boot k1).Inv ∧ (∃ t, exec .mret (boot k1) = .next t) ∧ ∃ t, exec .sret (boot k1) = .next t) ∧
    ((boot k6).Inv ∧ (∃ t, exec .mret (boot k6) = .next t) ∧ (boot k6).misa.getLsbD 2 = false) :=
  ⟨⟨inv_k1 0 0, ⟨_, rfl⟩, ⟨_, rfl⟩⟩, ⟨inv_of_check (by decide +kernel), ⟨_, rfl⟩, by decide⟩⟩

/-- K1 with pending and enabled bits, a delegation and interrupt enables. -/
def pending (p : Priv) (bits deleg : Word) (mie : Bool) : State :=
  { boot k1 with priv := p, mip := bits, mie := bits, mideleg := deleg, mstatus := { (boot k1).mstatus with mie := mie } }

theorem inv_pending_m : (pending .m 0x88 0 true).Inv := inv_of_check (by decide +kernel)
theorem inv_pending_u : (pending .u 0x22 0x222 false).Inv := inv_of_check (by decide +kernel)

/-- MSI (code 3) with MEI before it absent; in U, SSI (code 1) with SEI before it absent; nothing pending. -/
theorem witness_IrqPendSelectsByPriority :
    ((pending .m 0x88 0 true).Inv ∧
      (pending .m 0x88 0 true).cfg.irqPriority = [11] ++ 3 :: [7, 9, 1, 5] ∧
      ((pending .m 0x88 0 true).mip.getLsbD 3 = true ∧ (pending .m 0x88 0 true).mie.getLsbD 3 = true) ∧
      (pending .m 0x88 0 true).mideleg.getLsbD 3 = false ∧ (pending .m 0x88 0 true).mstatus.mie = true ∧
      (pending .m 0x88 0 true).mip.getLsbD 11 = false) ∧
    ((pending .u 0x22 0x222 false).Inv ∧
      (pending .u 0x22 0x222 false).cfg.irqPriority = [11, 3, 7, 9] ++ 1 :: [5] ∧
      (∀ j : Fin 64, ¬ ((pending .u 0x22 0x222 false).mip.getLsbD j.val = true ∧
        (pending .u 0x22 0x222 false).mideleg.getLsbD j.val = false)) ∧
      (pending .u 0x22 0x222 false).mip.getLsbD 1 = true ∧ (pending .u 0x22 0x222 false).mideleg.getLsbD 1 = true ∧
      (pending .u 0x22 0x222 false).mip.getLsbD 9 = false) ∧
    ((boot k1).Inv ∧ (boot k1).mip = 0) :=
  ⟨⟨inv_pending_m, by decide⟩, ⟨inv_pending_u, by decide⟩, ⟨inv_k1 0 0, by decide⟩⟩

/-- Both widths, with and without a vector area. -/
theorem witness_FrameSizes :
    ((boot k1).cfg.xlen = .rv64 ∧ (boot k1).misa.getLsbD 21 = true) ∧
    ((boot k2).cfg.xlen = .rv64 ∧ ¬ ((boot k2).misa.getLsbD 21 = true ∨ (boot k2).cfg.vecArea = .reserved)) ∧
    (boot { k3 with vecArea := .reserved }).cfg.xlen = .rv32 ∧
    (boot { k3 with vecArea := .reserved }).cfg.vecArea = .reserved ∧
    ((boot k3).cfg.xlen = .rv32 ∧ ¬ ((boot k3).misa.getLsbD 21 = true ∨ (boot k3).cfg.vecArea = .reserved)) := by decide

/-- Rows S6, S5, S3 and S4: the sp 0x100 bytes above the stack's base, at 0x40003CB0, and off the stack. -/
theorem witness_FrameAddressFollowsTheSwitchingConvention :
    withAlt.altstack = ⟨0x40000000, 0x4000⟩ ∧ withAlt.frameSize = 848 ∧
    ((0x40000100 - 0x40000000 : Int) % 2 ^ 64 < 0x4000 ∧ ¬ (0x40000100 - 848 - 0x40000000 : Int) % 2 ^ 64 < 0x4000) ∧
    ((0x40003CB0 - 0x40000000 : Int) % 2 ^ 64 < 0x4000 ∧ (0x40003CB0 - 848 - 0x40000000 : Int) % 2 ^ 64 < 0x4000) ∧
    (¬ (0x40004000 - 0x40000000 : Int) % 2 ^ 64 < 0x4000) ∧
    (withAlt.writeX 2 0x40004000).readX 2 = 0x40004000 ∧ (request withAlt 10 true).ops.req.onstack = true ∧
    (request withAlt 10 false).ops.req.onstack = false := by decide +kernel

/-- A user state with a good request and an admitted frame: rv64 without V, rv32, and rv64 with V. -/
def user64 : State := request (boot k2) 1 false
def user32 : State := request (boot k3) 64 false
def userV : State := request (boot k4) 10 false

theorem admitted_user64 : user64.lock user64.frameAddr user64.frameSize .write = true := by decide +kernel
theorem admitted_user32 : user32.lock user32.frameAddr user32.frameSize .write = true := by decide +kernel
theorem admitted_userV : userV.lock userV.frameAddr userV.frameSize .write = true := by decide +kernel
theorem inv_user64 : user64.Inv := inv_of_check (by decide +kernel)
theorem inv_user32 : user32.Inv := inv_of_check (by decide +kernel)
theorem inv_userV : userV.Inv := inv_of_check (by decide +kernel)

/-- The least and the greatest signal number. -/
theorem witness_SigSetupRedirectsTheHart :
    (user64.ops.req.sig.toNat = 1 ∧ user64.lock user64.frameAddr user64.frameSize .write = true) ∧
    (user32.ops.req.sig.toNat = 64 ∧ user32.lock user32.frameAddr user32.frameSize .write = true) :=
  ⟨⟨by decide, admitted_user64⟩, ⟨by decide, admitted_user32⟩⟩

/-- Without V and with V. -/
theorem witness_FrameHoldsTheContextRv64 :
    (user64.Inv ∧ user64.cfg.xlen = .rv64 ∧ user64.ops.req.sigOk = true ∧
      user64.lock user64.frameAddr user64.frameSize .write = true ∧ user64.cfg.hasTrampoline = true ∧
      ∃ t, exec .sigSetup user64 = .next t) ∧
    (userV.Inv ∧ userV.cfg.xlen = .rv64 ∧ userV.ops.req.sigOk = true ∧
      userV.lock userV.frameAddr userV.frameSize .write = true ∧ userV.misa.getLsbD 21 = true ∧
      ∃ t, exec .sigSetup userV = .next t) :=
  ⟨⟨inv_user64, by decide, by decide, admitted_user64, by decide,
      ⟨_, execSigSetup_admitted (by decide) admitted_user64⟩⟩,
    ⟨inv_userV, by decide, by decide, admitted_userV, by decide, ⟨_, execSigSetup_admitted (by decide) admitted_userV⟩⟩⟩

/-- rv32 with V. -/
def user32V : State := request (boot { k3 with misa := 0x40341129 }) 10 false

theorem admitted_user32V : user32V.lock user32V.frameAddr user32V.frameSize .write = true := by decide +kernel
theorem inv_user32V : user32V.Inv := inv_of_check (by decide +kernel)

theorem witness_FrameHoldsTheContextRv32 :
    (user32.Inv ∧ user32.cfg.xlen = .rv32 ∧ user32.ops.req.sigOk = true ∧
      user32.lock user32.frameAddr user32.frameSize .write = true ∧ user32.cfg.hasTrampoline = true ∧
      ∃ t, exec .sigSetup user32 = .next t) ∧
    (user32V.Inv ∧ user32V.cfg.xlen = .rv32 ∧ user32V.ops.req.sigOk = true ∧
      user32V.lock user32V.frameAddr user32V.frameSize .write = true ∧ user32V.misa.getLsbD 21 = true ∧
      ∃ t, exec .sigSetup user32V = .next t) :=
  ⟨⟨inv_user32, by decide, by decide, admitted_user32, by decide,
      ⟨_, execSigSetup_admitted (by decide) admitted_user32⟩⟩,
    ⟨inv_user32V, by decide, by decide, admitted_user32V, by decide,
      ⟨_, execSigSetup_admitted (by decide) admitted_user32V⟩⟩⟩

/-- A byte of the frame that no field covers: byte 136, between the info block and the user context (F = 0x7FFEFCB0). -/
theorem witness_SigSetupLeavesOtherBytes :
    user64.Inv ∧ (∃ t, exec .sigSetup user64 = .next t) ∧ user64.frameAddr = 0x7FFEFCB0 ∧
    (0x7FFEFCB0 + 136 < 0x7FFEFCB0 + user64.frameSize) ∧ ¬ (8 ≤ 136 ∧ 136 < 136) ∧ ¬ (144 ≤ 136) :=
  ⟨inv_user64, ⟨_, execSigSetup_admitted (by decide) admitted_user64⟩, by decide +kernel, by decide +kernel, by decide,
    by decide⟩

/-- Row S9: the frame ends above the admitted page. -/
def aboveThePage : State := request ((boot k2).writeX 2 0x7FFF0004) 64 false

/-- Row S6: the frame would overflow the alternate stack. -/
def overflowing : State := request (withAlt.writeX 2 0x40000100) 11 true

theorem denied_aboveThePage : aboveThePage.lock aboveThePage.frameAddr aboveThePage.frameSize .write = false := by
  decide +kernel
theorem denied_overflowing : overflowing.lock overflowing.frameAddr overflowing.frameSize .write = false := by
  decide +kernel

/-- A lock of the whole region, one of a byte more, one that ends at 2^64, and one that wraps past it. -/
theorem test_lock :
    (boot k2).lock 0x7FFEF000 0x1000 .write = true ∧ (boot k2).lock 0x7FFEF000 0x1001 .write = false ∧
    (boot k1).lock 0xFFFFFFFFFFFFFFF0 16 .read = true ∧ (boot k1).lock 0xFFFFFFFFFFFFFFF0 17 .read = false := by
  decide +kernel

theorem witness_SigSetupFailureChangesNothing :
    (1 ≤ aboveThePage.ops.req.sig.toNat ∧ aboveThePage.ops.req.sig.toNat ≤ 64 ∧
      aboveThePage.lock aboveThePage.frameAddr aboveThePage.frameSize .write = false) ∧
    (1 ≤ overflowing.ops.req.sig.toNat ∧ overflowing.ops.req.sig.toNat ≤ 64 ∧
      overflowing.onSigStack (overflowing.readX 2) = true ∧
      overflowing.onSigStack (overflowing.readX 2 - BitVec.ofNat 64 overflowing.frameSize) = false) :=
  ⟨⟨by decide, by decide, denied_aboveThePage⟩, by decide, by decide, by decide +kernel, by decide +kernel⟩

/-- x2 at a frame, without V and with it. -/
def atFrame : State := (boot k2).writeX 2 0x7FFEFCB0
def atFrameV : State := (boot k4).writeX 2 0x7FFEFA80

theorem witness_SigReturnRestoresTheFrame :
    (atFrame.lock (atFrame.readX 2) atFrame.frameSize .read = true ∧ atFrame.misa.getLsbD 21 = false) ∧
    (atFrameV.lock (atFrameV.readX 2) atFrameV.frameSize .read = true ∧ atFrameV.misa.getLsbD 21 = true) := by
  decide +kernel

/-- Row S15. -/
theorem witness_SigReturnFailureChangesNothing :
    ((boot k2).writeX 2 0x1000).lock (((boot k2).writeX 2 0x1000).readX 2) ((boot k2).writeX 2 0x1000).frameSize .read
      = false := by decide +kernel

/-- The state that the delivery to `userV` leaves, to be returned from at once. -/
theorem witness_SignalRoundTrip :
    userV.Inv ∧ userV.ops.req.sigOk = true ∧ userV.lock userV.frameAddr userV.frameSize .write = true ∧
    userV.misa.getLsbD 21 = true ∧
    ∃ t, exec .sigSetup userV = .next t ∧ t.lock (t.readX 2) t.frameSize .read = true :=
  ⟨inv_userV, by decide, admitted_userV, by decide, _, execSigSetup_admitted (by decide) admitted_userV,
    by decide +kernel⟩

/-- On the stack, at its end, and each range of the argument and of the size at its bounds. -/
theorem witness_AlternateStackReadAndSet :
    withAlt.altstack = ⟨0x40000000, 0x4000⟩ ∧ (boot k2).altstack.ssSize = 0 ∧ withAlt.altstack.ssSize ≠ 0 ∧
    (withAlt.writeX 2 0x40003FFF).readX 2 = 0x40003FFF ∧ (0x40003FFF - 0x40000000 : Int) % 2 ^ 64 < 0x4000 ∧
    (withAlt.writeX 2 0x40004000).readX 2 = 0x40004000 ∧ ¬ (0x40004000 - 0x40000000 : Int) % 2 ^ 64 < 0x4000 ∧
    (0 : BitVec 8).toNat ≤ 1 ∧ (1 : BitVec 8).toNat ≤ 1 ∧ (2 : BitVec 8).toNat = 2 ∧ 3 ≤ (3 : BitVec 8).toNat ∧
    2048 ≤ ((boot k2).cfg.xlen.trunc 2048).toNat ∧ ((boot k2).cfg.xlen.trunc 2047).toNat < 2048 := by decide +kernel

/-- An access that answers and one that does not. -/
theorem witness_ZicsrWordsAccessTheCsr :
    (∃ p, (boot k1).csrAccess 0x343 5 (boot k1).cfg.xlen.ones = some p) ∧
    (boot k1).csrAccess 0x7FF 5 (boot k1).cfg.xlen.ones = none :=
  ⟨⟨_, rfl⟩, rfl⟩

theorem witness_ZicsrWordsOnMtval :
    (ab (boot k1) 0 0).Inv ∧ (ab (boot k1) 0 0).BaselineAt 0x343 ∧ (ab (boot k1) 0 0).priv = .m ∧
    (1 : RegIdx) ≠ 0 ∧ (0 : RegIdx) ≠ 1 :=
  ⟨inv_k1 0 0, baselineAt_baseline _ rfl _, by decide, by decide, by decide⟩

theorem witness_StepKeepsTheInvariant :
    (waiting .command 0xA1#32 (boot k1)).Inv ∧ ∃ t, step (waiting .command 0xA1#32 (boot k1)) = .next t := by
  refine ⟨?_, _, rfl⟩
  obtain ⟨c, p, r, w, m, t⟩ := inv_k1 0 0
  exact ⟨c.congr, p.congr, r.congr, w.congr, m.congr, t.congr⟩

/-- K1 without U and RESET_ZERO, and K2 without F and D. -/
def withoutU : Config := { k1 with misa := 0x8000000000001129, resetZero := false }
def withoutFp : Config := { k2 with misa := 0x8000000000101101 }

/-- 10_state.md R43, R69: MPP is 0 under RESET_ZERO, also without U, and a drawn MPP is a legal privilege; 70_reset_and_hazards.md R391: FS is 1 in a user
environment, also without floating point. -/
theorem test_reset_corners :
    (boot { withoutU with resetZero := true }).mstatus.mpp = .u ∧ (boot withoutU).mstatus.mpp = .m ∧ (boot withoutFp).mstatus.fs = 1 ∧ (boot k2).mstatus.fs = 1 := by decide +kernel

/-- Configurations with and without RESET_ZERO, of a system environment with and without U, and of a user environment with
floating point, without it, and with V. -/
theorem witness_EveryResetMeetsTheInvariant :
    (k1.wf = true ∧ k1.env = .system ∧ k1.resetZero = true) ∧
    (({ k1 with resetZero := false } : Config).wf = true ∧ withoutU.wf = true) ∧
    (k3.wf = true ∧ k3.env = .user ∧ (k3.hasExt 5 = true ∨ k3.hasExt 3 = true)) ∧
    (withoutFp.wf = true ∧ withoutFp.env = .user ∧ withoutFp.hasExt 5 = false ∧ withoutFp.hasExt 3 = false) ∧
    (k4.wf = true ∧ k4.env = .user ∧ k4.hasExt 21 = true) ∧
    ((31 : RegIdx).toNat - 1 < 31 ∧ (31 : RegIdx) ≠ 0 ∧ (31 : RegIdx) ≠ 2) := by
  decide

/-- A trap from U to M, a return from M to U, ecall, a Zicsr word whose access fails; and an MRET in a
configuration without U and S. -/
theorem witness_OnlyTrapsAndReturnsChangeTheMode :
    (∃ t, exec (.csrrw 1 2 0x300) inU = .next t ∧ t.priv ≠ inU.priv ∧ inU.zicsrFails (.csrrw 1 2 0x300)) ∧
    ((boot withoutU).Inv ∧ (∃ t, exec .mret (boot withoutU) = .next t) ∧ (boot withoutU).misa.getLsbD 20 = false ∧
      (boot withoutU).misa.getLsbD 18 = false) ∧
    (∃ t, exec .trap (callFromU 0) = .next t ∧ t.priv ≠ (callFromU 0).priv) ∧
    (∃ t, exec .mret (boot k1) = .next t ∧ t.priv ≠ (boot k1).priv) ∧
    (∃ t, exec .trampEcall inU = .next t ∧ t.priv ≠ inU.priv) :=
  ⟨⟨_, rfl, by decide, rfl⟩, ⟨inv_of_check (by decide +kernel), ⟨_, rfl⟩, by decide, by decide⟩, ⟨_, rfl, by decide⟩, ⟨_, rfl, by decide⟩, ⟨_, rfl, by decide⟩⟩

/-- A command that is no delivery, and a delivery that fails. -/
theorem witness_OnlySigSetupWritesMemory :
    (∃ t, exec .maskWr user64 = .next t) ∧
    (∃ t, exec .sigSetup overflowing = .next t ∧ t.resp.status = .frameFault) := by
  refine ⟨⟨_, rfl⟩, overflowing.respond (setupFailure 11), ?_, rfl⟩
  show execSigSetup _ = _
  unfold execSigSetup
  rw [if_pos (by decide), denied_overflowing, if_neg Bool.false_ne_true]
  rfl

/-- Without V, and without S. -/
theorem witness_ConfigurationNeverChanges :
    ((∃ t, exec .privRd (boot k2) = .next t) ∧ (boot k2).cfg.csrTableOk = true ∧ (boot k2).misa.getLsbD 21 = false) ∧
    ((∃ t, exec .trap (boot k6) = .next t) ∧ (boot k6).cfg.csrTableOk = true ∧ (boot k6).misa.getLsbD 18 = false) :=
  ⟨⟨⟨_, rfl⟩, by decide, by decide⟩, ⟨_, rfl⟩, by decide, by decide⟩

theorem witness_OnlyTheNamedCommandsMovePc :
    (∃ t, exec .pcWr (ab (boot k1) 4 0) = .next t ∧ t.pc ≠ (ab (boot k1) 4 0).pc) ∧
    (∃ t, exec .trampEcall inU = .next t ∧ t.pc ≠ inU.pc) ∧
    (∃ t, exec (.csrrw 1 2 0x300) inU = .next t ∧ t.pc ≠ inU.pc ∧ inU.zicsrFails (.csrrw 1 2 0x300)) :=
  ⟨⟨_, rfl, by decide⟩, ⟨_, rfl, by decide⟩, ⟨_, rfl, by decide, rfl⟩⟩

end Sys2Proof.Tests
end

section
/-! SUPPORT. What the decoder makes of a reserved command word, and what a step does with a word that does not decode. -/

namespace Sys2Proof

/-- OP is bits 4:0 (30_encoding.md R132). -/
@[simp] theorem toNat_opField (w : BitVec 32) : (opField w).toNat = w.toNat % 32 := by
  simp [opField]

/-- LVL is bits 23:22 (30_encoding.md R132). -/
@[simp] theorem toNat_lvlField (w : BitVec 32) : (lvlField w).toNat = w.toNat / 4194304 % 4 := by
  simp [lvlField, Nat.shiftRight_eq_div_pow]

/-- Outside 0x01 to 0x1A an OP has no row of the operation map (30_encoding.md R133, R134). -/
theorem decodeCommand_of_reservedOp {w : BitVec 32} (h : (opField w).toNat = 0 ∨ 0x1B ≤ (opField w).toNat) :
    decodeCommand w = .error .reservedOp := by
  unfold decodeCommand
  split
  case h_27 => rfl
  all_goals omega

/-- Of the four levels of XRET, 0 and 2 have no row of the operation map (30_encoding.md R133, R134). -/
theorem decodeCommand_of_reservedLevel {w : BitVec 32} (hop : (opField w).toNat = 0x14)
    (hlvl : (lvlField w).toNat = 0 ∨ (lvlField w).toNat = 2) : decodeCommand w = .error .reservedLevel := by
  obtain h0 | h2 := hlvl
  · simp only [decodeCommand, hop, h0]
  · simp only [decodeCommand, hop, h2]

end Sys2Proof

namespace Sys2Proof.Machine

/-- A word at the head of the queue that does not decode ends the run, by the name of its error (30_encoding.md R134). -/
theorem step_of_decode_error {s : State} {t : Transaction} {rest : List Transaction} {e : DecodeError}
    (hin : s.inbox = t :: rest) (he : decode t.channel t.word = .error e) : step s = .refused (refusalOf e) := by
  simp only [step, hin, he]

/-- Settles O5: the decoder rejects both kinds of reserved word, and a step refuses what the decoder rejects. -/
theorem reservedCommandWordsAreRefused : Obligations.ReservedCommandWordsAreRefused := by
  intro s w ops rest hin
  refine ⟨fun hop => ?_, fun hop hlvl => ?_⟩
  · have hdec : decodeCommand w = .error .reservedOp := decodeCommand_of_reservedOp (by rwa [toNat_opField])
    exact step_of_decode_error hin hdec
  · have hdec : decodeCommand w = .error .reservedLevel :=
      decodeCommand_of_reservedLevel (by rwa [toNat_opField]) (by rwa [toNat_lvlField])
    exact step_of_decode_error hin hdec

end Sys2Proof.Machine
end

section
/-! SUPPORT. The register-file commands: what each answers in the terms of the shared operations, and the value of vlmax.
The obligations of 40_regfile_ops.md are settled from these. -/

namespace Sys2Proof

/-- Truncation to XLEN bits leaves a field of the low 32 bits as it is (00_scope.md R11). -/
theorem Xlen.extractLsb'_trunc (x : Xlen) (v : Word) {start len : Nat} (h : start + len ≤ 32) :
    (x.trunc v).extractLsb' start len = v.extractLsb' start len := by
  refine BitVec.eq_of_getLsbD_eq fun i hi => ?_
  have hbits : start + i < x.bits := by cases x <;> simp only [Xlen.bits] <;> omega
  simp only [BitVec.getLsbD_extractLsb', x.getLsbD_trunc, hbits, decide_true, Bool.true_and]

end Sys2Proof

namespace Sys2Proof.Machine

/-! ### The commands in the terms of the shared operations -/

theorem exec_gprRd (r : RegIdx) (s : State) : exec (.gprRd r) s = .next (s.respond (.data (s.readX r))) := rfl

theorem exec_gprWr (r : RegIdx) (s : State) : exec (.gprWr r) s = .next ((s.writeX r s.opA).respond .ok) := rfl

theorem exec_fprRd (r : RegIdx) (s : State) : exec (.fprRd r) s = .next (s.respond (.data (s.readF r))) := rfl

theorem exec_fprWr (r : RegIdx) (s : State) : exec (.fprWr r) s = .next ((s.writeF r s.opA64).respond .ok) := rfl

theorem exec_pcRd (s : State) : exec .pcRd s = .next (s.respond (.data s.pc)) := rfl

theorem exec_pcWr (s : State) : exec .pcWr s = .next ({ s with pc := s.opA }.respond .ok) := rfl

theorem exec_privRd (s : State) : exec .privRd s = .next (s.respond (.data (s.priv.code.setWidth 64))) := rfl

theorem exec_extQ (arg : BitVec 8) (s : State) : exec (.extQ arg) s =
    .next (s.respond (.data (if arg.toNat < 26 then flagBit (misaHas s.misa arg.toNat) 0 else 0))) := rfl

theorem exec_featQ (arg : BitVec 8) (s : State) : exec (.featQ arg) s =
    .next (s.respond (.data (if arg.toNat < 2 then flagBit (s.features.getLsbD arg.toNat) 0 else 0))) := rfl

theorem exec_vlmax (s : State) : exec .vlmax s =
    .next (s.respond (.data (BitVec.ofNat 64 (vlmaxOf s.cfg.vtypeLayout s.opA)))) := rfl

/-! ### The fields of a vtype value and vlmax (10_state.md R55, 40_regfile_ops.md R180) -/

theorem vsew_v071 (v : Word) : vsew .v071 v = v.toNat / 4 % 8 := by
  simp [vsew, Nat.shiftRight_eq_div_pow]

theorem vsew_v10 (v : Word) : vsew .v10 v = v.toNat / 8 % 8 := by
  simp [vsew, Nat.shiftRight_eq_div_pow]

theorem vlmul_v071 (v : Word) : vlmul .v071 v = (v.toNat % 4 : Nat) := by
  simp [vlmul]

/-- Under V10 the three bits of vlmul are a number in two's complement. -/
theorem vlmul_v10 (v : Word) :
    vlmul .v10 v = if v.toNat % 8 < 4 then ((v.toNat % 8 : Nat) : Int) else (v.toNat % 8 : Nat) - 8 := by
  have hsign : 2 * (v.toNat % 2 ^ 3) < 2 ^ 3 ↔ v.toNat % 8 < 4 := by omega
  simp only [vlmul, BitVec.toInt_eq_toNat_cond, BitVec.extractLsb'_toNat, Nat.shiftRight_zero, hsign]
  rfl

theorem vsew_trunc (l : VtypeLayout) (x : Xlen) (v : Word) : vsew l (x.trunc v) = vsew l v := by
  cases l <;> simp [vsew, Xlen.extractLsb'_trunc]

theorem vlmul_trunc (l : VtypeLayout) (x : Xlen) (v : Word) : vlmul l (x.trunc v) = vlmul l v := by
  cases l <;> simp [vlmul, Xlen.extractLsb'_trunc]

/-- vlmax depends on fields of the low 32 bits alone, so the width of the operand does not matter. -/
theorem vlmaxOf_trunc (l : VtypeLayout) (x : Xlen) (v : Word) : vlmaxOf l (x.trunc v) = vlmaxOf l v := by
  rw [vlmaxOf, vlmaxOf, vsew_trunc, vlmul_trunc]

/-- The formula as a quotient, for a shift amount that is known as a number. -/
theorem vlmaxOf_eq_div {l : VtypeLayout} {v : Word} {n : Nat} (h : (vsew l v : Int) + 3 - vlmul l v = n) :
    vlmaxOf l v = 128 / 2 ^ n := by
  rw [vlmaxOf, h, Int.toNat_natCast, Nat.shiftRight_eq_div_pow, VLEN]

theorem vlmaxOf_lt (l : VtypeLayout) (v : Word) : vlmaxOf l v < 2 ^ 64 := by
  calc vlmaxOf l v ≤ VLEN := Nat.shiftRight_le _ _
    _ < 2 ^ 64 := by decide

theorem vlmaxOf_v071 (v : Word) : vlmaxOf .v071 v = 128 / 2 ^ (v.toNat / 4 % 8 + 3 - v.toNat % 4) := by
  apply vlmaxOf_eq_div
  rw [vsew_v071, vlmul_v071]
  omega

theorem vlmaxOf_v10_of_lt {v : Word} (h : v.toNat % 8 < 4) :
    vlmaxOf .v10 v = 128 / 2 ^ (v.toNat / 8 % 8 + 3 - v.toNat % 8) := by
  apply vlmaxOf_eq_div
  rw [vsew_v10, vlmul_v10, if_pos h]
  omega

theorem vlmaxOf_v10_of_ge {v : Word} (h : 4 ≤ v.toNat % 8) :
    vlmaxOf .v10 v = 128 / 2 ^ (v.toNat / 8 % 8 + 3 + (8 - v.toNat % 8)) := by
  apply vlmaxOf_eq_div
  rw [vsew_v10, vlmul_v10, if_neg (by omega)]
  omega

/-- Settles O13: DOUT holds vlmax of the operand, whose value the equations of `vlmaxOf` give for each layout and sign
of vlmul. -/
theorem vlmaxFollowsTheFormula : Obligations.VlmaxFollowsTheFormula := by
  intro s
  refine ⟨_, exec_vlmax s, ?_⟩
  rw [State.opA, State.tr, vlmaxOf_trunc, BitVec.toNat_ofNat, Nat.mod_eq_of_lt (vlmaxOf_lt _ _)]
  refine ⟨fun hl => ?_, fun hl hlt => ?_, fun hl hge => ?_⟩
  · rw [hl, vlmaxOf_v071]
  · rw [hl, vlmaxOf_v10_of_lt hlt]
  · rw [hl, vlmaxOf_v10_of_ge hge]

/-! ### Reads, writes and queries -/

/-- Settles O8: the rules of `readX` and `writeX`, for x0 and for any other register. -/
theorem gprReadAndWrite : Obligations.GprReadAndWrite := by
  intro s
  refine ⟨?_, ?_, fun r hr h => ⟨?_, ?_⟩⟩
  · have hzero : s.readX 0 = 0 := s.readX_zero
    rw [exec_gprRd, hzero]
    rfl
  · have hdiscarded : s.writeX 0 s.opA = s := s.writeX_zero _
    rw [exec_gprWr, hdiscarded]
    rfl
  · rw [exec_gprRd, s.readX_of_ne r hr h]
    rfl
  · rw [exec_gprWr, s.writeX_of_ne r _ hr h]
    rfl

/-- Settles O9: `readF` and `writeF` are the slot of the register, for every register. -/
theorem fprReadAndWrite : Obligations.FprReadAndWrite :=
  fun s r _ => ⟨exec_fprRd r s, exec_fprWr r s⟩

/-- Settles O11: the command hands over pc, or the operand cut to XLEN. -/
theorem pcReadAndWrite : Obligations.PcReadAndWrite :=
  fun s => ⟨exec_pcRd s, exec_pcWr s⟩

/-- The mode on DOUT (40_regfile_ops.md R183). -/
theorem Priv.setWidth_code (p : Priv) : p.code.setWidth 64 = match p with | .u => 0#64 | .s => 1#64 | .m => 3#64 := by
  cases p <;> rfl

/-- A flag at bit 0 is the number 0 or 1. -/
theorem flagBit_zero (b : Bool) : flagBit b 0 = if b then 1 else 0 := by
  cases b <;> rfl

/-- Settles O12: each answer is the code of the mode, or a flag at bit 0 under the bound on its index. -/
theorem queriesAnswer : Obligations.QueriesAnswer := by
  intro s arg
  refine ⟨?_, ?_, ?_⟩
  · rw [exec_privRd, Priv.setWidth_code]
    rfl
  · rw [exec_extQ, flagBit_zero, ← ite_and]
    rfl
  · rw [exec_featQ, flagBit_zero, ← ite_and]
    rfl

end Sys2Proof.Machine
end

section
/-! SUPPORT. The CSR access from the outside: when it fails, what a command answers when it does, and what CSR_RMW leaves
under a descriptor of each shape the baseline table has. -/

namespace Sys2Proof.Machine

/-! ### When an access fails (41_csr_dispatch.md R202 to R210) -/

/-- Bits 9:8 of a CSR index, the least mode (41_csr_dispatch.md R203). -/
theorem toNat_csrLevel (i : CsrIdx) : (i.extractLsb' 8 2).toNat = i.toNat / 256 % 4 := by
  simp [Nat.shiftRight_eq_div_pow]

/-- Bits 11:10 of a CSR index are 3 where it is read-only (41_csr_dispatch.md R204). -/
theorem csrReadOnlyField_iff (i : CsrIdx) : i.extractLsb' 10 2 = 3 ↔ i.toNat / 1024 = 3 := by
  have hlt : i.toNat / 1024 % 4 = i.toNat / 1024 := by have := i.isLt; omega
  simp [← BitVec.toNat_inj, Nat.shiftRight_eq_div_pow, hlt]

/-- The predicate of the FP CSRs: F or D, and FS not Off (41_csr_dispatch.md R214). -/
theorem predHolds_fp (s : State) (i : CsrIdx) :
    predHolds s i .fp = ((s.misa.getLsbD 5 || s.misa.getLsbD 3) && decide (s.mstatus.fs ≠ 0)) := by
  rw [Bool.eq_iff_iff]
  simp [predHolds, misaFp, misaHas, Ext.F, Ext.D]

/-- A descriptor is unavailable exactly when it has a predicate that is false (41_csr_dispatch.md R205). -/
theorem available_eq_false_iff (s : State) (i : CsrIdx) (d : CsrDescriptor) :
    available s i d = false ↔ ∃ p, d.pred = some p ∧ predHolds s i p = false := by
  unfold available
  cases d.pred <;> simp

/-- The checks of R203, R204 and R205, each as what makes it fail. -/
theorem State.csrAllowed_eq_false_iff (s : State) (i : CsrIdx) (m : Word) (d : CsrDescriptor) :
    s.csrAllowed i m d = false ↔
      s.priv.code.toNat < i.toNat / 256 % 4 ∨ (i.toNat / 1024 = 3 ∧ m ≠ 0) ∨
      ∃ p, d.pred = some p ∧ predHolds s i p = false := by
  have hlevel : s.priv.code < i.extractLsb' 8 2 ↔ s.priv.code.toNat < i.toNat / 256 % 4 := by
    rw [BitVec.lt_def, toNat_csrLevel]
  have hreadOnly : (i.extractLsb' 10 2 == 3 && m != 0) = true ↔ i.toNat / 1024 = 3 ∧ m ≠ 0 := by
    rw [Bool.and_eq_true, beq_iff_eq, bne_iff_ne, csrReadOnlyField_iff]
  rw [State.csrAllowed, Bool.and_eq_false_iff, Bool.and_eq_false_iff, Bool.not_eq_false', Bool.not_eq_false',
    decide_eq_true_iff, hlevel, hreadOnly, available_eq_false_iff, or_assoc]

/-- Separate handlers fail where one that the access needs is absent or answers `fail` (41_csr_dispatch.md R208 to
R210). -/
theorem State.csrSeparate_eq_none_iff (s : State) (i : CsrIdx) (d : CsrDescriptor) (nv m : Word) :
    s.csrSeparate i d nv m = none ↔
      d.read = none ∨ ∃ r, d.read = some r ∧
        (readCsr s i r = none ∨ ∃ old, readCsr s i r = some old ∧ m ≠ 0 ∧
          (d.write = none ∨ ∃ w, d.write = some w ∧ writeCsr s i w (mergeMask old nv m) = none)) := by
  unfold State.csrSeparate
  cases d.read with
  | none => simp
  | some r =>
    cases hr : readCsr s i r with
    | none => simp [hr]
    | some old =>
      by_cases hm : m = 0#64
      · simp [hr, hm]
      · cases d.write <;> simp [hr, hm]

/-- An index without a descriptor fails, whatever the mask (41_csr_dispatch.md R202). -/
theorem csrAccess_of_lookup_none {s : State} {i : CsrIdx} (h : s.cfg.csrTable.lookup i = none) (nv m : Word) :
    s.csrAccess i nv m = none := by
  simp only [State.csrAccess, State.descriptor, h]

/-- Under a descriptor an access fails in its checks or in its handlers (41_csr_dispatch.md R200). -/
theorem csrAccess_eq_none_iff_of_lookup {s : State} {i : CsrIdx} {d : CsrDescriptor}
    (h : s.cfg.csrTable.lookup i = some d) (nv m : Word) :
    s.csrAccess i nv m = none ↔
      s.csrAllowed i m d = false ∨ (∃ r, d.rmw = some r ∧ rmwCsr s i r nv m = none) ∨
      (d.rmw = none ∧ s.csrSeparate i d nv m = none) := by
  simp only [State.csrAccess, State.descriptor, h]
  cases s.csrAllowed i m d with
  | false => simp
  | true => cases d.rmw <;> simp

/-! ### What the commands answer -/

/-- An access that answers returns the old value (41_csr_dispatch.md R212). -/
theorem exec_csrRmw_of_some {s s' : State} {csr : CsrIdx} {old : Word}
    (h : s.csrAccess csr s.opA s.opB = some (old, s')) : exec (.csrRmw csr) s = .next (s'.respond (.data old)) := by
  show execCsrRmw csr s = _
  rw [execCsrRmw, h]

/-- A failed access ends with ILLEGAL_CSR (41_csr_dispatch.md R212). -/
theorem exec_csrRmw_of_none {s : State} {csr : CsrIdx} (h : s.csrAccess csr s.opA s.opB = none) :
    exec (.csrRmw csr) s = .next (s.respond .illegal) := by
  show execCsrRmw csr s = _
  rw [execCsrRmw, h]

/-- A failed access ends with ILLEGAL_CSR (41_csr_dispatch.md R213). -/
theorem exec_csrRd_of_none {s : State} {csr : CsrIdx} (h : s.csrAccess csr 0 0 = none) :
    exec (.csrRd csr) s = .next (s.respond .illegal) := by
  show execCsrRd csr s = _
  rw [execCsrRd, h]

/-- A failed access ends with ILLEGAL_CSR (41_csr_dispatch.md R233). -/
theorem exec_csrWr_of_none {s : State} {csr : CsrIdx} (h : s.csrAccess csr s.opA s.cfg.xlen.ones = none) :
    exec (.csrWr csr) s = .next (s.respond .illegal) := by
  show execCsrWr csr s = _
  rw [execCsrWr, h]

/-- Settles O14: the failure of an access is that of its checks or of its handlers, and each command answers it alike. -/
theorem csrAccessFailsExactlyWhen : Obligations.CsrAccessFailsExactlyWhen := by
  refine ⟨fun s i nv m => ?_, fun s i => ⟨rfl, rfl, predHolds_fp s i, rfl⟩,
    fun s csr => ⟨exec_csrRmw_of_none, exec_csrRd_of_none, exec_csrWr_of_none⟩⟩
  cases hd : s.cfg.csrTable.lookup i with
  | none => simp [csrAccess_of_lookup_none hd]
  | some d =>
    rw [csrAccess_eq_none_iff_of_lookup hd, s.csrAllowed_eq_false_iff, s.csrSeparate_eq_none_iff]
    simp only [reduceCtorEq, false_or, Option.some.injEq, exists_eq_left', or_assoc, mergeMask]

/-- Settles O15: without a descriptor the access of each command fails. -/
theorem unpopulatedCsrIsIllegal : Obligations.UnpopulatedCsrIsIllegal := fun _ _ h =>
  ⟨exec_csrRd_of_none (csrAccess_of_lookup_none h _ _), exec_csrWr_of_none (csrAccess_of_lookup_none h _ _),
    exec_csrRmw_of_none (csrAccess_of_lookup_none h _ _)⟩

/-! ### CSR_RMW under a descriptor of the baseline's shapes (41_csr_dispatch.md R215) -/

/-- What the checks ask of an access to an allowed CSR: the mode, no write of a read-only index, the predicate. -/
theorem csrAllowed_of_pred {s : State} {i : CsrIdx} {m : Word} {d : CsrDescriptor} {p : CsrPred}
    (hlevel : i.toNat / 256 % 4 ≤ s.priv.code.toNat) (hwritable : i.toNat / 1024 ≠ 3) (hpred : d.pred = some p)
    (hp : predHolds s i p = true) : s.csrAllowed i m d = true := by
  rw [← Bool.not_eq_false, s.csrAllowed_eq_false_iff]
  rintro (hlow | ⟨hreadOnly, -⟩ | ⟨q, hq, hfalse⟩)
  · omega
  · exact hwritable hreadOnly
  · cases hpred.symm.trans hq
    simp [hp] at hfalse

/-- A read and a write handler: the old value is returned and the composed one written (41_csr_dispatch.md R207). -/
theorem exec_csrRmw_readWrite {s s' : State} {i : CsrIdx} {n : String} {p : CsrPred} {r : CsrRead} {w : CsrWrite}
    {old : Word} (hd : s.cfg.csrTable.lookup i = some (csrReadWrite n p r w))
    (hlevel : i.toNat / 256 % 4 ≤ s.priv.code.toNat) (hp : predHolds s i p = true) (hm : s.opB ≠ 0)
    (hr : readCsr s i r = some old) (hw : writeCsr s i w (mergeMask old s.opA s.opB) = some s')
    (hwritable : i.toNat / 1024 ≠ 3 := by decide) : exec (.csrRmw i) s = .next (s'.respond (.data old)) := by
  refine exec_csrRmw_of_some ?_
  have hallowed := csrAllowed_of_pred (m := s.opB) (d := csrReadWrite n p r w) hlevel hwritable rfl hp
  simp only [State.csrAccess, State.descriptor, hd, hallowed, if_true]
  simp only [csrReadWrite, State.csrSeparate, hr, if_neg hm, hw, Option.map_some]

/-- A combined handler is given the operands as they are, mask 0 included (41_csr_dispatch.md R206, R211). -/
theorem exec_csrRmw_combined {s s' : State} {i : CsrIdx} {n : String} {p : CsrPred} {h : CsrRmw} {old : Word}
    (hd : s.cfg.csrTable.lookup i = some (csrCombined n p h)) (hlevel : i.toNat / 256 % 4 ≤ s.priv.code.toNat)
    (hp : predHolds s i p = true) (hrmw : rmwCsr s i h s.opA s.opB = some (old, s'))
    (hwritable : i.toNat / 1024 ≠ 3 := by decide) : exec (.csrRmw i) s = .next (s'.respond (.data old)) := by
  refine exec_csrRmw_of_some ?_
  have hallowed := csrAllowed_of_pred (m := s.opB) (d := csrCombined n p h) hlevel hwritable rfl hp
  simp only [State.csrAccess, State.descriptor, hd, hallowed, if_true]
  exact hrmw

/-- A read-only index takes no mask but 0 (41_csr_dispatch.md R204). -/
theorem exec_csrRmw_readOnly {s : State} {i : CsrIdx} {d : CsrDescriptor} (hd : s.cfg.csrTable.lookup i = some d)
    (hreadOnly : i.toNat / 1024 = 3) (hm : s.opB ≠ 0) : exec (.csrRmw i) s = .next (s.respond .illegal) := by
  refine exec_csrRmw_of_none ((csrAccess_eq_none_iff_of_lookup hd _ _).mpr (.inl ?_))
  exact (s.csrAllowed_eq_false_iff _ _ _).mpr (.inr (.inl ⟨hreadOnly, hm⟩))

/-- M reaches every level (41_csr_dispatch.md R203). -/
theorem level_le_of_m {s : State} (h : s.priv = .m) (i : CsrIdx) : i.toNat / 256 % 4 ≤ s.priv.code.toNat := by
  have hcode : s.priv.code.toNat = 3 := by rw [h]; rfl
  omega

/-- S and M reach the supervisor level (41_csr_dispatch.md R203). -/
theorem level_le_of_ne_u {s : State} (h : s.priv ≠ .u) {i : CsrIdx} (hi : i.toNat / 256 % 4 ≤ 1) :
    i.toNat / 256 % 4 ≤ s.priv.code.toNat := by
  have hcode : 1 ≤ s.priv.code.toNat := by
    cases hp : s.priv with
    | u => exact absurd hp h
    | s => decide
    | m => decide
  omega

/-- MODE of a trap vector is its value modulo 4 (10_state.md R46). -/
theorem tvecWrite_eq_ite (old v : Word) : tvecWrite old v = if v.toNat % 4 < 2 then v else old := by
  simp [tvecWrite, tvecLegal]

/-- `mtvec.write(v)` (41_csr_dispatch.md R226). -/
theorem writeCsr_mtvec (s : State) (i : CsrIdx) (v : Word) :
    writeCsr s i .mtvec v = some { s with mtvec := if v.toNat % 4 < 2 then v else s.mtvec } := by
  rw [writeCsr, tvecWrite_eq_ite]

/-- `stvec.write(v)` (41_csr_dispatch.md R226). -/
theorem writeCsr_stvec (s : State) (i : CsrIdx) (v : Word) :
    writeCsr s i .stvec v = some { s with stvec := if v.toNat % 4 < 2 then v else s.stvec } := by
  rw [writeCsr, tvecWrite_eq_ite]

/-- Settles O18: each index has the baseline's handlers, M passes the checks, and the write handler legalises. -/
theorem machineCsrRmwLegalises : Obligations.MachineCsrRmwLegalises := by
  intro s hpriv hmask m new tvec hasS
  have level := level_le_of_m hpriv
  exact ⟨
    fun hb => (exec_csrRmw_readWrite hb (level _) rfl hmask rfl rfl).trans rfl,
    fun hb hs => (exec_csrRmw_readWrite hb (level _) hs hmask rfl rfl).trans rfl,
    fun hb hs => (exec_csrRmw_readWrite hb (level _) hs hmask rfl rfl).trans rfl,
    fun hb => (exec_csrRmw_readWrite hb (level _) rfl hmask rfl rfl).trans rfl,
    fun hb => (exec_csrRmw_readWrite hb (level _) rfl hmask rfl (writeCsr_mtvec _ _ _)).trans rfl,
    fun hb => (exec_csrRmw_readWrite hb (level _) rfl hmask rfl rfl).trans rfl,
    fun hb => (exec_csrRmw_readWrite hb (level _) rfl hmask rfl rfl).trans rfl,
    fun hb => (exec_csrRmw_readWrite hb (level _) rfl hmask rfl rfl).trans rfl⟩

/-- Settles O24: V is the predicate of the three that are written, and the indices of vl and vtype are read-only. -/
theorem vectorCsrWrites : Obligations.VectorCsrWrites := by
  intro s hv hmask m new
  exact ⟨
    fun hb => (exec_csrRmw_readWrite hb (Nat.zero_le _) hv hmask rfl rfl).trans rfl,
    fun hb => (exec_csrRmw_readWrite hb (Nat.zero_le _) hv hmask rfl rfl).trans rfl,
    fun hb => (exec_csrRmw_readWrite hb (Nat.zero_le _) hv hmask rfl rfl).trans rfl,
    fun hb => exec_csrRmw_readOnly hb (by decide) hmask,
    fun hb => exec_csrRmw_readOnly hb (by decide) hmask⟩

/-- Settles O25: both CSRs have a combined handler, whose answer is the obligation's. -/
theorem interruptPendingCsrs : Obligations.InterruptPendingCsrs := by
  intro s m merge
  exact ⟨
    fun hb hpriv => (exec_csrRmw_combined hb (level_le_of_m hpriv _) rfl rfl).trans rfl,
    fun hb hs hpriv => (exec_csrRmw_combined hb (level_le_of_ne_u hpriv (by decide)) hs rfl).trans rfl⟩

/-! ### The sstatus view (41_csr_dispatch.md R224) -/

/-- A composed value has the new bits under the mask and the old ones elsewhere (41_csr_dispatch.md R207). -/
theorem getLsbD_mergeMask (old nv m : Word) (i : Nat) :
    (mergeMask old nv m).getLsbD i = if m.getLsbD i then nv.getLsbD i else old.getLsbD i := by
  by_cases hi : i < 64
  · simp only [mergeMask, BitVec.getLsbD_or, BitVec.getLsbD_and, BitVec.getLsbD_not, hi]
    cases m.getLsbD i <;> simp
  · have hge : 64 ≤ i := by omega
    simp only [BitVec.getLsbD_of_ge _ i hge, ite_self]

/-- A field outside the mask keeps its old value. -/
theorem extractLsb'_mergeMask_of_mask_eq_zero {old nv m : Word} {start len : Nat}
    (h : m.extractLsb' start len = 0) : (mergeMask old nv m).extractLsb' start len = old.extractLsb' start len := by
  refine BitVec.eq_of_getLsbD_eq fun i hi => ?_
  have hbit := congrArg (BitVec.getLsbD · i) h
  simp only [BitVec.getLsbD_extractLsb', hi, decide_true, Bool.true_and, BitVec.ofNat_eq_ofNat,
    BitVec.getLsbD_zero] at hbit
  simp [BitVec.getLsbD_extractLsb', getLsbD_mergeMask, hbit]

/-- A field inside the mask takes its new value. -/
theorem extractLsb'_mergeMask_of_mask_eq_allOnes {old nv m : Word} {start len : Nat}
    (h : m.extractLsb' start len = BitVec.allOnes len) :
    (mergeMask old nv m).extractLsb' start len = nv.extractLsb' start len := by
  refine BitVec.eq_of_getLsbD_eq fun i hi => ?_
  have hbit := congrArg (BitVec.getLsbD · i) h
  simp only [BitVec.getLsbD_extractLsb', hi, decide_true, Bool.true_and, BitVec.getLsbD_allOnes] at hbit
  simp [BitVec.getLsbD_extractLsb', getLsbD_mergeMask, hbit]

/-- A one-bit field has its own bit and no other. -/
theorem getLsbD_flagBit (b : Bool) (n i : Nat) : (flagBit b n).getLsbD i = (b && decide (i < 64 ∧ i = n)) := by
  cases b with
  | false => simp [flagBit]
  | true =>
    rw [flagBit, if_pos rfl, BitVec.getLsbD_shiftLeft, BitVec.getLsbD_one, Bool.eq_iff_iff]
    simp only [Nat.zero_lt_succ, decide_true, Bool.true_and, Bool.and_eq_true, Bool.not_eq_true', decide_eq_true_eq,
      decide_eq_false_iff_not]
    omega

/-- The bits of mstatus below SD, which is bit XLEN-1 (10_state.md R42). -/
theorem Mstatus.getLsbD_value_of_lt (x : Xlen) (m : Mstatus) {i : Nat} (hi : i < 31) :
    (m.value x).getLsbD i = (m.sie && decide (i = 1) || m.mie && decide (i = 3) || m.spie && decide (i = 5) ||
      m.mpie && decide (i = 7) || m.spp && decide (i = 8) || decide (11 ≤ i) && m.mpp.code.getLsbD (i - 11) ||
      decide (13 ≤ i) && m.fs.getLsbD (i - 13)) := by
  have hsd : (if m.fs = 3 then x.topBit else 0).getLsbD i = false := by
    split
    · rw [x.getLsbD_topBit]
      cases x with
      | rv32 => exact decide_eq_false (show i ≠ 31 by omega)
      | rv64 => exact decide_eq_false (show i ≠ 63 by omega)
    · exact BitVec.getLsbD_zero
  have h64 : i < 64 := by omega
  have hfield (n : Nat) : i - n < 64 := by omega
  simp only [Mstatus.value, BitVec.getLsbD_or, BitVec.getLsbD_shiftLeft, BitVec.getLsbD_setWidth, getLsbD_flagBit, hsd,
    h64, hfield, true_and, decide_true, Bool.true_and, Bool.or_false, ← decide_not, Nat.not_lt]

/-- The field MPP of mstatus as a word is the code of the mode. -/
theorem Mstatus.extractLsb'_value_mpp (x : Xlen) (m : Mstatus) : (m.value x).extractLsb' 11 2 = m.mpp.code := by
  refine BitVec.eq_of_getLsbD_eq fun i hi => ?_
  rw [BitVec.getLsbD_extractLsb', m.getLsbD_value_of_lt x (by omega)]
  obtain rfl | rfl : i = 0 ∨ i = 1 := by omega
  · simp
  · simp

theorem Priv.ofCode_code (p : Priv) : Priv.ofCode p.code = some p := by cases p <;> rfl

/-- The code of the old mode leaves MPP as it is, legal or not (10_state.md R43). -/
theorem legalMpp_code (misa : Word) (p : Priv) : legalMpp misa p p.code = p := by
  simp [legalMpp, Priv.ofCode_code]

/-- `SSTATUS_W` lets through SIE, SPIE, SPP and FS alone (41_csr_dispatch.md R224). -/
theorem Mstatus.write_sstatus {misa : Word} (hs : misaHas misa Ext.S = true) (x : Xlen) (m : Mstatus) (v : Word) :
    m.write misa (mergeMask (m.value x) v sstatusWriteMask) = { m with
      sie := v.getLsbD 1, spie := v.getLsbD 5, spp := v.getLsbD 8
      fs := if misaFp misa then v.extractLsb' 13 2 else m.fs } := by
  have inside (i : Nat) (h : sstatusWriteMask.getLsbD i = true) :
      (mergeMask (m.value x) v sstatusWriteMask).getLsbD i = v.getLsbD i := by
    rw [getLsbD_mergeMask, if_pos h]
  have outside (i : Nat) (h : sstatusWriteMask.getLsbD i = false) :
      (mergeMask (m.value x) v sstatusWriteMask).getLsbD i = (m.value x).getLsbD i := by
    rw [getLsbD_mergeMask, if_neg (by simp [h])]
  have hmie : (m.value x).getLsbD 3 = m.mie := by
    rw [m.getLsbD_value_of_lt x (by decide)]
    simp
  have hmpie : (m.value x).getLsbD 7 = m.mpie := by
    rw [m.getLsbD_value_of_lt x (by decide)]
    simp
  have hmpp : legalMpp misa m.mpp ((mergeMask (m.value x) v sstatusWriteMask).extractLsb' 11 2) = m.mpp := by
    rw [extractLsb'_mergeMask_of_mask_eq_zero (by decide), m.extractLsb'_value_mpp, legalMpp_code]
  have hfs : (mergeMask (m.value x) v sstatusWriteMask).extractLsb' 13 2 = v.extractLsb' 13 2 :=
    extractLsb'_mergeMask_of_mask_eq_allOnes (by decide)
  simp only [Mstatus.write, hs, if_true, hmpp, hfs, inside 1 (by decide), inside 5 (by decide), inside 8 (by decide),
    outside 3 (by decide), outside 7 (by decide), hmie, hmpie]

/-- `sstatus.write(v)` with S (41_csr_dispatch.md R224). -/
theorem writeCsr_sstatus {s : State} (hs : misaHas s.misa Ext.S = true) (i : CsrIdx) (v : Word) :
    writeCsr s i .sstatus v = some { s with
      mstatus := { s.mstatus with
        sie := v.getLsbD 1, spie := v.getLsbD 5, spp := v.getLsbD 8
        fs := if misaFp s.misa then v.extractLsb' 13 2 else s.mstatus.fs } } := by
  rw [← Mstatus.write_sstatus hs s.cfg.xlen]
  rfl

/-- `sie.write(v)` with S, where every code is implemented (41_csr_dispatch.md R223, R225). -/
theorem writeCsr_sie {s : State} (hs : misaHas s.misa Ext.S = true) (i : CsrIdx) (v : Word) :
    writeCsr s i .sie v = some { s with mie := mergeMask s.mie v s.mideleg &&& 0xAAA } := by
  have himpl : implementedIrqs s.misa = 0xAAA := if_pos hs
  rw [← himpl]
  rfl

/-- Settles O20: S or M passes the checks, and the write handler legalises. -/
theorem supervisorCsrRmwLegalises : Obligations.SupervisorCsrRmwLegalises := by
  intro s hs hpriv hmask m new hasFp
  have level {i : CsrIdx} (hi : i.toNat / 256 % 4 ≤ 1) := level_le_of_ne_u hpriv hi
  exact ⟨
    fun hb => (exec_csrRmw_readWrite hb (level (by decide)) hs hmask rfl (writeCsr_sstatus hs _ _)).trans rfl,
    fun hb => (exec_csrRmw_readWrite hb (level (by decide)) hs hmask rfl (writeCsr_sie hs _ _)).trans rfl,
    fun hb => (exec_csrRmw_readWrite hb (level (by decide)) hs hmask rfl (writeCsr_stvec _ _ _)).trans rfl,
    fun hb => (exec_csrRmw_readWrite hb (level (by decide)) hs hmask rfl rfl).trans rfl,
    fun hb => (exec_csrRmw_readWrite hb (level (by decide)) hs hmask rfl rfl).trans rfl,
    fun hb => (exec_csrRmw_readWrite hb (level (by decide)) hs hmask rfl rfl).trans rfl⟩

/-! ### fcsr (10_state.md R37, R38, 41_csr_dispatch.md R218) -/

/-- fcsr as a word: fflags in bits 4:0, frm in 7:5 and, with the mirror, vxsat in bit 8 and vxrm in 10:9. -/
theorem State.setWidth_fcsrValue (s : State) :
    s.fcsrValue.setWidth 64 = s.fflags.setWidth 64 ||| (s.frm.setWidth 64 <<< 5) |||
      (if s.vxMirrorOn then (s.vec.vxsat.setWidth 64 <<< 8) ||| (s.vec.vxrm.setWidth 64 <<< 9) else 0) := by
  have hmirror : s.vxmirror.setWidth 64 <<< 8 =
      if s.vxMirrorOn then (s.vec.vxsat.setWidth 64 <<< 8) ||| (s.vec.vxrm.setWidth 64 <<< 9) else 0 := by
    unfold State.vxmirror
    split
    · rw [BitVec.setWidth_append_eq_shiftLeft_setWidth_or, BitVec.shiftLeft_or_distrib, ← BitVec.shiftLeft_add,
        BitVec.or_comm]
    · rfl
  have hall : s.fcsrValue.setWidth 64 = (s.vxmirror ++ (s.frm ++ s.fflags)).setWidth 64 := by
    refine BitVec.eq_of_getLsbD_eq fun i hi => ?_
    simp [State.fcsrValue]
  rw [hall, BitVec.setWidth_append_eq_shiftLeft_setWidth_or, BitVec.setWidth_append_eq_shiftLeft_setWidth_or, hmirror]
  ac_rfl

/-- `fcsr.write(v)`: the fields from an XLEN-bit value, and FS Dirty (41_csr_dispatch.md R218, R219). -/
theorem writeCsr_fcsr (s : State) (i : CsrIdx) (v : Word) :
    writeCsr s i .fcsr v = some { s with
      fflags := v.extractLsb' 0 5, frm := v.extractLsb' 5 3
      vec := if s.vxMirrorOn then { s.vec with vxsat := v.extractLsb' 8 1, vxrm := v.extractLsb' 9 2 } else s.vec
      mstatus := { s.mstatus with fs := 3 } } := by
  simp [writeCsr, State.dirtyFs, State.installFcsr, BitVec.extractLsb'_setWidth_of_le]

/-- Settles O23: with floating point on, an access to an FP CSR passes the checks, and its write handler dirties FS. -/
theorem fpCsrWriteDirtiesFs : Obligations.FpCsrWriteDirtiesFs := by
  intro s hfp hfs hmask m new dirty mirror fcsr
  have hpred (i : CsrIdx) : predHolds s i .fp = true := by
    rw [predHolds_fp, decide_eq_true hfs, Bool.and_true, Bool.or_eq_true]
    exact hfp
  have hread : readCsr s 0x003 .fcsr = some fcsr := congrArg some s.setWidth_fcsrValue
  exact ⟨
    fun hb => (exec_csrRmw_readWrite hb (Nat.zero_le _) (hpred _) hmask rfl rfl).trans rfl,
    fun hb => (exec_csrRmw_readWrite hb (Nat.zero_le _) (hpred _) hmask rfl rfl).trans rfl,
    fun hb => (exec_csrRmw_readWrite hb (Nat.zero_le _) (hpred _) hmask hread (writeCsr_fcsr _ _ _)).trans rfl⟩

end Sys2Proof.Machine
end

section
/-! SUPPORT. What a command that completes leaves where the outcome depends on a condition: the two returns, the frame
commands, and a CSR access in each of its uses. -/

namespace Sys2Proof.Machine

theorem State.takeTrap_mip (s : State) (r t : Word) : (s.takeTrap r t).mip = s.mip := by
  unfold State.takeTrap State.trapEnter
  simp only
  split
  · split <;> rfl
  · rfl

theorem State.altInstall_mip (s : State) (a f z sp : Word) : (s.altInstall a f z sp).2.mip = s.mip := by
  rw [s.altInstall_frame]

theorem State.deliver_mip (s : State) (frame : Word) : (s.deliver frame).mip = s.mip := by
  rw [s.deliver_frame]

theorem State.restore_mip (s : State) (frame : Word) : (s.restore frame).mip = s.mip := by
  have hcontext : (s.restoreContext frame).mip = s.mip := by rw [s.restoreContext_frame]
  exact (State.altInstall_mip _ _ _ _ _).trans hcontext

/-- A vector command that completes found V (40_regfile_ops.md R172, R173, R179). -/
theorem requireVector_eq_next {s t : State} {answer : Result} (h : requireVector s answer = .next t) :
    s.vActive = true ∧ answer = .next t := by
  unfold requireVector at h
  split at h
  · exact ⟨‹_›, h⟩
  · cases h

/-- MRET completes in M alone (42_trap_ops.md R265). -/
theorem exec_mret_cases {s t : State} (h : exec .mret s = .next t) : s.priv = .m ∧ t = s.mretReturn.respond .ok := by
  change execMret s = _ at h
  unfold execMret at h
  split at h
  · cases h
    exact ⟨‹_›, rfl⟩
  · cases h

/-- SRET completes with S, and not in U (42_trap_ops.md R265). -/
theorem exec_sret_cases {s t : State} (h : exec .sret s = .next t) :
    (misaHas s.misa Ext.S = true ∧ s.priv ≠ .u) ∧ t = s.sretReturn.respond .ok := by
  change execSret s = _ at h
  unfold execSret at h
  split at h
  · cases h
    exact ⟨‹_›, rfl⟩
  · cases h

/-- SIG_SETUP completes with a good signal number alone, by a delivery or with FRAME_FAULT (43_signal_frame.md R290,
R296). -/
theorem exec_sigSetup_cases {s t : State} (h : exec .sigSetup s = .next t) :
    s.ops.req.sigOk = true ∧
      ((s.lock s.frameAddr s.frameSize .write = true ∧ t = (s.deliver s.frameAddr).respond .ok) ∨
        (s.lock s.frameAddr s.frameSize .write = false ∧ t = s.respond (setupFailure s.ops.req.sig))) := by
  change execSigSetup s = _ at h
  unfold execSigSetup at h
  split at h
  · refine ⟨‹_›, ?_⟩
    split at h
    · cases h
      exact .inl ⟨‹_›, rfl⟩
    · cases h
      exact .inr ⟨Bool.eq_false_iff.mpr ‹_›, rfl⟩
  · cases h

/-- SIG_RETURN completes with a restore, or with FRAME_FAULT (43_signal_frame.md R300, R306). -/
theorem exec_sigReturn_cases {s t : State} (h : exec .sigReturn s = .next t) :
    (s.lock (s.readX 2) s.frameSize .read = true ∧ t = (s.restore (s.readX 2)).respond .sigreturned) ∨
      (s.lock (s.readX 2) s.frameSize .read = false ∧ t = s.respond (.fault sigsegv none)) := by
  change execSigReturn s = _ at h
  unfold execSigReturn at h
  split at h
  · cases h
    exact .inl ⟨‹_›, rfl⟩
  · cases h
    exact .inr ⟨Bool.eq_false_iff.mpr ‹_›, rfl⟩

/-- CSR_RMW ends with the access, whether it answers or fails (41_csr_dispatch.md R212). -/
theorem exec_csrRmw (csr : CsrIdx) (s : State) : exec (.csrRmw csr) s =
    .next ((s.csrAccess csr s.opA s.opB).elim (s.respond .illegal) fun a => a.2.respond (.data a.1)) := by
  change execCsrRmw csr s = _
  unfold execCsrRmw
  cases s.csrAccess csr s.opA s.opB <;> rfl

/-- CSR_RD leaves the state of the access aside (41_csr_dispatch.md R213). -/
theorem exec_csrRd (csr : CsrIdx) (s : State) : exec (.csrRd csr) s =
    .next (s.respond ((s.csrAccess csr 0 0).elim .illegal fun a => .data a.1)) := by
  change execCsrRd csr s = _
  unfold execCsrRd
  cases s.csrAccess csr 0 0 <;> rfl

/-- CSR_WR discards the old value (41_csr_dispatch.md R233). -/
theorem exec_csrWr (csr : CsrIdx) (s : State) : exec (.csrWr csr) s =
    .next ((s.csrAccess csr s.opA s.cfg.xlen.ones).elim (s.respond .illegal) fun a => a.2.respond .ok) := by
  change execCsrWr csr s = _
  unfold execCsrWr
  cases s.csrAccess csr s.opA s.cfg.xlen.ones <;> rfl

/-- A Zicsr word ends with the access, or with an illegal-instruction trap (30_encoding.md R141, 60_exceptions.md
R358). -/
theorem guestCsrAccess_eq (rd : RegIdx) (csr : CsrIdx) (nv m : Word) (s : State) : guestCsrAccess rd csr nv m s =
    .next ((s.csrAccess csr nv m).elim (s.takeTrap 2 0) fun a => (a.2.writeX rd a.1).respond .ok) := by
  unfold guestCsrAccess
  cases s.csrAccess csr nv m <;> rfl

end Sys2Proof.Machine
end

section
/-! SUPPORT. The interrupt operations of 42_trap_ops.md: the candidates and the choice among them, and who changes which
bit of mip. -/

namespace Sys2Proof.Machine

/-! ### IRQ_PEND (42_trap_ops.md R262, 60_exceptions.md R348, R349) -/

/-- The implemented codes are below 12 (60_exceptions.md R343). -/
theorem lt_twelve_of_implementedIrqs {misa : Word} {k : Nat} (h : (implementedIrqs misa).getLsbD k = true) : k < 12 := by
  have hbound : (implementedIrqs misa).toNat < 2 ^ 12 := by
    unfold implementedIrqs
    split <;> decide
  by_contra hk
  have hclear := Nat.testBit_lt_two_pow (hbound.trans_le (Nat.pow_le_pow_right (by decide) (Nat.le_of_not_lt hk)))
  exact absurd (h.symm.trans hclear) (by decide)

/-- A pending interrupt is an implemented one (10_state.md R44). -/
theorem State.Inv.lt_twelve_of_mip {s : State} (hinv : s.Inv) {k : Nat} (h : s.mip.getLsbD k = true) : k < 12 := by
  refine lt_twelve_of_implementedIrqs (misa := s.misa) ?_
  have hout := congrArg (BitVec.getLsbD · k) hinv.csr.mip
  simpa [h, BitVec.lt_of_getLsbD h] using hout

/-- The raw cause of an implemented interrupt is a sum: its code does not reach bit XLEN-1 (60_exceptions.md R344). -/
theorem irqCause_eq_add (x : Xlen) {k : Nat} (hk : k < 12) : irqCause x k = x.topBit + BitVec.ofNat 64 k := by
  refine (BitVec.add_eq_or_of_and_eq_zero _ _ (BitVec.eq_of_getLsbD_eq fun i _ => ?_)).symm
  have hcode : (BitVec.ofNat 64 k).getLsbD (x.bits - 1) = false := by
    have hlt : k < 2 ^ (x.bits - 1) := hk.trans (by cases x <;> decide)
    rw [BitVec.getLsbD_ofNat, Nat.testBit_lt_two_pow hlt, Bool.and_false]
  rw [BitVec.getLsbD_and, x.getLsbD_topBit, BitVec.getLsbD_zero]
  by_cases hi : i = x.bits - 1
  · rw [hi, hcode, Bool.and_false]
  · rw [decide_eq_false hi, Bool.false_and]

theorem State.mOn_iff (s : State) : s.mOn = true ↔ s.priv ≠ .m ∨ s.mstatus.mie = true := by
  simp [State.mOn]

theorem State.sOn_iff (s : State) : s.sOn = true ↔ s.priv = .u ∨ (s.priv = .s ∧ s.mstatus.sie = true) := by
  simp [State.sOn]

/-- A candidate of M is pending, enabled, not delegated, and M's interrupts are on (60_exceptions.md R348). -/
theorem State.getLsbD_candM_iff (s : State) (k : Nat) : s.candM.getLsbD k = true ↔
    (s.mip.getLsbD k = true ∧ s.mie.getLsbD k = true) ∧ s.mideleg.getLsbD k = false ∧
      (s.priv ≠ .m ∨ s.mstatus.mie = true) := by
  rw [← s.mOn_iff, State.candM]
  cases s.mOn with
  | false => simp
  | true =>
    by_cases hwidth : k < 64
    · simp [hwidth]
    · simp [BitVec.getLsbD_of_ge s.mip k (Nat.le_of_not_lt hwidth)]

/-- A candidate of S is pending, enabled, delegated, and S's interrupts are on (60_exceptions.md R348). -/
theorem State.getLsbD_candS_iff (s : State) (k : Nat) : s.candS.getLsbD k = true ↔
    (s.mip.getLsbD k = true ∧ s.mie.getLsbD k = true) ∧ s.mideleg.getLsbD k = true ∧
      (s.priv = .u ∨ (s.priv = .s ∧ s.mstatus.sie = true)) := by
  rw [← s.sOn_iff, State.candS]
  cases s.sOn <;> simp

/-- A candidate of M puts M first (60_exceptions.md R349). -/
theorem State.irqSet_of_candM {s : State} {k : Nat} (h : s.candM.getLsbD k = true) : s.irqSet = s.candM := by
  refine if_pos fun hzero : s.candM = 0#64 => ?_
  simp [hzero] at h

/-- Without a candidate of M the choice is S's (60_exceptions.md R349). -/
theorem State.irqSet_of_no_candM {s : State} (h : ∀ k, ¬ s.candM.getLsbD k = true) : s.irqSet = s.candS := by
  have hzero : s.candM = 0#64 := BitVec.eq_of_getLsbD_eq fun k _ => by
    rw [eq_false_of_ne_true (h k), BitVec.getLsbD_zero]
  exact if_neg (not_not_intro hzero)

/-- IRQ_PEND answers the cause of the first candidate in IRQ_PRIORITY (42_trap_ops.md R262, 60_exceptions.md R349). -/
theorem exec_irqPend_of_first {s : State} (hinv : s.Inv) {pre post : List Nat} {k : Nat}
    (hprio : s.cfg.irqPriority = pre ++ k :: post) (hk : s.irqSet.getLsbD k = true) (hmip : s.mip.getLsbD k = true)
    (hpre : ∀ j ∈ pre, ¬ s.irqSet.getLsbD j = true) :
    exec .irqPend s = .next (s.respond (.data (s.cfg.xlen.topBit + BitVec.ofNat 64 k))) := by
  have hselect : s.selectIrq = some k :=
    List.find?_eq_some_iff_append.mpr ⟨hk, pre, post, hprio, fun j hj => by simpa using hpre j hj⟩
  rw [← irqCause_eq_add s.cfg.xlen (hinv.lt_twelve_of_mip hmip)]
  change execIrqPend s = _
  rw [execIrqPend, hselect]

/-- IRQ_PEND answers 0 when nothing is a candidate (42_trap_ops.md R262). -/
theorem exec_irqPend_of_none {s : State} (h : ∀ k, ¬ s.irqSet.getLsbD k = true) :
    exec .irqPend s = .next (s.respond (.data 0)) := by
  have hselect : s.selectIrq = none := List.find?_eq_none.mpr fun k _ => h k
  change execIrqPend s = _
  rw [execIrqPend, hselect]

/-- Settles O37: the set of candidates is M's if M has one, else S's, and IRQ_PEND takes the first of IRQ_PRIORITY
in it. -/
theorem irqPendSelectsByPriority : Obligations.IrqPendSelectsByPriority := by
  intro s hinv pend candM candS answer
  have hM (k : Nat) : s.candM.getLsbD k = true ↔ candM k := s.getLsbD_candM_iff k
  have hS (k : Nat) : s.candS.getLsbD k = true ↔ candS k := s.getLsbD_candS_iff k
  have hirqS (hnone : ∀ j, ¬ candM j) : s.irqSet = s.candS :=
    State.irqSet_of_no_candM fun j => (hM j).not.mpr (hnone j)
  refine ⟨fun pre post k hprio hk hpre => ?_, fun pre post k hprio hnone hk hpre => ?_, fun hnone => ?_⟩
  · have hirq : s.irqSet = s.candM := State.irqSet_of_candM ((hM k).mpr hk)
    refine exec_irqPend_of_first hinv hprio ?_ hk.1.1 fun j hj => ?_
    · rw [hirq, hM]
      exact hk
    · rw [hirq, hM]
      exact hpre j hj
  · refine exec_irqPend_of_first hinv hprio ?_ hk.1.1 fun j hj => ?_
    · rw [hirqS hnone, hS]
      exact hk
    · rw [hirqS hnone, hS]
      exact hpre j hj
  · refine exec_irqPend_of_none fun j => ?_
    rw [hirqS fun j => (hnone j).1, hS]
    exact (hnone j).2

/-! ### The bits of mip outside SSIP, STIP and SEIP (0x222): only IP_UPDATE changes them (42_trap_ops.md R264) -/

theorem State.mergeMip_mip (s : State) (nv wm : Word) : (s.mergeMip nv wm).mip = mergeMask s.mip nv wm := rfl

theorem State.install_mip (s t : State) : (s.install t).mip = mergeMask s.mip t.mip (mipWritable s.misa) := rfl

/-- A bit outside the mask stays. -/
theorem getLsbD_mergeMask_of_not_mask {old nv m : Word} {k : Nat} (h : m.getLsbD k = false) :
    (mergeMask old nv m).getLsbD k = old.getLsbD k := by
  rw [getLsbD_mergeMask, if_neg (by simp [h])]

section
variable {k : Nat} (hk : (0x222#64).getLsbD k = false)
include hk

theorem getLsbD_mipWritable (misa : Word) : (mipWritable misa).getLsbD k = false := by
  unfold mipWritable
  split
  · exact hk
  · exact BitVec.getLsbD_zero

/-- A combined handler writes SSIP, STIP and SEIP at most (41_csr_dispatch.md R227, R228). -/
theorem getLsbD_mip_rmwCsr {s s' : State} {i : CsrIdx} {r : CsrRmw} {nv m old : Word}
    (h : rmwCsr s i r nv m = some (old, s')) : s'.mip.getLsbD k = s.mip.getLsbD k := by
  cases r with
  | mip =>
    cases h
    rw [State.mergeMip_mip, getLsbD_mergeMask_of_not_mask]
    rw [BitVec.getLsbD_and, getLsbD_mipWritable hk, Bool.and_false]
  | sip =>
    cases h
    rw [State.mergeMip_mip, getLsbD_mergeMask_of_not_mask]
    have hssip : (0x222#64 &&& 0x2#64).getLsbD k = false := by rw [BitVec.getLsbD_and, hk, Bool.false_and]
    exact (BitVec.getLsbD_and ..).trans (Bool.and_eq_false_imp.mpr fun _ => hssip)
  | fails => cases h
  | added n =>
    obtain ⟨⟨o, t⟩, -, e⟩ := Option.map_eq_some_iff.mp h
    obtain ⟨-, rfl⟩ := Prod.mk.inj e
    split
    · rfl
    · rw [State.install_mip, getLsbD_mergeMask_of_not_mask (getLsbD_mipWritable hk _)]

/-- A write handler of the baseline leaves mip, and an added one writes SSIP, STIP and SEIP at most (log entry 12). -/
theorem getLsbD_mip_writeCsr {s s' : State} {i : CsrIdx} {w : CsrWrite} {v : Word} (h : writeCsr s i w v = some s') :
    s'.mip.getLsbD k = s.mip.getLsbD k := by
  by_cases hadded : ∃ n, w = .added n
  · obtain ⟨n, rfl⟩ := hadded
    obtain ⟨t, -, rfl⟩ := Option.map_eq_some_iff.mp h
    rw [State.install_mip, getLsbD_mergeMask_of_not_mask (getLsbD_mipWritable hk _)]
  · rw [writeCsr_frame (fun n e => hadded ⟨n, e⟩) h]

theorem getLsbD_mip_csrAccess {s s' : State} {i : CsrIdx} {nv m old : Word} (h : s.csrAccess i nv m = some (old, s')) :
    s'.mip.getLsbD k = s.mip.getLsbD k := by
  obtain ⟨d, -, -, ⟨r, -, hr⟩ | ⟨-, r, -, -, ⟨-, rfl⟩ | ⟨-, w, -, hw⟩⟩⟩ := csrAccess_cases h
  · exact getLsbD_mip_rmwCsr hk hr
  · rfl
  · exact getLsbD_mip_writeCsr hk hw

/-- What ends with a CSR access changes no more of mip than the access does. -/
theorem getLsbD_mip_elim_csrAccess {s failed : State} {done : Word × State → State} {i : CsrIdx} {nv m : Word}
    (hfailed : failed.mip = s.mip) (hdone : ∀ a, (done a).mip = a.2.mip) :
    ((s.csrAccess i nv m).elim failed done).mip.getLsbD k = s.mip.getLsbD k := by
  cases h : s.csrAccess i nv m with
  | none => exact congrArg (BitVec.getLsbD · k) hfailed
  | some a => exact (congrArg (BitVec.getLsbD · k) (hdone a)).trans (getLsbD_mip_csrAccess hk h)

theorem getLsbD_mip_guestCsrAccess {s t : State} {rd : RegIdx} {csr : CsrIdx} {nv m : Word}
    (h : guestCsrAccess rd csr nv m s = .next t) : t.mip.getLsbD k = s.mip.getLsbD k := by
  rw [guestCsrAccess_eq] at h
  cases h
  exact getLsbD_mip_elim_csrAccess hk (s.takeTrap_mip 2 0) fun a => a.2.writeX_mip rd a.1

/-- No instruction but IP_UPDATE changes a bit of mip other than SSIP, STIP and SEIP, whatever the table. -/
theorem getLsbD_mip_exec {i : Instr} {s t : State} (hi : i ≠ .ipUpdate) (h : exec i s = .next t) :
    t.mip.getLsbD k = s.mip.getLsbD k := by
  cases i with
  | ipUpdate => exact absurd rfl hi
  | gprRd | fprRd | fprWr | pcRd | pcWr | privRd | extQ | featQ | vlmax | irqPend | maskRd | maskWr | altRd =>
    cases h
    rfl
  | gprWr | trampLiA7 =>
    cases h
    rw [State.respond_mip, State.writeX_mip]
  | vrRd | vrWr | vcfgWr =>
    cases (requireVector_eq_next h).2
    rfl
  | csrRmw =>
    rw [exec_csrRmw] at h
    cases h
    exact getLsbD_mip_elim_csrAccess hk rfl fun _ => rfl
  | csrRd =>
    rw [exec_csrRd] at h
    cases h
    rfl
  | csrWr =>
    rw [exec_csrWr] at h
    cases h
    exact getLsbD_mip_elim_csrAccess hk rfl fun _ => rfl
  | csrrw | csrrs | csrrc | csrrwi | csrrsi | csrrci => exact getLsbD_mip_guestCsrAccess hk h
  | trap | trampEcall =>
    cases h
    rw [State.takeTrap_mip]
  | mret =>
    obtain ⟨-, rfl⟩ := exec_mret_cases h
    rfl
  | sret =>
    obtain ⟨-, rfl⟩ := exec_sret_cases h
    rfl
  | sigSetup =>
    obtain ⟨-, ⟨-, rfl⟩ | ⟨-, rfl⟩⟩ := exec_sigSetup_cases h
    · rw [State.respond_mip, State.deliver_mip]
    · rfl
  | sigReturn =>
    obtain ⟨-, rfl⟩ | ⟨-, rfl⟩ := exec_sigReturn_cases h
    · rw [State.respond_mip, State.restore_mip]
    · rfl
  | altSet =>
    cases h
    rw [State.respond_mip, State.altInstall_mip]

end

/-- IP_UPDATE merges the operand into the implemented bits under the mask (42_trap_ops.md R264). -/
theorem exec_ipUpdate (s : State) : exec .ipUpdate s =
    .next ((s.mergeMip s.opB (s.opA &&& implementedIrqs s.misa)).respond .ok) := rfl

/-- Settles O38: IP_UPDATE is a merge of mip, and MSIP, MTIP and MEIP are no bits that another instruction changes. -/
theorem ipUpdateDrivesPendingBits : Obligations.IpUpdateDrivesPendingBits :=
  ⟨exec_ipUpdate, fun _ _ _ hi h =>
    ⟨getLsbD_mip_exec (by decide) hi h, getLsbD_mip_exec (by decide) hi h, getLsbD_mip_exec (by decide) hi h⟩⟩

end Sys2Proof.Machine
end

section
/-! SUPPORT. The alternate signal stack as numbers modulo 2^XLEN: when an address is on it, where a delivery puts its frame,
and what an install answers. -/

namespace Sys2Proof

/-- A word cut to XLEN bits is the number it stands for modulo 2^XLEN (00_scope.md R11). -/
theorem Xlen.toNat_trunc_intCast (x : Xlen) (k : Int) : ((x.trunc (k : Word)).toNat : Int) = k % 2 ^ x.bits := by
  rw [x.toNat_trunc, BitVec.toNat_intCast]
  cases x <;> simp only [Xlen.bits] <;> omega

/-- Aligning a word down to 4 (43_signal_frame.md R291). -/
theorem toNat_and_not_three (v : Word) : (v &&& ~~~3#64).toNat = v.toNat / 4 * 4 := by
  have hshift : v &&& ~~~3#64 = v >>> 2 <<< 2 := by
    refine BitVec.eq_of_getLsbD_eq fun i hi => ?_
    have hmask : (~~~3#64).getLsbD i = decide (2 ≤ i) :=
      (by decide : ∀ j : Fin 64, (~~~3#64).getLsbD j.val = decide (2 ≤ j.val)) ⟨i, hi⟩
    rw [BitVec.getLsbD_and, hmask, BitVec.getLsbD_shiftLeft, BitVec.getLsbD_ushiftRight]
    by_cases h2 : 2 ≤ i
    · simp [hi, h2, Nat.not_lt.mpr h2]
    · simp [h2, Nat.lt_of_not_le h2]
  have := v.isLt
  rw [hshift, BitVec.toNat_shiftLeft, BitVec.toNat_ushiftRight, Nat.shiftLeft_eq, Nat.shiftRight_eq_div_pow]
  omega

end Sys2Proof

namespace Sys2Proof.Machine

/-! ### The frame address (10_state.md R60, 43_signal_frame.md R291, R292) -/

theorem State.onSigStack_iff (s : State) {sp : Word} {a : Int} (h : (a : Word) = sp) : s.onSigStack sp = true ↔
    (a - s.altstack.ssSp.toNat) % 2 ^ s.cfg.xlen.bits < s.altstack.ssSize.toNat := by
  have hdiff : sp - s.altstack.ssSp = ((a - s.altstack.ssSp.toNat : Int) : Word) := by simp [h]
  rw [State.onSigStack, decide_eq_true_eq, BitVec.lt_def, State.tr, hdiff, ← Xlen.toNat_trunc_intCast, Int.ofNat_lt]

/-- No address is on a stack of size 0. -/
theorem State.ssSize_ne_zero_of_onSigStack {s : State} {sp : Word} (h : s.onSigStack sp = true) :
    s.altstack.ssSize ≠ 0 := by
  rw [State.onSigStack, decide_eq_true_eq] at h
  intro hzero
  rw [hzero] at h
  exact BitVec.not_lt_zero h

theorem State.sasSsFlags_of_disabled {s : State} (h : s.altstack.ssSize = 0) (sp : Word) : s.sasSsFlags sp = 2 :=
  if_pos h

theorem State.sasSsFlags_of_onSigStack {s : State} {sp : Word} (h : s.onSigStack sp = true) : s.sasSsFlags sp = 1 :=
  (if_neg (State.ssSize_ne_zero_of_onSigStack h)).trans (if_pos h)

theorem State.sasSsFlags_of_off {s : State} {sp : Word} (hsize : s.altstack.ssSize ≠ 0)
    (h : s.onSigStack sp = false) : s.sasSsFlags sp = 0 :=
  (if_neg hsize).trans (if_neg (Bool.eq_false_iff.mp h))

/-- Where a frame of the state's size goes below an address (43_signal_frame.md R291). -/
def State.placeBelow (s : State) (top : Word) : Word := s.tr (top - BitVec.ofNat 64 s.frameSize) &&& ~~~3#64

theorem State.toNat_placeBelow (s : State) {top : Word} {a : Int} (h : (a : Word) = top) :
    ((s.placeBelow top).toNat : Int) = (a - s.frameSize) % 2 ^ s.cfg.xlen.bits / 4 * 4 := by
  have hdiff : top - BitVec.ofNat 64 s.frameSize = ((a - s.frameSize : Int) : Word) := by simp [h]
  rw [State.placeBelow, toNat_and_not_three, State.tr, hdiff, ← Xlen.toNat_trunc_intCast]
  rfl

/-- The address of a frame that does not overflow the stack it is on: below the end of the alternate stack or below sp. -/
theorem State.frameAddr_eq_placeBelow {s : State}
    (h : s.onSigStack (s.readX 2) = true → s.onSigStack (s.readX 2 - BitVec.ofNat 64 s.frameSize) = true) :
    s.frameAddr = s.placeBelow (if s.ops.req.onstack && s.sasSsFlags (s.readX 2) == 0
      then s.altstack.ssSp + s.altstack.ssSize else s.readX 2) := by
  refine if_neg fun hover => ?_
  rw [Bool.and_eq_true, Bool.not_eq_true'] at hover
  exact Bool.eq_false_iff.mp hover.2 (h hover.1)

theorem State.frameAddr_of_overflow {s : State} (hsp : s.onSigStack (s.readX 2) = true)
    (hframe : s.onSigStack (s.readX 2 - BitVec.ofNat 64 s.frameSize) = false) : s.frameAddr = s.cfg.xlen.ones := by
  refine if_pos ?_
  rw [hsp, hframe]
  rfl

/-- On the alternate stack a delivery does not switch. -/
theorem State.frameAddr_of_onSigStack {s : State} (hsp : s.onSigStack (s.readX 2) = true)
    (hframe : s.onSigStack (s.readX 2 - BitVec.ofNat 64 s.frameSize) = true) :
    s.frameAddr = s.placeBelow (s.readX 2) := by
  rw [State.frameAddr_eq_placeBelow fun _ => hframe, State.sasSsFlags_of_onSigStack hsp, if_neg (by simp)]

/-- A delivery switches to the end of an enabled alternate stack when it is asked to and is not on it. -/
theorem State.frameAddr_of_switch {s : State} (hsp : s.onSigStack (s.readX 2) = false)
    (hon : s.ops.req.onstack = true) (hsize : s.altstack.ssSize ≠ 0) :
    s.frameAddr = s.placeBelow (s.altstack.ssSp + s.altstack.ssSize) := by
  rw [State.frameAddr_eq_placeBelow fun h => absurd h (Bool.eq_false_iff.mp hsp), State.sasSsFlags_of_off hsize hsp, hon,
    if_pos (by rfl)]

/-- A delivery that is not asked to switch, or has no stack to switch to, stays below sp. -/
theorem State.frameAddr_of_stay {s : State} (hsp : s.onSigStack (s.readX 2) = false)
    (h : s.ops.req.onstack = false ∨ s.altstack.ssSize = 0) : s.frameAddr = s.placeBelow (s.readX 2) := by
  rw [State.frameAddr_eq_placeBelow fun h => absurd h (Bool.eq_false_iff.mp hsp), if_neg]
  rcases h with hon | hsize
  · simp [hon]
  · simp [State.sasSsFlags_of_disabled hsize]

/-- Settles O40: the four cases of the switching convention, each with its address as a number modulo 2^XLEN. -/
theorem frameAddressFollowsTheSwitchingConvention : Obligations.FrameAddressFollowsTheSwitchingConvention := by
  intro s n sp base size frame onStack placed
  have hsp : s.onSigStack (s.readX 2) = true ↔ onStack sp := s.onSigStack_iff (by simp [sp])
  have hframe : s.onSigStack (s.readX 2 - BitVec.ofNat 64 s.frameSize) = true ↔ onStack (sp - frame) :=
    s.onSigStack_iff (by simp [sp, frame])
  have hplaced : ((s.placeBelow (s.readX 2)).toNat : Int) = placed sp := s.toNat_placeBelow (by simp [sp])
  have hend : ((s.placeBelow (s.altstack.ssSp + s.altstack.ssSize)).toNat : Int) = placed (base + size) :=
    s.toNat_placeBelow (by simp [base, size])
  have hsize : s.altstack.ssSize = 0 ↔ size = 0 := by
    rw [← BitVec.toNat_inj, ← Int.ofNat_inj]
    rfl
  have hoff (h : ¬ onStack sp) : s.onSigStack (s.readX 2) = false := Bool.eq_false_iff.mpr (mt hsp.mp h)
  refine ⟨fun h h' => ?overflow, fun h h' => ?onStack, fun h hon hpos => ?switch, fun h h' => ?stay⟩
  case overflow =>
    rw [State.frameAddr_of_overflow (hsp.mpr h) (Bool.eq_false_iff.mpr (mt hframe.mp h')), Xlen.toNat_ones,
      Nat.cast_sub Nat.one_le_two_pow, Nat.cast_pow]
    rfl
  case onStack => rw [State.frameAddr_of_onSigStack (hsp.mpr h) (hframe.mpr h'), hplaced]
  case switch => rw [State.frameAddr_of_switch (hoff h) hon (mt hsize.mp hpos.ne'), hend]
  case stay => rw [State.frameAddr_of_stay (hoff h) (h'.imp_right hsize.mpr), hplaced]

/-! ### Reading and installing the alternate stack (43_signal_frame.md R312, R313) -/

theorem exec_altRd (arg : BitVec 8) (s : State) : exec (.altRd arg) s =
    .next (s.respond (.data (if arg = 0 then s.altstack.ssSp else if arg = 1 then s.altstack.ssSize
      else if arg = 2 then s.sasSsFlags (s.readX 2) else 0))) := rfl

/-- ALT_SET answers the result code of the install (43_signal_frame.md R313). -/
theorem exec_altSet (arg : BitVec 8) (s : State) : exec (.altSet arg) s =
    .next ((s.altInstall s.opA (arg.setWidth 64) s.opB (s.readX 2)).2.respond
      (.data (s.altInstall s.opA (arg.setWidth 64) s.opB (s.readX 2)).1)) := rfl

theorem State.altInstall_of_onSigStack {s : State} {sp : Word} (h : s.onSigStack sp = true) (a f z : Word) :
    s.altInstall a f z sp = (1, s) :=
  if_pos h

/-- The three answers of an install off the stack, by its flags and its size. -/
theorem State.altInstall_of_off {s : State} {sp : Word} (h : s.onSigStack sp = false) (a f z : Word) :
    s.altInstall a f z sp =
      if f = 2 then (0, { s with altstack := ⟨0, 0⟩ })
      else if (f = 0 ∨ f = 1) ∧ MINSIGSTKSZ ≤ z.toNat then (0, { s with altstack := ⟨a, z⟩ })
      else (2, s) :=
  if_neg (Bool.eq_false_iff.mp h)

theorem setWidth_eq_ofNat_iff (arg : BitVec 8) {k : Nat} (hk : k < 256) :
    arg.setWidth 64 = BitVec.ofNat 64 k ↔ arg.toNat = k := by
  rw [← BitVec.toNat_inj, BitVec.toNat_setWidth, BitVec.toNat_ofNat]
  omega

/-- Settles O50: ALT_RD by its argument, ALT_SET by whether sp is on the stack, then by its flags and the size. -/
theorem alternateStackReadAndSet : Obligations.AlternateStackReadAndSet := by
  intro s arg n a b onStack rd set
  have hon : s.onSigStack (s.readX 2) = true ↔ onStack := s.onSigStack_iff (by simp)
  have hoff (h : ¬ onStack) : s.onSigStack (s.readX 2) = false := Bool.eq_false_iff.mpr (mt hon.mp h)
  have harg {k : BitVec 8} (h : arg.toNat = k.toNat) : arg = k := BitVec.eq_of_toNat_eq h
  have hrdFlags {v : Word} (h : arg.toNat = 2) (hv : s.sasSsFlags (s.readX 2) = v) : rd v := by
    obtain rfl := harg (k := 2) h
    rw [← hv]
    exact exec_altRd 2 s
  have hset {alt : AltStack} {code : Word}
      (h : s.altInstall s.opA (arg.setWidth 64) s.opB (s.readX 2) = (code, { s with altstack := alt })) :
      set alt code := by
    simp only [set, exec_altSet, h]
    rfl
  have h0 : arg.setWidth 64 = (0 : Word) ↔ arg.toNat = 0 := setWidth_eq_ofNat_iff arg (by decide)
  have h1 : arg.setWidth 64 = (1 : Word) ↔ arg.toNat = 1 := setWidth_eq_ofNat_iff arg (by decide)
  have h2 : arg.setWidth 64 = (2 : Word) ↔ arg.toNat = 2 := setWidth_eq_ofNat_iff arg (by decide)
  refine ⟨fun h => ?rdSp, fun h => ?rdSize, fun h hsize => ?rdDisabled, fun h _ h' => ?rdOn, fun h hsize h' => ?rdOff,
    fun h => ?rdOther, fun h => ?setOn, fun h hf => ?disable, fun h hf hb => ?install, fun h hf hb => ?tooSmall,
    fun h hf => ?badFlags⟩
  case rdSp => obtain rfl := harg (k := 0) h; exact exec_altRd 0 s
  case rdSize => obtain rfl := harg (k := 1) h; exact exec_altRd 1 s
  case rdDisabled => exact hrdFlags h (State.sasSsFlags_of_disabled hsize _)
  case rdOn => exact hrdFlags h (State.sasSsFlags_of_onSigStack (hon.mpr h'))
  case rdOff => exact hrdFlags h (State.sasSsFlags_of_off hsize (hoff h'))
  case rdOther =>
    have hne {k : BitVec 8} (hk : k.toNat < 3) : arg ≠ k := by rintro rfl; omega
    simp only [rd, exec_altRd, hne (k := 0) (by decide), hne (k := 1) (by decide), hne (k := 2) (by decide), if_false]
    rfl
  case setOn => exact hset (State.altInstall_of_onSigStack (hon.mpr h) _ _ _)
  all_goals refine hset ((State.altInstall_of_off (hoff h) _ _ _).trans ?_)
  case disable => exact if_pos (h2.mpr hf)
  case install =>
    have hflags : arg.setWidth 64 = (0 : Word) ∨ arg.setWidth 64 = (1 : Word) := by rw [h0, h1]; omega
    exact (if_neg (mt h2.mp (by omega))).trans (if_pos ⟨hflags, hb⟩)
  case tooSmall => exact (if_neg (mt h2.mp (by omega))).trans (if_neg fun hz => absurd hz.2 (Nat.not_le.mpr hb))
  case badFlags =>
    have hflags : ¬ (arg.setWidth 64 = (0 : Word) ∨ arg.setWidth 64 = (1 : Word)) := by rw [h0, h1]; omega
    exact (if_neg (mt h2.mp (by omega))).trans (if_neg fun hz => hflags hz.1)

end Sys2Proof.Machine
end

section
/-! SUPPORT. Delivery and return command by command: what SIG_SETUP leaves in each register, and what SIG_RETURN makes of
the frame it finds. -/

namespace Sys2Proof.Machine

/-! ### SIG_SETUP (43_signal_frame.md R290, R295, R298) -/

theorem SigReq.sigOk_of_bounds {r : SigReq} (h₁ : 1 ≤ r.sig.toNat) (h₂ : r.sig.toNat ≤ 64) : r.sigOk = true := by
  simp [SigReq.sigOk, NSIG, h₁, h₂]

/-- Settles O41: the frame of a delivery, and each register it leaves. -/
theorem sigSetupRedirectsTheHart : Obligations.SigSetupRedirectsTheHart := by
  intro s h₁ h₂ hl
  have hreg (i : RegIdx) : ((s.deliver s.frameAddr).respond .ok).readX i = _ := s.readX_deliver s.frameAddr i
  refine ⟨_, execSigSetup_admitted (SigReq.sigOk_of_bounds h₁ h₂) hl, ?_, ?_, ?_, ?_, ?_, ?_, fun r n1 n2 n10 n11 n12 => ?_⟩
  · rw [s.deliver_frame]
    rfl
  · exact hreg 2
  · exact hreg 10
  · exact hreg 11
  · exact hreg 12
  · exact hreg 1
  · rw [hreg, if_neg n1, if_neg n12, if_neg n11, if_neg n10, if_neg n2]

/-! ### SIG_RETURN (43_signal_frame.md R300 to R306) -/

/-- Settles O47: the lock is checked before anything is restored. -/
theorem sigReturnFailureChangesNothing : Obligations.SigReturnFailureChangesNothing := fun _ hl =>
  if_neg (Bool.eq_false_iff.mp hl)

/-- The alternate stack after an install depends on the width and on the stack before it alone. -/
theorem State.altInstall_altstack_congr {s t : State} (hc : t.cfg = s.cfg) (ha : t.altstack = s.altstack)
    (a f z sp : Word) : (t.altInstall a f z sp).2.altstack = (s.altInstall a f z sp).2.altstack := by
  have hon : t.onSigStack sp = s.onSigStack sp := by rw [State.onSigStack, State.onSigStack, State.tr, State.tr, hc, ha]
  cases h : s.onSigStack sp with
  | true => rw [State.altInstall_of_onSigStack h, State.altInstall_of_onSigStack (hon.trans h), ha]
  | false =>
    rw [State.altInstall_of_off h, State.altInstall_of_off (hon.trans h)]
    split
    · rfl
    · split
      · rfl
      · exact ha

theorem State.altInstall_frame_of_congr {s t : State} (hc : t.cfg = s.cfg) (ha : t.altstack = s.altstack)
    (a f z sp : Word) :
    (t.altInstall a f z sp).2 = { t with altstack := (s.altInstall a f z sp).2.altstack } := by
  rw [t.altInstall_frame, State.altInstall_altstack_congr hc ha]

theorem State.readF_congr {s t : State} (h : t.f = s.f) (j : RegIdx) : t.readF j = s.readF j := by
  unfold State.readF
  simp only [h]

/-- The state a return builds before it reinstalls the alternate stack (43_signal_frame.md R302, R304). -/
def State.restoreMasked (s : State) (frame : Word) : State :=
  { s.restoreContext frame with blocked := s.frameLoad frame (sigmaskOff s.cfg.xlen) 8 }

theorem State.restore_eq (s : State) (frame : Word) : s.restore frame =
    ((s.restoreMasked frame).altInstall (s.frameLoad frame (ssSpOff s.cfg.xlen) s.cfg.xlen.bytes)
      (s.frameLoad frame (ssFlagsOff s.cfg.xlen) 4) (s.frameLoad frame (ssSizeOff s.cfg.xlen) s.cfg.xlen.bytes)
      ((s.restoreMasked frame).readX 2)).2 := rfl

/-- The alternate stack a return leaves: that of an install of the saved descriptor with the restored sp (43_signal_frame.md
R305). -/
def State.restoredAlt (s : State) (frame : Word) : AltStack :=
  (s.altInstall (s.frameLoad frame (ssSpOff s.cfg.xlen) s.cfg.xlen.bytes) (s.frameLoad frame (ssFlagsOff s.cfg.xlen) 4)
    (s.frameLoad frame (ssSizeOff s.cfg.xlen) s.cfg.xlen.bytes) ((s.restoreRegs frame).readX 2)).2.altstack

/-- What a return changes (43_signal_frame.md R304, R305). -/
theorem State.restore_frame (s : State) (frame : Word) : s.restore frame = { s with
    pc := s.frameLoad frame (pcOff s.cfg.xlen) s.cfg.xlen.bytes
    x := (s.restoreRegs frame).x
    f := (s.restoreRegs frame).f
    fflags := (s.frameLoad frame (fcsrOff s.cfg.xlen) 4).extractLsb' 0 5
    frm := (s.frameLoad frame (fcsrOff s.cfg.xlen) 4).extractLsb' 5 3
    vec := (s.restoreContext frame).vec
    blocked := s.frameLoad frame (sigmaskOff s.cfg.xlen) 8
    altstack := s.restoredAlt frame } := by
  have hctx := s.restoreContext_frame frame
  rw [BitVec.extractLsb'_setWidth_of_le (by decide), BitVec.extractLsb'_setWidth_of_le (by decide)] at hctx
  have hcfg : (s.restoreContext frame).cfg = s.cfg := by rw [hctx]
  have halt : (s.restoreContext frame).altstack = s.altstack := by rw [hctx]
  have hsp : (s.restoreMasked frame).readX 2 = (s.restoreRegs frame).readX 2 :=
    State.readX_congr (show (s.restoreContext frame).x = _ by rw [hctx]) 2
  rw [s.restore_eq, hsp, State.altInstall_frame_of_congr (t := s.restoreMasked frame) hcfg halt, State.restoreMasked,
    hctx]
  rfl

section
variable (s : State) (frame : Word)

theorem State.restore_pc :
    (s.restore frame).pc = s.frameLoad frame (pcOff s.cfg.xlen) s.cfg.xlen.bytes := by rw [s.restore_frame]
theorem State.restore_x : (s.restore frame).x = (s.restoreRegs frame).x := by rw [s.restore_frame]
theorem State.restore_f : (s.restore frame).f = (s.restoreRegs frame).f := by rw [s.restore_frame]
theorem State.restore_fflags :
    (s.restore frame).fflags = (s.frameLoad frame (fcsrOff s.cfg.xlen) 4).extractLsb' 0 5 := by rw [s.restore_frame]
theorem State.restore_frm :
    (s.restore frame).frm = (s.frameLoad frame (fcsrOff s.cfg.xlen) 4).extractLsb' 5 3 := by rw [s.restore_frame]
theorem State.restore_vec : (s.restore frame).vec = (s.restoreContext frame).vec := by rw [s.restore_frame]
theorem State.restore_blocked :
    (s.restore frame).blocked = s.frameLoad frame (sigmaskOff s.cfg.xlen) 8 := by rw [s.restore_frame]
theorem State.restore_altstack : (s.restore frame).altstack = s.restoredAlt frame := by rw [s.restore_frame]

theorem State.readF_restoreRegs (j : RegIdx) :
    (s.restoreRegs frame).readF j = s.frameLoad frame (fprOff s.cfg.xlen + 8 * j.toNat) 8 := by
  simp only [State.readF, State.restoreRegs, Vector.getElem_ofFn]

theorem State.getElem_vr_restoredVec (k : RegIdx) (h : k.toNat < 32) : (s.restoredVec frame).vr[k.toNat] =
    s.frameLoad frame (vrOff s.cfg.xlen s.cfg.mcReserved + 16 * k.toNat + 8) 8 ++
      s.frameLoad frame (vrOff s.cfg.xlen s.cfg.mcReserved + 16 * k.toNat) 8 := by
  simp only [State.restoredVec, Vector.getElem_ofFn]

end

/-- Settles O46: each restored field from its offset, by the layout of R281 to R286. -/
theorem sigReturnRestoresTheFrame : Obligations.SigReturnRestoresTheFrame := by
  intro s hl w mcb vb at_ hasV
  have hmcb : mcb = mcbOff s.cfg.xlen := by
    simp only [mcb]
    cases s.cfg.xlen <;> rfl
  have hvb : vb = vrOff s.cfg.xlen s.cfg.mcReserved :=
    congrArg (· + (32 * w + 260 + s.cfg.mcReserved + 15) / 16 * 16) hmcb
  clear_value vb mcb
  subst hmcb hvb
  refine ⟨_, execSigReturn_admitted hl, ?frame, ?pc, fun i hi => ?x, fun j => ?f, ?fflags, ?frm, fun hv => ?vector,
    fun hv => ?noVector, ?blocked, ?alt⟩
  case frame =>
    rw [s.restore_frame]
    rfl
  case pc => exact s.restore_pc _
  case x => exact (State.readX_congr (s.restore_x _) i).trans (s.readX_restoreRegs _ i hi)
  case f => exact (State.readF_congr (s.restore_f _) j).trans (s.readF_restoreRegs _ j)
  case fflags => exact s.restore_fflags _
  case frm => exact s.restore_frm _
  case vector =>
    have hvec : ((s.restore (s.readX 2)).respond .sigreturned).vec = s.restoredVec (s.readX 2) :=
      (s.restore_vec _).trans (State.restoreContext_vec_active hv _)
    refine ⟨fun k => ?_, congrArg VecState.vstart hvec, congrArg VecState.vxsat hvec, congrArg VecState.vxrm hvec,
      congrArg VecState.vl hvec, congrArg VecState.vtype hvec⟩
    rw [State.readV]
    simp only [hvec]
    exact s.getElem_vr_restoredVec _ k k.isLt
  case noVector => exact (s.restore_vec _).trans (State.restoreContext_vec_inactive hv _)
  case blocked => exact s.restore_blocked _
  case alt =>
    rw [State.readX_respond, State.readX_congr (s.restore_x _)]
    exact s.restore_altstack _

end Sys2Proof.Machine
end

section
/-! SUPPORT. The round trip of 43_signal_frame.md R307: what a return loads from the frame that a delivery wrote. -/

namespace Sys2Proof.Machine

/-! ### Values that survive being saved -/

theorem VecState.ext {v w : VecState} (hvr : v.vr = w.vr) (hvstart : v.vstart = w.vstart) (hvxsat : v.vxsat = w.vxsat)
    (hvxrm : v.vxrm = w.vxrm) (hvl : v.vl = w.vl) (hvtype : v.vtype = w.vtype) : v = w := by
  cases v
  cases w
  congr

/-- A short field survives being saved as a word. -/
theorem extractLsb'_setWidth_self {n : Nat} (hn : n ≤ 64) (v : BitVec n) : (v.setWidth 64).extractLsb' 0 n = v :=
  (BitVec.extractLsb'_setWidth_of_le (by omega)).trans BitVec.extractLsb'_eq_self

/-- The FP fields stand at the foot of fcsr (10_state.md R37). -/
theorem State.extractLsb'_fcsrValue (s : State) :
    s.fcsrValue.extractLsb' 0 5 = s.fflags ∧ s.fcsrValue.extractLsb' 5 3 = s.frm := by
  unfold State.fcsrValue
  rw [BitVec.extractLsb'_setWidth_of_le (by decide), BitVec.extractLsb'_setWidth_of_le (by decide),
    BitVec.extractLsb'_append_eq_of_add_le (by decide), BitVec.extractLsb'_append_eq_of_add_le (by decide),
    BitVec.extractLsb'_append_eq_of_add_le (by decide), BitVec.extractLsb'_append_eq_of_le (by decide)]
  exact ⟨BitVec.extractLsb'_eq_self, BitVec.extractLsb'_eq_self⟩

/-- A saved descriptor installs as the stack it was saved from: refused on the stack, and off it disabled or installed as it
was (43_signal_frame.md R307, R313). -/
theorem State.altInstall_saved {s : State} (h : s.AltInv) (sp : Word) :
    (s.altInstall s.altstack.ssSp (s.sasSsFlags sp) s.altstack.ssSize sp).2.altstack = s.altstack := by
  cases hon : s.onSigStack sp with
  | true => rw [State.altInstall_of_onSigStack hon]
  | false =>
    rw [State.altInstall_of_off hon]
    rcases h with hnone | hsize
    · rw [State.sasSsFlags_of_disabled (by rw [hnone]), if_pos rfl, hnone]
    · have hne : s.altstack.ssSize ≠ 0 := by
        intro h0
        rw [h0] at hsize
        exact absurd hsize (by decide)
      rw [State.sasSsFlags_of_off hne hon, if_neg (by decide), if_pos ⟨.inl rfl, hsize⟩]

theorem State.toNat_sasSsFlags_lt (s : State) (sp : Word) : (s.sasSsFlags sp).toNat < 2 ^ 32 := by
  unfold State.sasSsFlags
  split
  · decide
  · split <;> decide

theorem State.fits_csrs {s : State} (h : s.Inv) : ∀ v ∈ s.vec.csrs, s.Fits v := by
  simp only [VecState.csrs, List.forall_mem_cons]
  exact ⟨h.width.vstart, s.fits_setWidth _ (by decide), s.fits_setWidth _ (by decide), h.width.vl, h.width.vtype, by simp⟩

/-! ### Loads from the frame of a delivery -/

/-- A state that still has the frame of a delivery from `s`, and the parameters and the alternate stack of `s`. -/
structure State.HasFrameOf (u s : State) (frame : Word) : Prop where
  cfg : u.cfg = s.cfg
  misa : u.misa = s.misa
  altstack : u.altstack = s.altstack
  mem : u.mem = writeFields s.mem frame.toNat s.frameFields

namespace State.HasFrameOf

variable {s u : State} {frame : Word} (h : u.HasFrameOf s frame) (hs : s.Inv)
include h hs

theorem load_xlen {o : Nat} {v : Word} (hv : s.Fits v) (hf : (o, leBytes s.cfg.xlen.bytes v) ∈ s.frameFields) :
    u.frameLoad frame o s.cfg.xlen.bytes = v := by
  rw [State.frameLoad, h.mem, load_frameField_xlen hs.mem.wf _ hv hf]

theorem load_eight {o : Nat} {v : Word} (hf : (o, leBytes 8 v) ∈ s.frameFields) : u.frameLoad frame o 8 = v := by
  rw [State.frameLoad, h.mem, load_frameField_eight hs.mem.wf _ hf]

theorem load_four {o : Nat} {v : Word} (hv : v.toNat < 2 ^ 32) (hf : (o, leBytes 4 v) ∈ s.frameFields) :
    u.frameLoad frame o 4 = v := by
  rw [State.frameLoad, h.mem, load_frameField_four hs.mem.wf _ hv hf]

theorem restore_pc : (u.restore frame).pc = s.pc := by
  rw [State.restore_pc, h.cfg]
  exact h.load_xlen hs hs.width.pc (mem_frameFields_pc s)

theorem readX_restoreRegs (i : RegIdx) (hi : i ≠ 0) : (u.restoreRegs frame).readX i = s.readX i := by
  rw [State.readX_restoreRegs _ _ i hi, h.cfg]
  exact h.load_xlen hs (hs.width.x i) (mem_frameFields_x s i hi)

theorem restore_x : (u.restore frame).x = s.x :=
  (u.restore_x frame).trans (State.x_eq_of_readX (h.readX_restoreRegs hs))

theorem restore_f : (u.restore frame).f = s.f := by
  rw [State.restore_f]
  refine Vector.ext fun k hk => ?_
  have hj : (BitVec.ofNat 5 k).toNat = k := (BitVec.toNat_ofNat k 5).trans (Nat.mod_eq_of_lt hk)
  have hload : (u.restoreRegs frame).readF (BitVec.ofNat 5 k) = s.readF (BitVec.ofNat 5 k) := by
    rw [State.readF_restoreRegs, h.cfg]
    exact h.load_eight hs (mem_frameFields_f s _)
  simpa [State.readF, hj] using hload

theorem load_fcsr : u.frameLoad frame (fcsrOff u.cfg.xlen) 4 = s.fcsrValue.setWidth 64 := by
  rw [h.cfg]
  refine h.load_four hs ?_ (mem_frameFields_fcsr s)
  rw [BitVec.toNat_setWidth]
  omega

theorem restore_fflags : (u.restore frame).fflags = s.fflags := by
  rw [State.restore_fflags, h.load_fcsr hs, BitVec.extractLsb'_setWidth_of_le (by decide), s.extractLsb'_fcsrValue.1]

theorem restore_frm : (u.restore frame).frm = s.frm := by
  rw [State.restore_frm, h.load_fcsr hs, BitVec.extractLsb'_setWidth_of_le (by decide), s.extractLsb'_fcsrValue.2]

theorem restore_blocked : (u.restore frame).blocked = s.ops.req.mask := by
  rw [State.restore_blocked, h.cfg]
  exact h.load_eight hs (mem_frameFields_ucontext (by simp [State.ucontextFields]))

theorem vr_restoredVec (hv : s.vActive = true) : (u.restoredVec frame).vr = s.vec.vr := by
  refine Vector.ext fun k hk => ?_
  have hj : (BitVec.ofNat 5 k).toNat = k := (BitVec.toNat_ofNat k 5).trans (Nat.mod_eq_of_lt hk)
  obtain ⟨hlow, hhigh⟩ := mem_frameFields_vr s hv (BitVec.ofNat 5 k)
  have hreg := u.getElem_vr_restoredVec frame (BitVec.ofNat 5 k) (BitVec.isLt _)
  rw [h.cfg, h.load_eight hs hlow, h.load_eight hs hhigh, BitVec.extractLsb'_append_extractLsb'] at hreg
  simpa [State.readV, hj] using hreg

theorem load_vcsr (hv : s.vActive = true) (k : Nat) (hk : k < 5) :
    u.frameLoad frame (vcsrOff u.cfg.xlen u.cfg.mcReserved + k * u.cfg.xlen.bytes) u.cfg.xlen.bytes =
      s.vec.csrs[k]'hk := by
  rw [h.cfg]
  exact h.load_xlen hs (State.fits_csrs hs _ (List.getElem_mem _)) (mem_frameFields_vcsr s hv k hk)

theorem restore_vec (hv : s.vActive = true) : (u.restore frame).vec = s.vec := by
  have hu : u.vActive = true := by rw [State.vActive, h.misa]; exact hv
  have hcsr := h.load_vcsr hs hv
  have hvstart : (u.restoredVec frame).vstart = s.vec.vstart := by
    have hload := hcsr 0 (by decide)
    rw [Nat.zero_mul, Nat.add_zero] at hload
    exact hload
  have hvxsat : (u.restoredVec frame).vxsat = s.vec.vxsat := by
    have hload := congrArg (BitVec.extractLsb' 0 1) (hcsr 1 (by decide))
    rw [Nat.one_mul] at hload
    exact hload.trans (extractLsb'_setWidth_self (by decide) _)
  have hvxrm : (u.restoredVec frame).vxrm = s.vec.vxrm :=
    (congrArg (BitVec.extractLsb' 0 2) (hcsr 2 (by decide))).trans (extractLsb'_setWidth_self (by decide) _)
  rw [State.restore_vec, State.restoreContext_vec_active hu]
  exact VecState.ext (h.vr_restoredVec hs hv) hvstart hvxsat hvxrm (hcsr 3 (by decide)) (hcsr 4 (by decide))

theorem restore_altstack : (u.restore frame).altstack = s.altstack := by
  have hsp : (u.restoreRegs frame).readX 2 = s.readX 2 := h.readX_restoreRegs hs 2 (by decide)
  have hfield {f : Field} (hf : f ∈ s.ucontextFields) := mem_frameFields_ucontext hf
  rw [State.restore_altstack, State.restoredAlt, State.altInstall_altstack_congr h.cfg h.altstack, hsp, h.cfg,
    h.load_xlen hs hs.width.ssSp (hfield (by simp [State.ucontextFields])),
    h.load_four hs (s.toNat_sasSsFlags_lt (s.readX 2)) (hfield (by simp [State.ucontextFields])),
    h.load_xlen hs hs.width.ssSize (hfield (by simp [State.ucontextFields])),
    State.altInstall_saved hs.alt]

end State.HasFrameOf

/-- A state that a delivery from `s` left, or that agrees with one on the parameters, memory and the alternate stack, has
the frame. -/
theorem State.hasFrameOf_of_deliver {s u : State} (frame : Word) (hcfg : u.cfg = (s.deliver frame).cfg)
    (hmisa : u.misa = (s.deliver frame).misa) (hmem : u.mem = (s.deliver frame).mem)
    (halt : u.altstack = (s.deliver frame).altstack) : u.HasFrameOf s frame := by
  rw [s.deliver_frame] at hcfg hmisa hmem halt
  exact ⟨hcfg, hmisa, halt, hmem⟩

/-- Settles O48: the state before the return has the frame of the delivery at its x2, and each field restored from it is the
one saved. -/
theorem signalRoundTrip : Obligations.SignalRoundTrip := by
  intro s s1 u hs hg hl hsetup hcfg hmisa hmem hsp halt hlock
  obtain rfl : (s.deliver s.frameAddr).respond .ok = s1 :=
    Host.Outcome.next.inj ((execSigSetup_admitted hg hl).symm.trans hsetup)
  have hframe : u.HasFrameOf s s.frameAddr := State.hasFrameOf_of_deliver s.frameAddr hcfg hmisa hmem halt
  have hx2 : u.readX 2 = s.frameAddr := hsp.trans (s.readX_deliver s.frameAddr 2)
  refine ⟨?delivery, _, execSigReturn_admitted hlock, rfl, ?_⟩
  case delivery =>
    rw [s.deliver_frame]
    rfl
  rw [hx2]
  refine ⟨hframe.restore_pc hs, hframe.restore_x hs, hframe.restore_f hs, hframe.restore_fflags hs,
    hframe.restore_frm hs, fun hv => hframe.restore_vec hs hv, hframe.restore_blocked hs, hframe.restore_altstack hs, ?_⟩
  rw [u.restore_frame]
  rfl

end Sys2Proof.Machine
end

section
/-! SUPPORT. Traps as numbers: the parts of a cause word, the delegation bit it selects, the vector address it leads to, and
the two returns. -/

namespace Sys2Proof

/-- A number cut to XLEN bits is its remainder modulo 2^XLEN: 64 bits lose none of it (00_scope.md R11). -/
theorem Xlen.toNat_trunc_ofNat (x : Xlen) (n : Nat) : (x.trunc (BitVec.ofNat 64 n)).toNat = n % 2 ^ x.bits := by
  rw [x.toNat_trunc, BitVec.toNat_ofNat, Nat.mod_mod_of_dvd n (Nat.pow_dvd_pow 2 x.bits_le)]

theorem Xlen.bits_sub_one_add_one (x : Xlen) : x.bits - 1 + 1 = x.bits := by cases x <;> rfl

end Sys2Proof

namespace Sys2Proof.Machine

/-! ### The parts of a cause word (60_exceptions.md R344) -/

/-- The interrupt bit is the top bit, so it splits the XLEN-bit values in two halves. -/
theorem isInterrupt_iff {x : Xlen} {c : Word} (hc : x.trunc c = c) :
    isInterrupt x c = true ↔ 2 ^ (x.bits - 1) ≤ c.toNat := by
  have hlt := (x.trunc_eq_self_iff c).mp hc
  rw [← x.bits_sub_one_add_one] at hlt
  exact ⟨Nat.ge_two_pow_of_testBit, fun h => Nat.testBit_of_two_pow_le_and_two_pow_add_one_gt h hlt⟩

/-- The code is the cause without its top bit. -/
theorem toNat_causeCode (x : Xlen) (c : Word) : (causeCode x c).toNat = c.toNat % 2 ^ (x.bits - 1) := by
  refine Nat.eq_of_testBit_eq fun i => ?_
  rw [Nat.testBit_mod_two_pow]
  change (x.trunc c &&& ~~~x.topBit).getLsbD i = (decide (i < x.bits - 1) && c.getLsbD i)
  have hbits := x.bits_le
  by_cases hi : i < 64
  · rw [BitVec.getLsbD_and, x.getLsbD_trunc, BitVec.getLsbD_not, x.getLsbD_topBit]
    grind
  · simp [BitVec.getLsbD_of_ge _ i (Nat.le_of_not_lt hi)]

/-- A cause is an exception with one of some small codes exactly when it is one of them as a number. -/
theorem exception_code_iff {x : Xlen} {c : Word} (hc : x.trunc c = c) {P : Nat → Prop} (hP : ∀ k, P k → k < 16) :
    isInterrupt x c = false ∧ P (causeCode x c).toNat ↔ P c.toNat := by
  have hhalf : 16 ≤ 2 ^ (x.bits - 1) := by cases x <;> decide
  rw [← Bool.not_eq_true, isInterrupt_iff hc, toNat_causeCode]
  by_cases h : 2 ^ (x.bits - 1) ≤ c.toNat
  · exact ⟨fun hl => absurd h hl.1, fun hl => absurd (hP _ hl) (by omega)⟩
  · rw [Nat.mod_eq_of_lt (Nat.lt_of_not_le h)]
    exact and_iff_right h

/-! ### Encoding, trap value and delegation (60_exceptions.md R345, R347, R351) -/

/-- The environment call is the cause 8 as a number. -/
theorem State.encodeCause_eq {s : State} {r : Word} (hr : s.Fits r) :
    s.encodeCause r = if r.toNat = 8 then 8 + s.priv.code.setWidth 64 else r := by
  refine if_congr ?_ rfl rfl
  rw [Bool.and_eq_true, Bool.not_eq_true', beq_iff_eq, ← BitVec.toNat_inj]
  exact exception_code_iff (P := (· = 8)) hr (by omega)

/-- The codes that keep the trap value are those of exceptions. -/
theorem tvalFor_eq {x : Xlen} {c : Word} (hc : x.trunc c = c) (t : Word) :
    tvalFor x c t = if c.toNat ∈ tvalCodes then t else 0 := by
  refine if_congr ?_ rfl rfl
  rw [Bool.and_eq_true, Bool.not_eq_true', List.contains_iff_mem]
  exact exception_code_iff (P := (· ∈ tvalCodes)) hc (by decide)

theorem mem_tvalCodes (k : Nat) :
    k ∈ tvalCodes ↔ k ≤ 1 ∨ (4 ≤ k ∧ k ≤ 7) ∨ k = 12 ∨ k = 13 ∨ k = 15 := by
  simp only [tvalCodes, List.mem_cons, List.not_mem_nil, or_false]
  omega

/-- Settles O27: the top bit and the rest of the cause, and the two tests on exception codes as tests on the number. -/
theorem causeAndTrapValueAreEncoded : Obligations.CauseAndTrapValueAreEncoded := by
  intro s r t hr half
  have hencode := State.encodeCause_eq hr
  refine ⟨Bool.eq_iff_iff.mpr ?_, toNat_causeCode _ _, fun h => ?_, fun h => ?_, ?_⟩
  · rw [isInterrupt_iff hr, decide_eq_true_eq]
  · rw [hencode, if_pos h]
    cases s.priv <;> rfl
  · rw [hencode, if_neg h]
  · rw [tvalFor_eq hr]
    exact if_congr (mem_tvalCodes _) rfl rfl

/-- A cause is delegated by the bit of its code, in mideleg for an interrupt and in medeleg for an exception. -/
theorem State.delegated_iff {s : State} {c : Word} (hc : s.Fits c) : s.delegated c = true ↔
    c.toNat % 2 ^ (s.cfg.xlen.bits - 1) < s.cfg.xlen.bits ∧
      (if 2 ^ (s.cfg.xlen.bits - 1) ≤ c.toNat then s.mideleg else s.medeleg).getLsbD
        (c.toNat % 2 ^ (s.cfg.xlen.bits - 1)) = true := by
  rw [State.delegated, toNat_causeCode, Bool.and_eq_true, decide_eq_true_eq, if_congr (isInterrupt_iff hc) rfl rfl]

/-- Settles O28: the target is S by presence, mode and delegation. -/
theorem targetFollowsDelegation : Obligations.TargetFollowsDelegation := by
  intro s c hc half
  rw [State.targetsS, Bool.and_eq_true, Bool.and_eq_true, bne_iff_ne, State.delegated_iff hc, and_assoc]
  rfl

/-! ### The vector address (60_exceptions.md R354) -/

/-- The mode of a trap vector is its remainder modulo 4. -/
theorem tvecMode_eq_one_iff (tvec : Word) : tvec.extractLsb' 0 2 = 1 ↔ tvec.toNat % 4 = 1 := by
  rw [← BitVec.toNat_inj, BitVec.extractLsb'_toNat]
  rfl

theorem trapVector_of_direct {x : Xlen} {tvec c : Word} (h : ¬ (tvec.toNat % 4 = 1 ∧ isInterrupt x c = true)) :
    trapVector x tvec c = tvec &&& ~~~3#64 := by
  rw [← tvecMode_eq_one_iff] at h
  exact if_neg h

theorem trapVector_of_vectored {x : Xlen} {tvec c : Word} (hmode : tvec.toNat % 4 = 1) (hirq : isInterrupt x c = true) :
    trapVector x tvec c = x.trunc ((tvec &&& ~~~3#64) + 4 * causeCode x c) :=
  if_pos ⟨(tvecMode_eq_one_iff tvec).mpr hmode, hirq⟩

/-- Settles O29: the direct vector is the base, and the vectored one a sum whose carry beyond XLEN is lost. -/
theorem trapVectorAddress : Obligations.TrapVectorAddress := by
  intro x tvec c _ hc half base
  have hbase : (tvec &&& ~~~3#64).toNat = base := by
    rw [toNat_and_not_three]
    omega
  have hcode : (causeCode x c).toNat = c.toNat % half := toNat_causeCode x c
  refine ⟨fun h => ?_, fun hmode hirq => ?_⟩
  · rw [trapVector_of_direct, hbase]
    rw [isInterrupt_iff hc]
    omega
  · have hsum : (tvec &&& ~~~3#64) + 4 * causeCode x c = BitVec.ofNat 64 (base + 4 * (c.toNat % half)) := by
      rw [← hbase, ← hcode]
      simp [BitVec.ofNat_add, BitVec.ofNat_mul]
    rw [trapVector_of_vectored hmode ((isInterrupt_iff hc).mpr hirq), hsum, x.toNat_trunc_ofNat]

/-! ### TRAP and the returns as commands (42_trap_ops.md R260, R265) -/

theorem exec_trap (s : State) : exec .trap s = .next (s.takeTrap s.opA s.opB) := rfl

/-- In a user environment the trap is a response alone (60_exceptions.md R356). -/
theorem State.takeTrap_of_user {s : State} (h : s.cfg.env = .user) (r t : Word) :
    s.takeTrap r t = s.respond (.cause (s.encodeCause r)) := by
  rw [State.takeTrap, h]

/-- Settles O32: TRAP answers with the encoded cause of its operand. -/
theorem trapInUserEnvironment : Obligations.TrapInUserEnvironment := by
  intro s h
  rw [exec_trap, State.takeTrap_of_user h]
  rfl

theorem exec_mret_of_m {s : State} (h : s.priv = .m) : exec .mret s = .next (s.mretReturn.respond .ok) := if_pos h

theorem exec_sret_of_s {s : State} (hs : misaHas s.misa Ext.S = true) (hu : s.priv ≠ .u) :
    exec .sret s = .next (s.sretReturn.respond .ok) := if_pos ⟨hs, hu⟩

/-- Settles O33: under the privilege it requires, each return is its effect with STATUS OK. -/
theorem trapReturns : Obligations.TrapReturns := fun _ => ⟨exec_mret_of_m, exec_sret_of_s⟩

/-- An exception pc with no reserved bit is aligned (41_csr_dispatch.md R229). -/
theorem aligned_of_epcMask {misa v : Word} (h : v &&& ~~~epcMask misa = 0) :
    v.toNat % 2 = 0 ∧ (misaHas misa Ext.C = false → v.toNat % 4 = 0) := by
  unfold epcMask at h
  split at h
  · rename_i hC
    rw [BitVec.not_not, ← BitVec.toNat_inj, BitVec.toNat_and] at h
    exact ⟨(Nat.and_two_pow_sub_one_eq_mod v.toNat 1).symm.trans h, fun hn => absurd (hC.symm.trans hn) (by decide)⟩
  · rw [BitVec.not_not, ← BitVec.toNat_inj, BitVec.toNat_and] at h
    have hfour : v.toNat % 4 = 0 := (Nat.and_two_pow_sub_one_eq_mod v.toNat 2).symm.trans h
    exact ⟨by omega, fun _ => hfour⟩

/-- Settles O36: the returns write mepc and sepc, whose reserved bits are 0 by the invariant. -/
theorem trapReturnTargetIsAligned : Obligations.TrapReturnTargetIsAligned := by
  rintro s t hinv (h | h)
  · obtain ⟨-, rfl⟩ := exec_mret_cases h
    exact aligned_of_epcMask hinv.csr.mepc
  · obtain ⟨-, rfl⟩ := exec_sret_cases h
    exact aligned_of_epcMask hinv.csr.sepc

end Sys2Proof.Machine
end

section
/-! SUPPORT. The decoder as the two tables of 30_encoding.md R133 and R141: each field at its own bits of the word, and each
encoded word read back. -/

namespace Sys2Proof

/-! ### The fields as numbers (30_encoding.md R132, R141) -/

/-- A field of a word is the word shifted down and cut. -/
theorem extractLsb'_eq_ofNat_div (w : BitVec 32) (start len : Nat) :
    w.extractLsb' start len = BitVec.ofNat len (w.toNat / 2 ^ start) := by
  rw [← Nat.shiftRight_eq_div_pow]
  rfl

theorem toNat_opcodeField (w : BitVec 32) : (opcodeField w).toNat = w.toNat % 128 := by
  simp [opcodeField]

theorem toNat_funct3Field (w : BitVec 32) : (funct3Field w).toNat = w.toNat / 4096 % 8 := by
  simp [funct3Field, Nat.shiftRight_eq_div_pow]

/-- Settles O2: the decoder branches on OP as a number, and each field it hands over is read from its own bits. -/
theorem commandWordsFollowTheOperationMap : Obligations.CommandWordsFollowTheOperationMap := by
  intro w op r csr lvl arg
  have hr : ridxField w = r := extractLsb'_eq_ofNat_div w 5 5
  have hcsr : csrField w = csr := extractLsb'_eq_ofNat_div w 10 12
  have harg : argField w = arg := extractLsb'_eq_ofNat_div w 24 8
  have hop : (opField w).toNat = op := toNat_opField w
  have hlvl : (lvlField w).toNat = lvl := toNat_lvlField w
  simp only [decode, decodeCommand, hop, hr, hcsr, hlvl, harg]
  clear hop hlvl
  clear_value op lvl
  and_intros
  all_goals
    intros
    subst_vars
    rfl

/-! ### Reading an encoded word back -/

/-- No Zicsr word is a trampoline word. -/
theorem systemWord_ne_trampWord0 (c : CsrIdx) (r d : RegIdx) {f : BitVec 3} (hf : f ≠ 0) :
    systemWord c r f d ≠ trampWord0 := (systemWord_ne_tramp c r f d hf).1

theorem systemWord_ne_trampWord1 (c : CsrIdx) (r d : RegIdx) {f : BitVec 3} (hf : f ≠ 0) :
    systemWord c r f d ≠ trampWord1 := (systemWord_ne_tramp c r f d hf).2

/-- Settles O3: the fields of a built word are those it was built from, and its operation selects the row. -/
theorem encodeThenDecode : Obligations.EncodeThenDecode := by
  intro i
  cases i with
  | csrrw | csrrs | csrrc | csrrwi | csrrsi | csrrci =>
    simp (disch := decide) only [Instr.channel, encode, decode, decodeGuest, systemWord_ne_trampWord0,
      systemWord_ne_trampWord1, opcodeField_systemWord, funct3Field_systemWord, rdField_systemWord,
      rs1Field_systemWord, immField_systemWord, if_true, if_false]
    rfl
  | trampLiA7 | trampEcall => rfl
  | _ =>
    simp only [Instr.channel, encode, decode, decodeCommand, opField_commandWord, ridxField_commandWord,
      csrField_commandWord, lvlField_commandWord, argField_commandWord]
    rfl

/-! ### The guest words (30_encoding.md R141, R142) -/

/-- A word with the SYSTEM opcode is built from its own fields. -/
theorem eq_systemWord_of_fields {w : BitVec 32} {f : BitVec 3} (hop : opcodeField w = 0b1110011#7)
    (hf : (funct3Field w).toNat = f.toNat) : w = systemWord (immField w) (rs1Field w) f (rdField w) :=
  eq_of_systemFields (hop.trans (opcodeField_systemWord _ _ _ _).symm) (rdField_systemWord _ _ _ _).symm
    ((BitVec.eq_of_toNat_eq hf).trans (funct3Field_systemWord _ _ _ _).symm) (rs1Field_systemWord _ _ _ _).symm
    (immField_systemWord _ _ _ _).symm

/-- A guest word that decodes is the word its instruction encodes to, so no other guest word decodes. -/
theorem encode_of_decodeGuest {w : BitVec 32} {i : Instr} (h : decodeGuest w = .ok i) :
    i.channel = .guest ∧ encode i = w := by
  unfold decodeGuest at h
  split at h
  · cases h
    exact ⟨rfl, Eq.symm ‹_›⟩
  split at h
  · cases h
    exact ⟨rfl, Eq.symm ‹_›⟩
  split at h
  · rename_i hop
    split at h <;> cases h
    all_goals
      rename_i hf
      refine ⟨rfl, (eq_systemWord_of_fields hop ?_).symm⟩
      exact hf
  · cases h

/-- Settles O4: a SYSTEM word with the funct3 of a row is the encoded word of that row, so it decodes to it, and only
encoded words decode. -/
theorem guestWordsFollowTheZicsrTable : Obligations.GuestWordsFollowTheZicsrTable := by
  refine ⟨?_, rfl, rfl, fun w i => encode_of_decodeGuest⟩
  intro w hop rd f3 rs1 csr
  have hrd : rdField w = rd := extractLsb'_eq_ofNat_div w 7 5
  have hrs1 : rs1Field w = rs1 := extractLsb'_eq_ofNat_div w 15 5
  have hcsr : immField w = csr := extractLsb'_eq_ofNat_div w 20 12
  have hopcode : opcodeField w = 0b1110011#7 := BitVec.eq_of_toNat_eq ((toNat_opcodeField w).trans hop)
  have hbuilt (f : BitVec 3) (hf : f3 = f.toNat) : w = systemWord csr rs1 f rd := by
    rw [← hrd, ← hrs1, ← hcsr]
    exact eq_systemWord_of_fields hopcode ((toNat_funct3Field w).trans hf)
  have hdec (i : Instr) (hw : w = encode i) (hi : i.channel = .guest := by rfl) : decode .guest w = .ok i := by
    rw [hw, ← hi]
    exact encodeThenDecode i
  exact ⟨
    fun h => hdec (.csrrw rd rs1 csr) (hbuilt 1 h),
    fun h => hdec (.csrrs rd rs1 csr) (hbuilt 2 h),
    fun h => hdec (.csrrc rd rs1 csr) (hbuilt 3 h),
    fun h => hdec (.csrrwi rd rs1 csr) (hbuilt 5 h),
    fun h => hdec (.csrrsi rd rs1 csr) (hbuilt 6 h),
    fun h => hdec (.csrrci rd rs1 csr) (hbuilt 7 h)⟩

/-- Settles O1: each word is decoded as written. -/
theorem knownWordsDecode : Obligations.KnownWordsDecode := by
  unfold Obligations.KnownWordsDecode
  decide

end Sys2Proof

namespace Sys2Proof.Machine

/-! ### A step (30_encoding.md R130) -/

/-- A word at the head of the queue that decodes is run with its operands on the ports. -/
theorem step_of_decode_ok {s : State} {t : Transaction} {rest : List Transaction} {i : Instr}
    (hin : s.inbox = t :: rest) (hi : decode t.channel t.word = .ok i) : step s = exec i (s.accept t rest) := by
  simp only [step, hin, hi]

/-- An empty queue leaves the state as it is (60_exceptions.md R370). -/
theorem step_of_empty {s : State} (hin : s.inbox = []) : step s = .next s := by
  simp only [step, hin]

/-- Settles O6: the three outcomes of taking a transaction. -/
theorem stepRunsTheDecodedInstruction : Obligations.StepRunsTheDecodedInstruction :=
  ⟨fun _ _ _ _ => step_of_decode_ok, fun _ _ _ _ => step_of_decode_error, fun _ => step_of_empty⟩

theorem decode_of_decodeTableWord {nbits w : Nat} {i : Instr} (h : decodeTableWord nbits w = some i) :
    decode (tableChannel (BitVec.ofNat 32 w)) (BitVec.ofNat 32 w) = .ok i := by
  unfold decodeTableWord at h
  split at h
  · cases h
    assumption
  · cases h

/-- Settles O7: the placed word is at the head of the queue, on the channel it was decoded on. -/
theorem placedWordRunsNext : Obligations.PlacedWordRunsNext := fun nbits w _ s h =>
  step_of_decode_ok (s := s.withFetchWord nbits w) rfl (decode_of_decodeTableWord h)

end Sys2Proof.Machine
end

section
/-! SUPPORT. The CSR access under a descriptor with separate handlers, for every mask; and CSR_RD, CSR_WR and mstatus, which
are settled from it. -/

namespace Sys2Proof

/-- An operand of -1 is the all-ones mask (41_csr_dispatch.md R233). -/
theorem Xlen.trunc_neg_one (x : Xlen) : x.trunc (-1) = x.ones := by cases x <;> decide

theorem Xlen.ones_ne_zero (x : Xlen) : x.ones ≠ 0 := by cases x <;> decide

end Sys2Proof

namespace Sys2Proof.Machine

/-! ### An allowed access under separate handlers (41_csr_dispatch.md R200, R207) -/

/-- A read asks for the mode and the predicate alone: with mask 0 a read-only index is allowed (41_csr_dispatch.md R203 to
R205). -/
theorem csrAllowed_read {s : State} {i : CsrIdx} {d : CsrDescriptor} {p : CsrPred}
    (hlevel : i.toNat / 256 % 4 ≤ s.priv.code.toNat) (hpred : d.pred = some p) (hp : predHolds s i p = true) :
    s.csrAllowed i 0 d = true := by
  rw [← Bool.not_eq_false, s.csrAllowed_eq_false_iff]
  rintro (hlow | ⟨-, hm⟩ | ⟨q, hq, hfalse⟩)
  · omega
  · exact hm rfl
  · cases hpred.symm.trans hq
    simp [hp] at hfalse

/-- With mask 0 an allowed access answers what the read handler answers (41_csr_dispatch.md R207, R213). -/
theorem csrAccess_read {s : State} {i : CsrIdx} {d : CsrDescriptor} {p : CsrPred} {r : CsrRead} {old : Word}
    (hd : s.cfg.csrTable.lookup i = some d) (hlevel : i.toNat / 256 % 4 ≤ s.priv.code.toNat)
    (hpred : d.pred = some p) (hp : predHolds s i p = true) (hrmw : d.rmw = none) (hread : d.read = some r)
    (hr : readCsr s i r = some old) (nv : Word) : s.csrAccess i nv 0 = some (old, s) := by
  simp only [State.csrAccess, State.descriptor, hd, csrAllowed_read hlevel hpred hp, if_true, hrmw, State.csrSeparate,
    hread, hr]

/-- With a mask that is not 0 the composed value is written (41_csr_dispatch.md R207). -/
theorem csrAccess_readWrite {s s' : State} {i : CsrIdx} {n : String} {p : CsrPred} {r : CsrRead} {w : CsrWrite}
    {old nv m : Word} (hd : s.cfg.csrTable.lookup i = some (csrReadWrite n p r w))
    (hlevel : i.toNat / 256 % 4 ≤ s.priv.code.toNat) (hwritable : i.toNat / 1024 ≠ 3) (hp : predHolds s i p = true)
    (hm : m ≠ 0) (hr : readCsr s i r = some old) (hw : writeCsr s i w (mergeMask old nv m) = some s') :
    s.csrAccess i nv m = some (old, s') := by
  have hallowed := csrAllowed_of_pred (m := m) (d := csrReadWrite n p r w) hlevel hwritable rfl hp
  simp only [State.csrAccess, State.descriptor, hd, hallowed, if_true]
  simp only [csrReadWrite, State.csrSeparate, hr, if_neg hm, hw, Option.map_some]

theorem exec_csrRd_of_read {s : State} {i : CsrIdx} {d : CsrDescriptor} {p : CsrPred} {r : CsrRead} {old : Word}
    (hd : s.cfg.csrTable.lookup i = some d) (hlevel : i.toNat / 256 % 4 ≤ s.priv.code.toNat)
    (hp : predHolds s i p = true) (hr : readCsr s i r = some old) (hpred : d.pred = some p := by rfl)
    (hrmw : d.rmw = none := by rfl) (hread : d.read = some r := by rfl) :
    exec (.csrRd i) s = .next (s.respond (.data old)) := by
  rw [exec_csrRd, csrAccess_read hd hlevel hpred hp hrmw hread hr]
  rfl

/-- The FP CSRs are available with floating point when FS is not Off (41_csr_dispatch.md R214). -/
theorem predHolds_fp_of {s : State} (hfp : s.misa.getLsbD 5 = true ∨ s.misa.getLsbD 3 = true) (hfs : s.mstatus.fs ≠ 0)
    (i : CsrIdx) : predHolds s i .fp = true := by
  rw [predHolds_fp, decide_eq_true hfs, Bool.and_true, Bool.or_eq_true]
  exact hfp

/-- Settles O16: each index has the baseline's read handler, and the mode and the predicate are what the access checks. -/
theorem csrReadsReturnTheRegisters : Obligations.CsrReadsReturnTheRegisters := by
  intro s reads
  refine ⟨fun hfp hfs => ?fp, fun hv => ?vec, fun hs hpriv => ?smode, fun hpriv => ?any⟩
  case fp =>
    have hp (i : CsrIdx) := predHolds_fp_of hfp hfs i
    and_intros <;> exact fun hb => exec_csrRd_of_read hb (Nat.zero_le _) (hp _) rfl
  case vec =>
    have hp (i : CsrIdx) : predHolds s i .vec = true := hv
    and_intros <;> exact fun hb => exec_csrRd_of_read hb (Nat.zero_le _) (hp _) rfl
  case smode =>
    have hp (i : CsrIdx) : predHolds s i .smode = true := hs
    and_intros <;> exact fun hb => exec_csrRd_of_read hb (level_le_of_ne_u hpriv (by decide)) (hp _) rfl
  case any =>
    have hp (i : CsrIdx) : predHolds s i .any = true := rfl
    have hsp (hs : s.misa.getLsbD 18 = true) (i : CsrIdx) : predHolds s i .smode = true := hs
    have hdeleg (hs : s.misa.getLsbD 18 = true) : reads 0x302 s.medeleg ∧ reads 0x303 s.mideleg := by
      and_intros <;> exact fun hb => exec_csrRd_of_read hb (level_le_of_m hpriv _) (hsp hs _) rfl
    refine ⟨?_, ?_, ?_, ?_, ?_, ?_, ?_, hdeleg⟩
    all_goals exact fun hb => exec_csrRd_of_read hb (level_le_of_m hpriv _) (hp _) rfl

/-- Settles O17: CSR_RD responds only, and with mask 0 neither the new value nor the state of the access matters. -/
theorem zeroMaskAccessKeepsTheState : Obligations.ZeroMaskAccessKeepsTheState := by
  refine fun s csr => ⟨⟨_, exec_csrRd csr s⟩, fun hmask => ?_⟩
  have hB : s.opB = 0 := hmask
  rw [exec_csrRmw, exec_csrRd, hB, csrAccess_zero_mask_eq]
  cases h : s.csrAccess csr 0 0 with
  | none => rfl
  | some a =>
    have hkept : a.2 = s := csrAccess_zero_mask (old := a.1) h
    simp only [Option.elim, hkept]

/-! ### CSR_WR is CSR_RMW with an all-ones mask (41_csr_dispatch.md R233) -/

theorem exec_csrWr_of_some {s s' : State} {csr : CsrIdx} {old : Word}
    (h : s.csrAccess csr s.opA s.cfg.xlen.ones = some (old, s')) : exec (.csrWr csr) s = .next (s'.respond .ok) := by
  rw [exec_csrWr, h]
  rfl

/-- CSR_WR in terms of CSR_RMW on the same state with B = -1: the old value is discarded. -/
theorem exec_csrWr_of_csrRmw (s : State) (csr : CsrIdx) :
    ∃ t, exec (.csrRmw csr) { s with ops := { s.ops with b := -1 } } = .next t ∧
      exec (.csrWr csr) s =
        .next { t with ops := s.ops, resp := if t.resp.status = .ok then Response.ok else Response.illegal } := by
  have hB : State.opB { s with ops := { s.ops with b := -1 } } = s.cfg.xlen.ones := Xlen.trunc_neg_one _
  have hrmw := csrAccess_withOps s { s.ops with b := -1 } csr s.opA s.cfg.xlen.ones
  cases h : s.csrAccess csr s.opA s.cfg.xlen.ones with
  | none =>
    rw [h] at hrmw
    exact ⟨_, exec_csrRmw_of_none (hB ▸ hrmw), exec_csrWr_of_none h⟩
  | some a =>
    have hops : a.2.ops = s.ops := by rw [csrAccess_frame (old := a.1) h]
    rw [h] at hrmw
    refine ⟨_, exec_csrRmw_of_some (hB ▸ hrmw), (exec_csrWr_of_some h).trans ?_⟩
    rw [← hops]
    rfl

/-- Under the all-ones mask the composed value is the new one. -/
theorem State.mergeMask_ones {s : State} {old nv : Word} (ho : s.Fits old) (hn : s.Fits nv) :
    mergeMask old nv s.cfg.xlen.ones = nv := by
  rw [mergeMask, Xlen.and_not_ones _ ho, Xlen.and_ones _ hn]
  exact BitVec.zero_or

theorem State.fits_opA (s : State) : s.Fits s.opA := Xlen.trunc_trunc _ _

/-- A read and a write handler: the operand is written as it is (41_csr_dispatch.md R233). -/
theorem exec_csrWr_readWrite {s s' : State} (hs : s.Inv) {i : CsrIdx} {n : String} {p : CsrPred} {r : CsrRead}
    {w : CsrWrite} {old : Word} (hd : s.cfg.csrTable.lookup i = some (csrReadWrite n p r w))
    (hlevel : i.toNat / 256 % 4 ≤ s.priv.code.toNat) (hp : predHolds s i p = true) (hr : readCsr s i r = some old)
    (hw : writeCsr s i w s.opA = some s') (hwritable : i.toNat / 1024 ≠ 3 := by decide) :
    exec (.csrWr i) s = .next (s'.respond .ok) := by
  rw [← State.mergeMask_ones (fits_readCsr hs hr) s.fits_opA] at hw
  exact exec_csrWr_of_some (csrAccess_readWrite hd hlevel hwritable hp s.cfg.xlen.ones_ne_zero hr hw)

/-- Settles O19: CSR_WR is CSR_RMW with B = -1; and under the baseline's handlers it writes the operand, which the write
handler legalises. -/
theorem machineCsrWriteLegalises : Obligations.MachineCsrWriteLegalises := by
  refine ⟨exec_csrWr_of_csrRmw, ?_⟩
  intro s hs hpriv v hasS
  have level := level_le_of_m hpriv
  exact ⟨
    fun hb => (exec_csrWr_readWrite hs hb (level _) rfl rfl rfl).trans rfl,
    fun hb hS => (exec_csrWr_readWrite hs hb (level _) hS rfl rfl).trans rfl,
    fun hb hS => (exec_csrWr_readWrite hs hb (level _) hS rfl rfl).trans rfl,
    fun hb => (exec_csrWr_readWrite hs hb (level _) rfl rfl rfl).trans rfl,
    fun hb => (exec_csrWr_readWrite hs hb (level _) rfl rfl (writeCsr_mtvec _ _ _)).trans rfl,
    fun hb => (exec_csrWr_readWrite hs hb (level _) rfl rfl rfl).trans rfl,
    fun hb => (exec_csrWr_readWrite hs hb (level _) rfl rfl rfl).trans rfl,
    fun hb => (exec_csrWr_readWrite hs hb (level _) rfl rfl rfl).trans rfl⟩

/-! ### mstatus (10_state.md R42, R43, 41_csr_dispatch.md R220) -/

/-- From bit 31 up mstatus holds SD alone, which is bit XLEN-1 (10_state.md R42). -/
theorem Mstatus.getLsbD_value_of_ge (x : Xlen) (m : Mstatus) {i : Nat} (hi : 31 ≤ i) :
    (m.value x).getLsbD i = (i == x.bits - 1 && m.fs == 3) := by
  have hflag (b : Bool) {n : Nat} (hn : n < 31) : (flagBit b n).getLsbD i = false := by
    rw [getLsbD_flagBit, decide_eq_false (by omega), Bool.and_false]
  have hfield (v : BitVec 2) {n : Nat} (hn : n ≤ 13) : (v.setWidth 64 <<< n).getLsbD i = false := by
    rw [BitVec.getLsbD_shiftLeft, BitVec.getLsbD_setWidth, BitVec.getLsbD_of_ge v (i - n) (by omega), Bool.and_false,
      Bool.and_false]
  have hsd : (if m.fs = 3 then x.topBit else 0).getLsbD i = (i == x.bits - 1 && m.fs == 3) := by
    by_cases h : m.fs = 3
    · rw [if_pos h, x.getLsbD_topBit, h, beq_eq_decide, beq_self_eq_true, Bool.and_true]
    · rw [if_neg h, beq_false_of_ne h, Bool.and_false]
      exact BitVec.getLsbD_zero
  simp only [Mstatus.value, BitVec.getLsbD_or, hflag _ (show 1 < 31 by decide), hflag _ (show 3 < 31 by decide),
    hflag _ (show 5 < 31 by decide), hflag _ (show 7 < 31 by decide), hflag _ (show 8 < 31 by decide),
    hfield _ (show 11 ≤ 13 by decide), hfield _ (show 13 ≤ 13 by decide), hsd, Bool.false_or]

/-- The code of a mode has its low bit outside U, and its high bit in M alone (00_scope.md R18). -/
theorem Priv.getElem_code (p : Priv) : p.code[0] = (p != .u) ∧ p.code[1] = (p == .m) := by
  cases p <;> decide

/-- Settles O22: below bit 31 the kept fields, from there up SD. -/
theorem mstatusValueHasNoOtherBit : Obligations.MstatusValueHasNoOtherBit := by
  intro s i
  have hsd : 31 ≤ s.cfg.xlen.bits - 1 := by cases s.cfg.xlen <;> decide
  obtain ⟨hlow, hhigh⟩ := s.mstatus.mpp.getElem_code
  rw [State.mstatusValue]
  by_cases hi : i < 31
  · have hne : (i == s.cfg.xlen.bits - 1) = false := beq_false_of_ne (by omega)
    rw [Mstatus.getLsbD_value_of_lt _ _ hi, hne]
    interval_cases i <;> simp [hlow, hhigh]
  · rw [Mstatus.getLsbD_value_of_ge _ _ (by omega)]
    split
    case h_10 => rfl
    all_goals omega

/-- Settles O21: the write handler of mstatus, whose MPP by its number is the mode that number encodes. -/
theorem mstatusWriteByField : Obligations.MstatusWriteByField := by
  intro s hb hpriv hmask m v hasS mpp
  have hexec := exec_csrRmw_readWrite hb (level_le_of_m hpriv _) rfl hmask rfl rfl
  have hfield (k : Nat) : (v.extractLsb' k 2).toNat = v.toNat / 2 ^ k % 4 := by
    rw [BitVec.extractLsb'_toNat, Nat.shiftRight_eq_div_pow]
  have hlegal {k : Nat} (h : mpp = k) : legalMpp s.misa s.mstatus.mpp (v.extractLsb' 11 2) =
      legalMpp s.misa s.mstatus.mpp (BitVec.ofNat 2 k) := by
    obtain rfl : (v.extractLsb' 11 2).toNat = k := (hfield 11).trans h
    rw [BitVec.ofNat_toNat, BitVec.setWidth_eq]
  refine ⟨s.mstatus.write s.misa v, hexec.trans rfl, rfl, rfl, rfl, rfl, rfl, ?fs, hlegal, hlegal, hlegal, hlegal⟩
  case fs => exact (apply_ite BitVec.toNat _ _ _).trans (if_congr Iff.rfl (hfield 13) rfl)

end Sys2Proof.Machine
end

section
/-! SUPPORT. What a CSR command leaves, whatever the table; and the guest words as an access, a trap or a register write. -/

namespace Sys2Proof.Machine

/-! ### The frame of the CSR commands (41_csr_dispatch.md R211 (c)) -/

/-- CSR_RD responds on the state of its access, which is the state it found (41_csr_dispatch.md R213). -/
theorem exec_csrRd_eq_access (csr : CsrIdx) (s : State) : exec (.csrRd csr) s =
    .next ((s.csrAccess csr 0 0).elim (s.respond .illegal) fun a => a.2.respond (.data a.1)) := by
  rw [exec_csrRd]
  cases h : s.csrAccess csr 0 0 with
  | none => rfl
  | some a =>
    have hkept : a.2 = s := csrAccess_zero_mask (old := a.1) h
    simp only [Option.elim, hkept]

/-- What a CSR command leaves: ILLEGAL_CSR and nothing else, or the state of an access that answered, with STATUS OK. -/
theorem exec_csrCommand_cases {i : Instr} {csr : CsrIdx} {s t : State}
    (hi : i = .csrRmw csr ∨ i = .csrRd csr ∨ i = .csrWr csr) (h : exec i s = .next t) :
    t = s.respond .illegal ∨ ∃ (nv m old : Word) (s' : State) (r : Response),
      s.Fits nv ∧ s.csrAccess csr nv m = some (old, s') ∧ r.status = .ok ∧ t = s'.respond r := by
  have elim {nv m : Word} {f : Word → Response} (hn : s.Fits nv) (hf : ∀ v, (f v).status = .ok)
      (ht : t = (s.csrAccess csr nv m).elim (s.respond .illegal) fun a => a.2.respond (f a.1)) :
      t = s.respond .illegal ∨ ∃ (nv m old : Word) (s' : State) (r : Response),
        s.Fits nv ∧ s.csrAccess csr nv m = some (old, s') ∧ r.status = .ok ∧ t = s'.respond r := by
    cases ha : s.csrAccess csr nv m with
    | none => exact .inl (by rw [ht, ha]; rfl)
    | some a => exact .inr ⟨nv, m, a.1, a.2, f a.1, hn, ha, hf _, by rw [ht, ha]; rfl⟩
  obtain rfl | rfl | rfl := hi
  · rw [exec_csrRmw] at h
    exact elim (f := .data) s.fits_opA (fun _ => rfl) (Host.Outcome.next.inj h).symm
  · rw [exec_csrRd_eq_access] at h
    exact elim (f := .data) (Xlen.trunc_zero _) (fun _ => rfl) (Host.Outcome.next.inj h).symm
  · rw [exec_csrWr] at h
    exact elim (f := fun _ => .ok) s.fits_opA (fun _ => rfl) (Host.Outcome.next.inj h).symm

/-- Settles O26: a command either responds only, or leaves what an access can leave. -/
theorem csrCommandsFrame : Obligations.CsrCommandsFrame := by
  intro i csr s t hi h
  obtain rfl | ⟨nv, m, old, s', r, -, ha, hr, rfl⟩ := exec_csrCommand_cases hi h
  · exact ⟨rfl, rfl, rfl, rfl, rfl, rfl, rfl, rfl, rfl, fun _ => rfl, rfl, rfl, fun _ => ⟨rfl, rfl, rfl⟩, fun _ => rfl,
      fun hne => absurd rfl hne⟩
  · have hstatus : (s'.respond r).resp.status = .ok := hr
    refine ⟨?_, ?_, ?_, ?_, ?_, ?_, ?_, ?_, ?_, fun a => ?_, ?_, ?_, ?files,
      fun hbad => absurd (hstatus.symm.trans hbad) (by decide), fun _ => hstatus⟩
    case files =>
      intro hd
      obtain ⟨hx, hf, hvr⟩ := csrAccess_frame_baseline hd ha
      exact ⟨hx, hf, hvr⟩
    all_goals
      rw [csrAccess_frame ha]
      rfl

/-! ### Trap entry, by its target (60_exceptions.md R352) -/

theorem State.trapEnter_of_targetsS {s : State} {r : Word} (h : s.targetsS (s.encodeCause r) = true) (t : Word) :
    s.trapEnter r t = { s with
      sepc := s.pc &&& epcMask s.misa
      scause := s.encodeCause r
      stval := tvalFor s.cfg.xlen (s.encodeCause r) t
      mstatus := { s.mstatus with spie := s.mstatus.sie, sie := false, spp := s.priv.code.getLsbD 0 }
      priv := .s
      pc := trapVector s.cfg.xlen s.stvec (s.encodeCause r) } :=
  if_pos h

theorem State.trapEnter_of_targetsM {s : State} {r : Word} (h : s.targetsS (s.encodeCause r) = false) (t : Word) :
    s.trapEnter r t = { s with
      mepc := s.pc &&& epcMask s.misa
      mcause := s.encodeCause r
      mtval := tvalFor s.cfg.xlen (s.encodeCause r) t
      mstatus := { s.mstatus with mpie := s.mstatus.mie, mie := false, mpp := s.priv }
      priv := .m
      pc := trapVector s.cfg.xlen s.mtvec (s.encodeCause r) } :=
  if_neg (Bool.eq_false_iff.mp h)

theorem State.takeTrap_of_system {s : State} (h : s.cfg.env = .system) (r t : Word) :
    s.takeTrap r t = (s.trapEnter r t).respond .ok := by
  rw [State.takeTrap, h]

/-- SPP is the mode below M that a trap into S leaves (10_state.md R42, 60_exceptions.md R352). -/
theorem Priv.getLsbD_code_zero {p : Priv} (h : p ≠ .m) : p.code.getLsbD 0 = (p == .s) := by
  cases p with
  | m => exact absurd rfl h
  | s | u => rfl

theorem Priv.of_spp {p : Priv} (h : p ≠ .m) : (if p.code.getLsbD 0 then Priv.s else Priv.u) = p := by
  cases p with
  | m => exact absurd rfl h
  | s | u => rfl

/-- Settles O30: the trap entry of the target M. -/
theorem trapIntoMachineMode : Obligations.TrapIntoMachineMode := by
  intro s henv c hM
  rw [exec_trap, State.takeTrap_of_system henv, State.trapEnter_of_targetsM (r := s.opA) hM]
  rfl

/-- Settles O31: the trap entry of the target S, which leaves SPP for a mode below M. -/
theorem trapIntoSupervisorMode : Obligations.TrapIntoSupervisorMode := by
  intro s henv c hS
  rw [exec_trap, State.takeTrap_of_system henv, State.trapEnter_of_targetsS (r := s.opA) hS,
    Priv.getLsbD_code_zero (State.of_targetsS hS).2]
  rfl

/-- Settles O35: the return of the target takes back what the entry stacked. -/
theorem trapThenReturn : Obligations.TrapThenReturn := by
  intro s s1 o henv htrap epc
  have hsm : Priv.s ≠ .m := by decide
  have hsu : Priv.s ≠ .u := by decide
  rw [exec_trap, State.takeTrap_of_system henv] at htrap
  cases hT : s.targetsS (s.encodeCause s.opA) with
  | true =>
    obtain ⟨hs, hm⟩ := State.of_targetsS hT
    rw [State.trapEnter_of_targetsS hT] at htrap
    cases htrap
    refine ⟨fun h => absurd h hsm, fun _ => ⟨_, exec_sret_of_s hs hsu, ?_, rfl, rfl, rfl, rfl, rfl, rfl⟩⟩
    exact Priv.of_spp hm
  | false =>
    rw [State.trapEnter_of_targetsM hT] at htrap
    cases htrap
    exact ⟨fun _ => ⟨_, exec_mret_of_m rfl, rfl, rfl, rfl, rfl, rfl, rfl, rfl⟩, fun h => absurd h.symm hsm⟩

/-- The operand ports are no part of what a trap reads or writes (60_exceptions.md R352). -/
theorem State.trapEnter_withOps (s : State) (o : Operands) (r t : Word) :
    s.trapEnter r t = { State.trapEnter { s with ops := o } r t with ops := s.ops } := by
  cases h : s.targetsS (s.encodeCause r) with
  | true =>
    rw [State.trapEnter_of_targetsS h, State.trapEnter_of_targetsS (s := { s with ops := o }) h]
    rfl
  | false =>
    rw [State.trapEnter_of_targetsM h, State.trapEnter_of_targetsM (s := { s with ops := o }) h]
    rfl

theorem State.takeTrap_withOps (s : State) (o : Operands) (r t : Word) :
    s.takeTrap r t = { State.takeTrap { s with ops := o } r t with ops := s.ops } := by
  cases henv : s.cfg.env with
  | user =>
    rw [State.takeTrap_of_user henv, State.takeTrap_of_user (s := { s with ops := o }) henv]
    rfl
  | system =>
    rw [State.takeTrap_of_system henv, State.takeTrap_of_system (s := { s with ops := o }) henv,
      s.trapEnter_withOps o]
    rfl

/-- A trap with small operands is what TRAP does with them on its ports (42_trap_ops.md R260). -/
theorem State.takeTrap_as_exec (s : State) {r t : Word} (hr : r.toNat < 2 ^ 32) (ht : t.toNat < 2 ^ 32) :
    ∃ u, exec .trap { s with ops := { s.ops with a := r, b := t } } = .next u ∧
      s.takeTrap r t = { u with ops := s.ops } := by
  refine ⟨_, exec_trap _, (s.takeTrap_withOps { s.ops with a := r, b := t } r t).trans ?_⟩
  have hA : State.opA { s with ops := { s.ops with a := r, b := t } } = r := s.fits_of_lt r hr
  have hB : State.opB { s with ops := { s.ops with a := r, b := t } } = t := s.fits_of_lt t ht
  rw [hA, hB]

/-! ### The Zicsr words (30_encoding.md R141) -/

theorem guestCsrAccess_of_some {s s' : State} {rd : RegIdx} {csr : CsrIdx} {nv m old : Word}
    (h : s.csrAccess csr nv m = some (old, s')) :
    guestCsrAccess rd csr nv m s = .next ((s'.writeX rd old).respond .ok) := by
  rw [guestCsrAccess_eq, h]
  rfl

theorem guestCsrAccess_of_none {s : State} {rd : RegIdx} {csr : CsrIdx} {nv m : Word} (h : s.csrAccess csr nv m = none) :
    guestCsrAccess rd csr nv m s = .next (s.takeTrap 2 0) := by
  rw [guestCsrAccess_eq, h]
  rfl

/-- An immediate is a number of five bits. -/
theorem setWidth_uimm (u : RegIdx) : u.setWidth 64 = BitVec.ofNat 64 u.toNat :=
  BitVec.eq_of_toNat_eq (by simp)

/-- Settles O51: the access with the operands of each word, and the failed access as the trap of raw cause 2. -/
theorem zicsrWordsAccessTheCsr : Obligations.ZicsrWordsAccessTheCsr := by
  intro s rd rs1 csr ones does
  have hdoes {i : Instr} {nv m : Word} (hi : exec i s = guestCsrAccess rd csr nv m s) : does i nv m := by
    refine ⟨fun old s' ha => hi.trans (guestCsrAccess_of_some ha), fun ha => ?_⟩
    obtain ⟨t, ht, htrap⟩ := s.takeTrap_as_exec (r := 2) (t := 0) (by decide) (by decide)
    exact ⟨t, ht, (hi.trans (guestCsrAccess_of_none ha)).trans (congrArg _ htrap)⟩
  rw [← setWidth_uimm]
  exact ⟨hdoes rfl, hdoes rfl, hdoes rfl, hdoes rfl, hdoes rfl, hdoes rfl⟩

/-- Settles O53: li a7 is a register write, and ecall the trap of raw cause 8. -/
theorem trampolineWordsRun : Obligations.TrampolineWordsRun := by
  intro s
  refine ⟨congrArg (fun u : State => Host.Outcome.next (u.respond .ok)) (s.writeX_of_ne 17 139 (by decide) (by decide)), ?_⟩
  obtain ⟨t, ht, htrap⟩ := s.takeTrap_as_exec (r := 8) (t := 0) (by decide) (by decide)
  exact ⟨t, ht, congrArg _ htrap⟩

/-! ### The Zicsr words on mtval (30_encoding.md R141, 41_csr_dispatch.md R230) -/

/-- The composed value under an all-ones new value sets the bits of the mask. -/
theorem State.mergeMask_set {s : State} (old : Word) {m : Word} (hm : s.Fits m) :
    mergeMask old s.cfg.xlen.ones m = old ||| m := by
  rw [mergeMask, BitVec.and_comm s.cfg.xlen.ones, Xlen.and_ones _ hm]
  refine BitVec.eq_of_getLsbD_eq fun i hi => ?_
  simp only [BitVec.getLsbD_or, BitVec.getLsbD_and, BitVec.getLsbD_not, hi]
  cases m.getLsbD i <;> simp

/-- The composed value under a new value of 0 clears the bits of the mask. -/
theorem mergeMask_clear (old m : Word) : mergeMask old 0 m = old &&& ~~~m := by
  rw [mergeMask, show (0 : Word) &&& m = 0 from BitVec.zero_and]
  exact BitVec.or_zero

/-- A register write changes the general registers alone. -/
theorem State.writeX_frame (s : State) (i : RegIdx) (v : Word) : s.writeX i v = { s with x := (s.writeX i v).x } := by
  unfold State.writeX
  split <;> rfl

/-- An access to mtval in M composes its value, mask 0 included (41_csr_dispatch.md R207, R230). -/
theorem csrAccess_mtval {s : State} (hb : s.BaselineAt 0x343) (hpriv : s.priv = .m) (nv m : Word) :
    s.csrAccess 0x343 nv m = some (s.mtval, { s with mtval := mergeMask s.mtval nv m }) := by
  by_cases hm : m = 0
  · subst hm
    have hkept : mergeMask s.mtval nv 0 = s.mtval := mergeMask_zero _ _
    rw [hkept]
    exact csrAccess_read (p := .any) hb (level_le_of_m hpriv _) rfl rfl rfl rfl rfl nv
  · exact csrAccess_readWrite hb (level_le_of_m hpriv _) (by decide) rfl hm rfl rfl

/-- Settles O52: the composed value for the operands of each word. -/
theorem zicsrWordsOnMtval : Obligations.ZicsrWordsOnMtval := by
  intro s rd rs1 hs hb hpriv v u does
  have hv : s.Fits v := hs.width.x rs1
  have himm : u = rs1.setWidth 64 := (setWidth_uimm rs1).symm
  have hu : s.Fits u := himm ▸ s.fits_setWidth rs1 (by decide)
  have hdoes {i : Instr} {nv m new : Word} (hi : exec i s = guestCsrAccess rd 0x343 nv m s)
      (hnew : mergeMask s.mtval nv m = new) : does i new := by
    have hreg (r : RegIdx) := State.readX_writeX { s with mtval := new } rd r s.mtval
    refine ⟨_, hi.trans (guestCsrAccess_of_some (hnew ▸ csrAccess_mtval hb hpriv nv m)), ?_, fun hrd => ?_, fun r hr => ?_⟩
    · rw [State.writeX_frame]
      rfl
    · exact (hreg rd).trans (if_pos ⟨rfl, hrd⟩)
    · exact (hreg r).trans (if_neg fun h => hr h.1)
  clear_value u
  subst himm
  exact ⟨
    hdoes rfl (State.mergeMask_ones hs.width.mtval hv),
    hdoes rfl (State.mergeMask_set _ hv),
    hdoes rfl (mergeMask_clear _ _),
    hdoes rfl (State.mergeMask_ones hs.width.mtval hu),
    hdoes rfl (State.mergeMask_set _ hu),
    hdoes rfl (mergeMask_clear _ _)⟩

end Sys2Proof.Machine
end

section
/-! SUPPORT. What an instruction can do to the state at all, said once; every statement about all instructions is a case
analysis of it. -/

namespace Sys2Proof.Machine

/-- What an instruction that completes leaves: which of the shared operations it is, and what that operation asked for
(00_scope.md R12 to R14). -/
inductive State.Effect (s : State) : Instr → State → Prop
  /-- a command that only responds, a failed one included -/
  | answer {i : Instr} (r : Response) : Effect s i (s.respond r)
  | writeX {i : Instr} (rd : RegIdx) (v : Word) (hv : s.Fits v) : Effect s i ((s.writeX rd v).respond .ok)
  | writeF {i : Instr} (r : RegIdx) (v : BitVec 64) : Effect s i ((s.writeF r v).respond .ok)
  | writeV {i : Instr} (r : RegIdx) (v : VWord) (hV : s.vActive = true) : Effect s i ((s.writeV r v).respond .ok)
  | vcfg (hV : s.vActive = true) :
    Effect s .vcfgWr ({ s with vec := { s.vec with vl := s.opA, vtype := s.opB } }.respond .ok)
  | pcWr : Effect s .pcWr ({ s with pc := s.opA }.respond .ok)
  /-- an access that answered; a CSR command is one with x0 for rd -/
  | access {i : Instr} (csr : CsrIdx) (nv m old : Word) (s' : State) (rd : RegIdx) (r : Response)
    (hnv : s.Inv → s.Fits nv) (ha : s.csrAccess csr nv m = some (old, s')) : Effect s i ((s'.writeX rd old).respond r)
  | trap {i : Instr} (c t : Word) (hi : i = .trap ∨ i = .trampEcall ∨ s.zicsrFails i) (hc : s.Fits c) (ht : s.Fits t) :
    Effect s i (s.takeTrap c t)
  | ipUpdate : Effect s .ipUpdate ((s.mergeMip s.opB (s.opA &&& implementedIrqs s.misa)).respond .ok)
  | mret (hm : s.priv = .m) : Effect s .mret (s.mretReturn.respond .ok)
  | sret (hS : misaHas s.misa Ext.S = true) (hu : s.priv ≠ .u) : Effect s .sret (s.sretReturn.respond .ok)
  | deliver (hl : s.lock s.frameAddr s.frameSize .write = true) :
    Effect s .sigSetup ((s.deliver s.frameAddr).respond .ok)
  | restore : Effect s .sigReturn ((s.restore (s.readX 2)).respond .sigreturned)
  | maskWr : Effect s .maskWr ({ s with blocked := s.opA64 }.respond .ok)
  | altSet (arg : BitVec 8) (r : Response) :
    Effect s (.altSet arg) ((s.altInstall s.opA (arg.setWidth 64) s.opB (s.readX 2)).2.respond r)

/-- A CSR command responds only or is an access that discards its old value into x0. -/
theorem effect_of_csrCommand {i : Instr} {csr : CsrIdx} {s t : State}
    (hi : i = .csrRmw csr ∨ i = .csrRd csr ∨ i = .csrWr csr) (h : exec i s = .next t) : s.Effect i t := by
  obtain rfl | ⟨nv, m, old, s', r, hnv, ha, -, rfl⟩ := exec_csrCommand_cases hi h
  · exact .answer _
  · exact .access csr nv m old s' 0 r (fun _ => hnv) ha

/-- A Zicsr word is an access or the trap of a failed one. -/
theorem effect_of_guestCsrAccess {i : Instr} {s t : State} {rd : RegIdx} {csr : CsrIdx} {nv m : Word}
    (hnv : s.Inv → s.Fits nv) (hfails : s.csrAccess csr nv m = none → s.zicsrFails i)
    (h : guestCsrAccess rd csr nv m s = .next t) : s.Effect i t := by
  rw [guestCsrAccess_eq] at h
  cases h
  cases ha : s.csrAccess csr nv m with
  | none => exact .trap 2 0 (.inr (.inr (hfails ha))) (s.fits_of_lt 2 (by decide)) (s.fits_of_lt 0 (by decide))
  | some a => exact .access csr nv m a.1 a.2 rd .ok hnv ha

/-- Every instruction that completes has one of the effects. -/
theorem exec_effect {i : Instr} {s t : State} (h : exec i s = .next t) : s.Effect i t := by
  have hones : s.Inv → s.Fits s.cfg.xlen.ones := fun _ => Xlen.trunc_ones _
  have hzero : s.Inv → s.Fits 0 := fun _ => Xlen.trunc_zero _
  cases i with
  | gprRd | fprRd | pcRd | privRd | extQ | featQ | vlmax | irqPend | maskRd | altRd =>
    cases h
    exact .answer _
  | gprWr r =>
    cases h
    exact .writeX r _ s.fits_opA
  | trampLiA7 =>
    cases h
    exact .writeX 17 139 (s.fits_of_lt 139 (by decide))
  | fprWr =>
    cases h
    exact .writeF _ _
  | vrRd =>
    cases (requireVector_eq_next h).2
    exact .answer _
  | vrWr =>
    obtain ⟨hV, hnext⟩ := requireVector_eq_next h
    cases hnext
    exact .writeV _ _ hV
  | vcfgWr =>
    obtain ⟨hV, hnext⟩ := requireVector_eq_next h
    cases hnext
    exact .vcfg hV
  | pcWr =>
    cases h
    exact .pcWr
  | csrRmw => exact effect_of_csrCommand (.inl rfl) h
  | csrRd => exact effect_of_csrCommand (.inr (.inl rfl)) h
  | csrWr => exact effect_of_csrCommand (.inr (.inr rfl)) h
  | csrrw rd rs1 => exact effect_of_guestCsrAccess (fun hs => hs.width.x rs1) id h
  | csrrwi => exact effect_of_guestCsrAccess (fun _ => s.fits_setWidth _ (by decide)) id h
  | csrrs | csrrsi => exact effect_of_guestCsrAccess hones id h
  | csrrc | csrrci => exact effect_of_guestCsrAccess hzero id h
  | trap =>
    cases h
    exact .trap _ _ (.inl rfl) s.fits_opA (Xlen.trunc_trunc _ _)
  | trampEcall =>
    cases h
    exact .trap 8 0 (.inr (.inl rfl)) (s.fits_of_lt 8 (by decide)) (s.fits_of_lt 0 (by decide))
  | ipUpdate =>
    cases h
    exact .ipUpdate
  | mret =>
    obtain ⟨hm, rfl⟩ := exec_mret_cases h
    exact .mret hm
  | sret =>
    obtain ⟨⟨hS, hu⟩, rfl⟩ := exec_sret_cases h
    exact .sret hS hu
  | sigSetup =>
    obtain ⟨-, ⟨hl, rfl⟩ | ⟨-, rfl⟩⟩ := exec_sigSetup_cases h
    · exact .deliver hl
    · exact .answer _
  | sigReturn =>
    obtain ⟨-, rfl⟩ | ⟨-, rfl⟩ := exec_sigReturn_cases h
    · exact .restore
    · exact .answer _
  | maskWr =>
    cases h
    exact .maskWr
  | altSet arg =>
    cases h
    exact .altSet arg _

/-! ### The invariant (StepKeepsTheInvariant) -/

/-- New vector state with XLEN-bit values keeps the invariant (10_state.md R52 to R54). -/
theorem State.Inv.withVec {s : State} (h : s.Inv) {v : VecState} (hvstart : s.Fits v.vstart) (hvl : s.Fits v.vl)
    (hvtype : s.Fits v.vtype) : State.Inv { s with vec := v } := by
  obtain ⟨c, p, r, wd, m, a⟩ := h
  exact ⟨c.congr, p.congr, r.congr, { wd with vstart := hvstart, vl := hvl, vtype := hvtype }, m.congr, a.congr⟩

/-- The writable bits of IP_UPDATE are implemented ones (42_trap_ops.md R264). -/
theorem State.Inv.mergeMip {s : State} (h : s.Inv) (nv : Word) {wm : Word} (hwm : wm &&& ~~~implementedIrqs s.misa = 0) :
    (s.mergeMip nv wm).Inv := by
  obtain ⟨c, p, r, wd, m, a⟩ := h
  exact ⟨c.congr, p.congr, { r with mip := merge_and_not r.mip hwm }, wd.congr, m.congr, a.congr⟩

/-- Every effect keeps the invariant. -/
theorem State.Effect.inv {i : Instr} {s t : State} (h : s.Effect i t) (hs : s.Inv) : t.Inv := by
  cases h with
  | answer => exact hs.respond _
  | writeX rd v hv => exact (hs.writeX rd hv).respond _
  | writeF | maskWr =>
    obtain ⟨c, p, r, wd, m, a⟩ := hs
    exact ⟨c.congr, p.congr, r.congr, wd.congr, m.congr, a.congr⟩
  | writeV r v => exact (hs.withVec (v := (s.writeV r v).vec) hs.width.vstart hs.width.vl hs.width.vtype).respond _
  | vcfg => exact (hs.withVec (v := { s.vec with vl := s.opA, vtype := s.opB }) hs.width.vstart s.fits_opA
      (Xlen.trunc_trunc _ _)).respond _
  | pcWr =>
    obtain ⟨c, p, r, wd, m, a⟩ := hs
    exact ⟨c.congr, p.congr, r.congr, { wd with pc := s.fits_opA }, m.congr, a.congr⟩
  | access csr nv m old s' rd r hnv ha =>
    obtain ⟨hs', hold⟩ := inv_csrAccess hs (hnv hs) ha
    have hcfg : s'.cfg = s.cfg := by rw [csrAccess_frame ha]
    have hfits : s'.Fits old := by rwa [State.Fits, State.tr, hcfg]
    exact (hs'.writeX rd hfits).respond _
  | trap c t hi hc ht => exact hs.takeTrap hc ht
  | ipUpdate => exact (hs.mergeMip _ (and_mask_and_not _ _)).respond _
  | mret hm => exact (hs.mretReturn hm).respond _
  | sret hS hu => exact (hs.sretReturn hS hu).respond _
  | deliver hl => exact (hs.deliver s.frameAddr_fits hl).respond _
  | restore => exact (hs.restore _).respond _
  | altSet arg => exact (hs.altInstall _ s.fits_opA (Xlen.trunc_trunc _ _)).respond _

/-- Settles O54: a step either leaves the state or is an instruction's effect on the state with a transaction taken. -/
theorem stepKeepsTheInvariant : Obligations.StepKeepsTheInvariant := by
  intro s s' hs h
  unfold step at h
  split at h
  · cases h
    exact hs
  · split at h
    · exact (exec_effect h).inv (hs.accept _ _)
    · cases h

/-! ### What only some effects change -/

/-- What taking a trap can change (60_exceptions.md R352, R353). -/
theorem State.takeTrap_frame (s : State) (r t : Word) : s.takeTrap r t = { s with
    mstatus := (s.takeTrap r t).mstatus, priv := (s.takeTrap r t).priv, pc := (s.takeTrap r t).pc
    mepc := (s.takeTrap r t).mepc, mcause := (s.takeTrap r t).mcause, mtval := (s.takeTrap r t).mtval
    sepc := (s.takeTrap r t).sepc, scause := (s.takeTrap r t).scause, stval := (s.takeTrap r t).stval
    resp := (s.takeTrap r t).resp } := by
  unfold State.takeTrap State.trapEnter
  simp only
  split
  · split <;> rfl
  · rfl

/-- A trap never lowers the mode, and does not keep it unless it is the target already (60_exceptions.md R340). -/
theorem State.takeTrap_priv (s : State) (r t : Word) :
    (s.takeTrap r t).priv = s.priv ∨ s.priv.code.toNat < (s.takeTrap r t).priv.code.toNat := by
  cases henv : s.cfg.env with
  | user => exact .inl (by rw [State.takeTrap_of_user henv]; rfl)
  | system =>
    rw [State.takeTrap_of_system henv]
    cases hT : s.targetsS (s.encodeCause r) with
    | true =>
      rw [State.trapEnter_of_targetsS hT]
      have hm := (State.of_targetsS hT).2
      cases hp : s.priv <;> simp_all [Priv.code]
    | false =>
      rw [State.trapEnter_of_targetsM hT]
      cases hp : s.priv <;> simp [Priv.code]

/-- Without S no trap writes the registers of S (60_exceptions.md R347). -/
theorem State.takeTrap_no_s {s : State} (h : misaHas s.misa Ext.S = false) (r t : Word) :
    (s.takeTrap r t).sepc = s.sepc ∧ (s.takeTrap r t).scause = s.scause ∧ (s.takeTrap r t).stval = s.stval := by
  have hM : s.targetsS (s.encodeCause r) = false := by simp [State.targetsS, h]
  cases henv : s.cfg.env with
  | user =>
    rw [State.takeTrap_of_user henv]
    exact ⟨rfl, rfl, rfl⟩
  | system =>
    rw [State.takeTrap_of_system henv, State.trapEnter_of_targetsM hM]
    exact ⟨rfl, rfl, rfl⟩

/-- No effect changes the configuration or its constants (00_scope.md R10, 10_state.md R40, R41). -/
theorem State.Effect.constants {i : Instr} {s t : State} (h : s.Effect i t) :
    t.cfg = s.cfg ∧ t.misa = s.misa ∧ t.features = s.features := by
  cases h with
  | answer | writeF | writeV | vcfg | pcWr | ipUpdate | mret | sret | deliver | maskWr => exact ⟨rfl, rfl, rfl⟩
  | writeX rd v => exact ⟨State.writeX_cfg s rd v, State.writeX_misa s rd v, State.writeX_features s rd v⟩
  | access csr nv m old s' rd r hnv ha =>
    simp only [State.respond_cfg, State.respond_misa, State.respond_features, State.writeX_cfg, State.writeX_misa,
      State.writeX_features]
    rw [csrAccess_frame ha]
    exact ⟨rfl, rfl, rfl⟩
  | altSet =>
    rw [State.altInstall_frame]
    exact ⟨rfl, rfl, rfl⟩
  | restore => simp [State.restore_frame]
  | trap c t =>
    rw [State.takeTrap_frame]
    exact ⟨rfl, rfl, rfl⟩

/-! ### The registers of an absent V or S (10_state.md R45, R50, R58) -/

/-- In a well-formed table an access changes the state through a handler whose predicate holds (log entry 16). -/
theorem csrAccess_guarded {s s' : State} {i : CsrIdx} {nv m old : Word} (hc : s.cfg.csrTableOk = true)
    (h : s.csrAccess i nv m = some (old, s')) :
    s' = s ∨ (∃ r, predHolds s i r.guard = true ∧ rmwCsr s i r nv m = some (old, s')) ∨
      ∃ w v, predHolds s i w.guard = true ∧ writeCsr s i w v = some s' := by
  obtain ⟨d, hd, hal, hr⟩ := csrAccess_cases h
  have hwf := wf_of_lookup hc hd
  simp only [CsrDescriptor.wf, Bool.and_eq_true, Option.all_eq_true] at hwf
  obtain ⟨⟨-, hwrite⟩, hrmw⟩ := hwf
  obtain ⟨r, hdr, hr⟩ | ⟨-, r, -, -, ⟨-, rfl⟩ | ⟨-, w, hdw, hw⟩⟩ := hr
  · exact .inr (.inl ⟨r, predHolds_guard hal (hrmw r hdr), hr⟩)
  · exact .inl rfl
  · exact .inr (.inr ⟨w, _, predHolds_guard hal (hwrite w hdw), hw⟩)

/-- Without V no guarded write handler changes the overlay; fcsr has no mirror then (10_state.md R38, R58). -/
theorem writeCsr_vec_inactive {s s' : State} {i : CsrIdx} {w : CsrWrite} {v : Word} (hV : s.vActive = false)
    (hg : predHolds s i w.guard = true) (h : writeCsr s i w v = some s') : s'.vec = s.vec := by
  cases w with
  | vstart | vxsat | vxrm => exact absurd (hV.symm.trans hg) (by decide)
  | fails => cases h
  | fcsr =>
    cases h
    have hmirror : s.vxMirrorOn = false := by rw [State.vxMirrorOn, hV, Bool.and_false]
    simp [State.installFcsr, hmirror]
  | added k =>
    obtain ⟨t, -, rfl⟩ := Option.map_eq_some_iff.mp h
    exact State.install_vec_inactive hV t
  | _ =>
    cases h
    rfl

theorem rmwCsr_vec_inactive {s s' : State} {i : CsrIdx} {r : CsrRmw} {nv m old : Word} (hV : s.vActive = false)
    (h : rmwCsr s i r nv m = some (old, s')) : s'.vec = s.vec := by
  cases r with
  | fails => cases h
  | added k =>
    obtain ⟨⟨o, t⟩, -, e⟩ := Option.map_eq_some_iff.mp h
    obtain ⟨-, rfl⟩ := Prod.mk.inj e
    split
    · rfl
    · exact State.install_vec_inactive hV t
  | mip | sip =>
    cases h
    rfl

/-- Two states agree on the registers of S that are kept without S (10_state.md R45, R50; log entry 14). -/
def State.SameS (s t : State) : Prop :=
  t.medeleg = s.medeleg ∧ t.mideleg = s.mideleg ∧ t.stvec = s.stvec ∧ t.sepc = s.sepc ∧ t.scause = s.scause ∧
    t.stval = s.stval

theorem State.SameS.refl (s : State) : s.SameS s := ⟨rfl, rfl, rfl, rfl, rfl, rfl⟩

/-- Without S no guarded write handler changes a register of S. -/
theorem writeCsr_no_s {s s' : State} {i : CsrIdx} {w : CsrWrite} {v : Word} (hS : misaHas s.misa Ext.S = false)
    (hg : predHolds s i w.guard = true) (h : writeCsr s i w v = some s') : s.SameS s' := by
  cases w with
  | stvec | sepc | scause | stval | medeleg | mideleg => exact absurd (hS.symm.trans hg) (by decide)
  | fails => cases h
  | added k =>
    obtain ⟨t, -, rfl⟩ := Option.map_eq_some_iff.mp h
    exact State.install_no_s hS t
  | _ =>
    cases h
    exact .refl s

theorem rmwCsr_no_s {s s' : State} {i : CsrIdx} {r : CsrRmw} {nv m old : Word} (hS : misaHas s.misa Ext.S = false)
    (h : rmwCsr s i r nv m = some (old, s')) : s.SameS s' := by
  cases r with
  | fails => cases h
  | added k =>
    obtain ⟨⟨o, t⟩, -, e⟩ := Option.map_eq_some_iff.mp h
    obtain ⟨-, rfl⟩ := Prod.mk.inj e
    split
    · exact .refl s
    · exact State.install_no_s hS t
  | mip | sip =>
    cases h
    exact .refl s

theorem csrAccess_vec_inactive {s s' : State} {i : CsrIdx} {nv m old : Word} (hc : s.cfg.csrTableOk = true)
    (hV : s.vActive = false) (h : s.csrAccess i nv m = some (old, s')) : s'.vec = s.vec := by
  obtain rfl | ⟨r, -, hr⟩ | ⟨w, v, hg, hw⟩ := csrAccess_guarded hc h
  · rfl
  · exact rmwCsr_vec_inactive hV hr
  · exact writeCsr_vec_inactive hV hg hw

theorem csrAccess_no_s {s s' : State} {i : CsrIdx} {nv m old : Word} (hc : s.cfg.csrTableOk = true)
    (hS : misaHas s.misa Ext.S = false) (h : s.csrAccess i nv m = some (old, s')) : s.SameS s' := by
  obtain rfl | ⟨r, -, hr⟩ | ⟨w, v, hg, hw⟩ := csrAccess_guarded hc h
  · exact .refl _
  · exact rmwCsr_no_s hS hr
  · exact writeCsr_no_s hS hg hw

/-- Without V no effect changes the overlay. -/
theorem State.Effect.vec_inactive {i : Instr} {s t : State} (h : s.Effect i t) (hc : s.cfg.csrTableOk = true)
    (hV : s.vActive = false) : t.vec = s.vec := by
  cases h with
  | answer | writeF | pcWr | ipUpdate | mret | sret | deliver | maskWr => rfl
  | writeX rd v => exact State.writeX_vec s rd v
  | writeV _ _ hv | vcfg hv => exact absurd (hV.symm.trans hv) (by decide)
  | access csr nv m old s' rd r hnv ha => exact (State.writeX_vec s' rd old).trans (csrAccess_vec_inactive hc hV ha)
  | altSet => rw [State.altInstall_frame]; rfl
  | restore => exact (s.restore_vec _).trans (State.restoreContext_vec_inactive hV _)
  | trap c t => rw [State.takeTrap_frame]

/-- Without S no effect changes a register of S. -/
theorem State.Effect.no_s {i : Instr} {s t : State} (h : s.Effect i t) (hc : s.cfg.csrTableOk = true)
    (hS : misaHas s.misa Ext.S = false) : s.SameS t := by
  cases h with
  | answer | writeF | writeV | vcfg | pcWr | ipUpdate | mret | sret | deliver | maskWr => exact .refl s
  | writeX rd v => simp [State.SameS]
  | access csr nv m old s' rd r hnv ha => simpa [State.SameS] using csrAccess_no_s hc hS ha
  | altSet =>
    rw [State.altInstall_frame]
    exact .refl s
  | restore => simp [State.SameS, State.restore_frame]
  | trap c t =>
    rw [State.takeTrap_frame]
    obtain ⟨hepc, hcause, htval⟩ := State.takeTrap_no_s hS c t
    exact ⟨rfl, rfl, rfl, hepc, hcause, htval⟩

/-- Settles O59: no effect changes the constants, and those that change the vector state or a register of S need V or S. -/
theorem configurationNeverChanges : Obligations.ConfigurationNeverChanges := by
  intro i s t h
  have he := exec_effect h
  obtain ⟨hcfg, hmisa, hfeatures⟩ := he.constants
  exact ⟨hcfg, hmisa, hfeatures, he.vec_inactive, he.no_s⟩

/-- Settles O60: of the effects, six move pc, and each belongs to the instructions named. -/
theorem onlyTheNamedCommandsMovePc : Obligations.OnlyTheNamedCommandsMovePc := by
  intro i s t h hne
  cases exec_effect h with
  | answer | writeF | writeV | vcfg | ipUpdate | maskWr => exact absurd rfl hne
  | writeX rd v => exact absurd (State.writeX_pc s rd v) hne
  | access csr nv m old s' rd r hnv ha =>
    refine absurd ?_ hne
    rw [State.respond_pc, State.writeX_pc, csrAccess_frame ha]
  | altSet => exact absurd (by rw [State.respond_pc, State.altInstall_frame]) hne
  | trap c t hi =>
    obtain rfl | rfl | hf := hi
    · simp
    · simp
    · simp [hf]
  | pcWr | mret | sret | deliver | restore => simp

/-- Settles O57: of the effects, the traps and the returns alone change the mode; and a mode that is absent is no mode of a
state of the invariant, which every effect keeps. -/
theorem onlyTrapsAndReturnsChangeTheMode : Obligations.OnlyTrapsAndReturnsChangeTheMode := by
  refine ⟨fun i s t h hne => ?_, fun i s t hs h => ?_⟩
  · cases exec_effect h with
    | answer | writeF | writeV | vcfg | pcWr | ipUpdate | deliver | maskWr => exact absurd rfl hne
    | writeX rd v => exact absurd (State.writeX_priv s rd v) hne
    | access csr nv m old s' rd r hnv ha =>
      refine absurd ?_ hne
      rw [State.respond_priv, State.writeX_priv, csrAccess_frame ha]
    | altSet => exact absurd (by rw [State.respond_priv, State.altInstall_frame]) hne
    | restore => exact absurd (by rw [State.respond_priv, State.restore_frame]) hne
    | trap c t hi => exact .inr (.inr ⟨hi, (s.takeTrap_priv c t).resolve_left hne⟩)
    | mret => exact .inl rfl
    | sret => exact .inr (.inl rfl)
  · have hlegal : t.priv.legal s.misa = true := by
      obtain ⟨-, hmisa, -⟩ := (exec_effect h).constants
      rw [← hmisa]
      exact ((exec_effect h).inv hs).priv.priv_legal
    refine ⟨fun hU hu => ?_, fun hS hu => ?_⟩
    · rw [hu] at hlegal
      exact absurd (hU.symm.trans hlegal) (by decide)
    · rw [hu] at hlegal
      exact absurd (hS.symm.trans hlegal) (by decide)

/-- Settles O58: of the effects, a delivery alone writes memory. -/
theorem onlySigSetupWritesMemory : Obligations.OnlySigSetupWritesMemory := by
  intro i s t h hi
  have hmem : t.mem = s.mem := by
    cases exec_effect h with
    | answer | writeF | writeV | vcfg | pcWr | ipUpdate | mret | sret | maskWr => rfl
    | writeX rd v => exact State.writeX_mem s rd v
    | access csr nv m old s' rd r hnv ha => rw [State.respond_mem, State.writeX_mem, csrAccess_frame ha]
    | altSet => rw [State.respond_mem, State.altInstall_frame]
    | restore => rw [State.respond_mem, State.restore_frame]
    | trap c t => rw [State.takeTrap_frame]
    | deliver =>
      rcases hi with hi | hfault
      · exact absurd rfl hi
      · cases hfault
  exact fun a => by rw [hmem]

end Sys2Proof.Machine
end

section
/-! SUPPORT. The commands that are refused on a condition, and the vector commands with V. -/

namespace Sys2Proof.Machine

theorem requireVector_of_active {s : State} (h : s.vActive = true) (answer : Result) : requireVector s answer = answer :=
  if_pos h

/-- A vector command is refused exactly without V (30_encoding.md R135). -/
theorem requireVector_refused_iff (s t : State) :
    requireVector s (.next t) = .refused .vectorInactive ↔ s.vActive = false := by
  unfold requireVector
  cases s.vActive <;> simp

theorem exec_mret_refused_iff (s : State) : exec .mret s = .refused .xretPrivilege ↔ s.priv ≠ .m := by
  change execMret s = _ ↔ _
  unfold execMret
  split <;> simp [*]

theorem exec_sret_refused_iff (s : State) :
    exec .sret s = .refused .xretPrivilege ↔ misaHas s.misa Ext.S = false ∨ s.priv = .u := by
  change execSret s = _ ↔ _
  unfold execSret
  split
  · rename_i h
    simp [h.1, h.2]
  · rename_i h
    rw [not_and_or, not_not, Bool.not_eq_true] at h
    exact iff_of_true rfl h

theorem SigReq.sigOk_iff (r : SigReq) : r.sigOk = true ↔ 1 ≤ r.sig.toNat ∧ r.sig.toNat ≤ 64 := by
  rw [SigReq.sigOk, Bool.and_eq_true, decide_eq_true_eq, decide_eq_true_eq, NSIG]

theorem exec_sigSetup_refused_iff (s : State) :
    exec .sigSetup s = .refused .signalNumberOutOfRange ↔ s.ops.req.sigOk = false := by
  change execSigSetup s = _ ↔ _
  unfold execSigSetup
  split
  · split <;> simp [*]
  · simp [*]

/-- Settles O34: each command is refused where its guard fails. -/
theorem commandsRefusedOnACondition : Obligations.CommandsRefusedOnACondition := by
  intro s r
  refine ⟨requireVector_refused_iff s _, requireVector_refused_iff s _, requireVector_refused_iff s _,
    exec_mret_refused_iff s, exec_sret_refused_iff s, (exec_sigSetup_refused_iff s).trans ?_⟩
  rw [← Bool.not_eq_true, SigReq.sigOk_iff]
  omega

/-- Settles O10: with V each vector command is its answer. -/
theorem vectorCommandsWithV : Obligations.VectorCommandsWithV := fun _ _ _ hV =>
  ⟨requireVector_of_active hV _, requireVector_of_active hV _, requireVector_of_active hV _⟩

/-- Settles O49: the blocked set is read and written as it is. -/
theorem maskReadAndWrite : Obligations.MaskReadAndWrite := fun _ => ⟨rfl, rfl⟩

end Sys2Proof.Machine
end

section
/-! SUPPORT. Reset of every well-formed configuration: the parts of the invariant, and the values the rules state. -/

namespace Sys2Proof.Machine

/-! ### The parts of a well-formed configuration (log entries 4, 16) -/

theorem Config.modesOk_of_wf {c : Config} (h : c.wf = true) :
    (c.env = .user → misaHas c.misa Ext.U = true) ∧ (c.resetZero = true → misaHas c.misa Ext.U = true) := by
  simp only [Config.wf, Bool.and_eq_true, Config.modesOk, Bool.or_eq_true, beq_iff_eq, Bool.not_eq_true'] at h
  obtain ⟨⟨⟨⟨-, ⟨-, henv⟩, hzero⟩, -⟩, -⟩, -⟩ := h
  refine ⟨fun hu => henv.resolve_left ?_, fun hz => hzero.resolve_left ?_⟩
  · rw [hu]
    decide
  · rw [hz]
    decide

theorem Config.trunc_resetVector_of_wf {c : Config} (h : c.wf = true) : c.xlen.trunc c.resetVector = c.resetVector := by
  simp only [Config.wf, Bool.and_eq_true, Config.resetVectorOk, beq_iff_eq] at h
  obtain ⟨⟨⟨-, hvector⟩, -⟩, -⟩ := h
  exact hvector

/-! ### Drawn values, cut to the legal ones (10_state.md R69) -/

theorem tvecLegal_tvecAtReset (x : Xlen) (v : Word) : tvecLegal (tvecAtReset x v) = true := by
  have hcut (w : Word) : tvecLegal (x.trunc w) = tvecLegal w := by
    rw [tvecLegal, tvecLegal, Xlen.extractLsb'_trunc x w (by decide)]
  have hlow : (v &&& ~~~3#64).extractLsb' 0 2 = 0 := by
    refine BitVec.eq_of_toNat_eq ?_
    rw [BitVec.extractLsb'_toNat, toNat_and_not_three, Nat.shiftRight_zero]
    exact Nat.mul_mod_left _ _
  rw [tvecAtReset, hcut]
  split
  · assumption
  · rw [tvecLegal, hlow]
    rfl

theorem tvecAtReset_zero (x : Xlen) : tvecAtReset x 0 = 0 := by cases x <;> decide

/-- A file that holds values cut to XLEN reads values of XLEN bits. -/
theorem State.fits_readX_of_map {s : State} {v : Vector Word 31} (h : s.x = v.map s.cfg.xlen.trunc) (i : RegIdx) :
    s.Fits (s.readX i) := by
  have hlt := i.isLt
  by_cases hi : i = 0
  · subst hi
    exact Xlen.trunc_zero _
  · rw [State.readX_of_ne s i hi (by omega)]
    simp only [h, Vector.getElem_map]
    exact Xlen.trunc_trunc _ _

/-- The modes and the mstatus fields at reset are legal (10_state.md R39, R42, R43). -/
theorem State.privInv_resetOf {c : Config} (hc : c.wf = true) (l : Launch) (d : Draws) :
    (State.resetOf c l d).PrivInv := by
  obtain ⟨huser, hzero⟩ := Config.modesOk_of_wf hc
  constructor
  case priv_legal =>
    change Priv.legal c.misa (match c.env with | .system => .m | .user => .u) = true
    cases henv : c.env with
    | system => rfl
    | user => exact huser henv
  case mpp_legal =>
    change Priv.legal c.misa (Mstatus.atReset c _).mpp = true
    unfold Mstatus.atReset
    simp only
    split
    · exact hzero ‹_›
    · split
      · assumption
      · rfl
  case user_mode =>
    intro henv
    have hcenv : c.env = .user := henv
    simp only [State.resetOf, hcenv]
  case no_s =>
    intro hS
    have hcS : misaHas c.misa Ext.S = false := hS
    simp [State.resetOf, Mstatus.atReset, hcS]
  case no_fp =>
    intro hfp
    have hcfp : misaFp c.misa = false := hfp
    simp only [State.resetOf, Mstatus.atReset, hcfp]
    rfl

/-- The trap registers at reset have no reserved bit and no reserved mode (10_state.md R44 to R47). -/
theorem State.csrInv_resetOf (c : Config) (l : Launch) (d : Draws) : (State.resetOf c l d).CsrInv :=
  ⟨and_mask_and_not _ _, and_mask_and_not _ _, and_mask_and_not _ _, and_mask_and_not _ _, tvecLegal_tvecAtReset _ _,
    tvecLegal_tvecAtReset _ _, and_mask_and_not _ _, and_mask_and_not _ _⟩

/-- The general registers at reset are cut to XLEN, drawn or supplied by the loader. -/
theorem State.x_resetOf (c : Config) (l : Launch) (d : Draws) :
    ∃ v : Vector Word 31, (State.resetOf c l d).x = v.map c.xlen.trunc := by
  simp only [State.resetOf]
  cases c.env <;> exact ⟨_, rfl⟩

theorem State.vec_resetOf (c : Config) (l : Launch) (d : Draws) :
    ∃ v : VecState, (State.resetOf c l d).vec = v.trunc c.xlen := by
  simp only [State.resetOf]
  cases c.env <;> exact ⟨_, rfl⟩

theorem State.fits_pc_resetOf {c : Config} (hc : c.wf = true) (l : Launch) (d : Draws) :
    (State.resetOf c l d).Fits (State.resetOf c l d).pc := by
  change c.xlen.trunc (match c.env with | .system => c.resetVector | .user => c.xlen.trunc l.entry) = match c.env with
    | .system => c.resetVector | .user => c.xlen.trunc l.entry
  cases c.env with
  | system => exact Config.trunc_resetVector_of_wf hc
  | user => exact Xlen.trunc_trunc _ _

/-- Every XLEN-bit register at reset holds an XLEN-bit value (log entry 13). -/
theorem State.widthInv_resetOf {c : Config} (hc : c.wf = true) (l : Launch) (d : Draws) :
    (State.resetOf c l d).WidthInv := by
  obtain ⟨xs, hx⟩ := State.x_resetOf c l d
  obtain ⟨v, hv⟩ := State.vec_resetOf c l d
  have hcut (w : Word) : c.xlen.trunc (c.xlen.trunc w) = c.xlen.trunc w := Xlen.trunc_trunc _ w
  have hepc (w : Word) := Xlen.trunc_and_left c.xlen (epcMask c.misa) (hcut w)
  constructor
  case x => exact State.fits_readX_of_map hx
  case pc => exact State.fits_pc_resetOf hc l d
  case mepc | sepc => exact hepc _
  case vstart | vl | vtype =>
    rw [hv]
    exact hcut _
  case mcause | ssSp | ssSize => exact Xlen.trunc_zero _
  all_goals exact hcut _

/-- Reset of a well-formed configuration meets the invariant: memory is empty and the alternate stack disabled. -/
theorem State.inv_resetOf {c : Config} (hc : c.wf = true) (l : Launch) (d : Draws) : (State.resetOf c l d).Inv :=
  ⟨⟨hc, rfl, rfl⟩, State.privInv_resetOf hc l d, State.csrInv_resetOf c l d, State.widthInv_resetOf hc l d,
    ⟨Memory.wf_nil, fun _ hmem => absurd hmem List.not_mem_nil⟩, .inl rfl⟩

/-- Settles O55: the default configuration is well-formed. -/
theorem resetStateMeetsTheInvariant : Obligations.ResetStateMeetsTheInvariant :=
  ⟨State.inv_resetOf (by decide) _ _, rfl, rfl, rfl, rfl, rfl, rfl, rfl, rfl, rfl⟩

/-! ### The values the rules state (10_state.md R69, 70_reset_and_hazards.md R390, R391) -/

theorem State.resetOf_system {c : Config} (henv : c.env = .system) (l : Launch) (d : Draws) :
    (State.resetOf c l d).priv = .m ∧ (State.resetOf c l d).pc = c.resetVector := by
  simp only [State.resetOf, henv, and_self]

/-- In a user environment the loader supplies pc, the registers and the overlay. -/
theorem State.resetOf_user {c : Config} (henv : c.env = .user) (l : Launch) (d : Draws) :
    (State.resetOf c l d).priv = .u ∧ (State.resetOf c l d).pc = c.xlen.trunc l.entry ∧
    (State.resetOf c l d).mstatus.fs = 1 ∧ (State.resetOf c l d).x = (l.x.set 1 l.sp0).map c.xlen.trunc ∧
    (State.resetOf c l d).f = l.f ∧ (State.resetOf c l d).vec = l.vec.trunc c.xlen := by
  simp only [State.resetOf, Mstatus.atReset, henv, and_self]

/-- Under `RESET_ZERO` the draws are 0 (00_scope.md R9). -/
theorem State.resetOf_of_resetZero {c : Config} (hz : c.resetZero = true) (l : Launch) (d : Draws) :
    State.resetOf c l d = State.resetOf c l Draws.zero := by
  simp only [State.resetOf, hz, if_true]

/-- A register other than x0 reads the value of its slot, cut to XLEN. -/
theorem State.readX_of_map {s : State} {v : Vector Word 31} (h : s.x = v.map s.cfg.xlen.trunc) {r : RegIdx} (hr : r ≠ 0)
    (hlt : r.toNat - 1 < 31) : s.readX r = s.cfg.xlen.trunc v[r.toNat - 1] := by
  rw [State.readX_of_ne s r hr hlt]
  simp only [h, Vector.getElem_map]

theorem State.resetOf_zero_system {c : Config} (henv : c.env = .system) (l : Launch) :
    (State.resetOf c l Draws.zero).x = (Vector.replicate 31 0).map c.xlen.trunc ∧
    (State.resetOf c l Draws.zero).f = Vector.replicate 32 0 ∧
    (State.resetOf c l Draws.zero).vec = VecState.zero.trunc c.xlen := by
  simp [State.resetOf, henv, Draws.zero]

theorem State.readX_of_map_zero {s : State} (h : s.x = (Vector.replicate 31 0).map s.cfg.xlen.trunc) (r : RegIdx) :
    s.readX r = 0 := by
  have hlt := r.isLt
  by_cases hr : r = 0
  · subst hr
    rfl
  · rw [State.readX_of_map h hr (by omega), Vector.getElem_replicate, Xlen.trunc_zero]

/-- In a user environment x2 is the stack pointer of the loader, and the other registers are the loader's. -/
theorem State.readX_resetOf_user {s : State} {l : Launch} (h : s.x = (l.x.set 1 l.sp0).map s.cfg.xlen.trunc) :
    s.readX 2 = s.cfg.xlen.trunc l.sp0 ∧ ∀ (r : RegIdx) (hlt : r.toNat - 1 < 31), r ≠ 0 → r ≠ 2 →
      s.readX r = s.cfg.xlen.trunc l.x[r.toNat - 1] := by
  refine ⟨?_, fun r hlt hr hr2 => ?_⟩
  · exact (State.readX_of_map h (r := 2) (by decide) (by decide)).trans
      (congrArg s.cfg.xlen.trunc (Vector.getElem_set_self (by decide)))
  · have hslot : 1 ≠ r.toNat - 1 := fun heq => hr2 (BitVec.eq_of_toNat_eq (by change r.toNat = 2; omega))
    rw [State.readX_of_map h hr hlt, Vector.getElem_set_ne _ _ hslot]

/-- Under `RESET_ZERO` every field of mstatus but FS is 0, MPP included (log entry 4). -/
theorem Mstatus.atReset_zero {c : Config} (hz : c.resetZero = true) :
    (Mstatus.atReset c Mstatus.zero).sie = false ∧ (Mstatus.atReset c Mstatus.zero).spie = false ∧
    (Mstatus.atReset c Mstatus.zero).mpie = false ∧ (Mstatus.atReset c Mstatus.zero).spp = false ∧
    (Mstatus.atReset c Mstatus.zero).mpp = .u := by
  simp [Mstatus.atReset, Mstatus.zero, hz]

theorem Mstatus.fs_atReset_zero {c : Config} (henv : c.env = .system) : (Mstatus.atReset c Mstatus.zero).fs = 0 := by
  simp [Mstatus.atReset, Mstatus.zero, henv]

/-- With draws of 0 the fcsr fields and the trap registers are 0. -/
theorem State.csrs_resetOf_zero {c : Config} {l : Launch} {s : State} (hs : s = State.resetOf c l Draws.zero) :
    s.fflags = 0 ∧ s.frm = 0 ∧ s.mie = 0 ∧ s.mip = 0 ∧ s.medeleg = 0 ∧ s.mideleg = 0 ∧ s.mtvec = 0 ∧ s.mepc = 0 ∧
    s.mtval = 0 ∧ s.stvec = 0 ∧ s.sepc = 0 ∧ s.scause = 0 ∧ s.stval = 0 ∧
    s.mstatus = Mstatus.atReset c Mstatus.zero := by
  have htrunc : c.xlen.trunc 0#64 = 0#64 := Xlen.trunc_zero c.xlen
  have htvec : tvecAtReset c.xlen 0#64 = 0#64 := tvecAtReset_zero c.xlen
  subst hs
  simp [State.resetOf, Draws.zero, htrunc, htvec]

/-- In a system environment draws of 0 leave every register file 0. -/
theorem State.files_resetOf_zero {c : Config} (henv : c.env = .system) {l : Launch} {s : State}
    (hs : s = State.resetOf c l Draws.zero) :
    (∀ r : RegIdx, s.readX r = 0) ∧ (∀ r : RegIdx, s.readF r = 0) ∧ (∀ r : RegIdx, s.readV r = 0) ∧
    s.vec.vstart = 0 ∧ s.vec.vxsat = 0 ∧ s.vec.vxrm = 0 ∧ s.vec.vl = 0 ∧ s.vec.vtype = 0 := by
  subst hs
  obtain ⟨hx, hf, hvec⟩ := State.resetOf_zero_system henv l
  have htrunc : c.xlen.trunc 0#64 = 0#64 := Xlen.trunc_zero c.xlen
  refine ⟨State.readX_of_map_zero hx, ?_, ?_, ?_⟩ <;>
    simp [State.readF, State.readV, hf, hvec, VecState.trunc, VecState.zero, htrunc]

/-- Settles O56: the invariant part by part, and each stated value from the environment and `RESET_ZERO`. -/
theorem everyResetMeetsTheInvariant : Obligations.EveryResetMeetsTheInvariant := by
  intro c l d hc s
  refine ⟨State.inv_resetOf hc l d, rfl, rfl, rfl, rfl, rfl, rfl, State.resetOf_system (l := l) (d := d),
    fun henv => ?user, fun hz => ?zero⟩
  case user =>
    obtain ⟨hpriv, hpc, hfs, hx, hf, hvec⟩ := State.resetOf_user henv l d
    obtain ⟨hx2, hxr⟩ := State.readX_resetOf_user (s := State.resetOf c l d) hx
    exact ⟨hpriv, hpc, hfs, hx2, hxr, hf, fun _ => hvec⟩
  case zero =>
    have hs : s = State.resetOf c l Draws.zero := State.resetOf_of_resetZero hz l d
    obtain ⟨hsie, hspie, hmpie, hspp, hmpp⟩ := Mstatus.atReset_zero hz
    obtain ⟨hfflags, hfrm, hmie, hmip, hmedeleg, hmideleg, hmtvec, hmepc, hmtval, hstvec, hsepc, hscause, hstval,
      hmstatus⟩ := State.csrs_resetOf_zero hs
    rw [hmstatus]
    exact ⟨hfflags, hfrm, hmie, hmip, hmedeleg, hmideleg, hmtvec, hmepc, hmtval, hstvec, hsepc, hscause, hstval, hsie,
      hspie, hmpie, hspp, hmpp, fun henv => ⟨Mstatus.fs_atReset_zero henv, State.files_resetOf_zero henv hs⟩⟩

end Sys2Proof.Machine
end

section
/-! SUPPORT. The signal frame: its size, and what a delivery leaves at each field of it and at the bytes outside. -/

namespace Sys2Proof.Machine

/-! ### FRAME_SIZE (43_signal_frame.md R289) -/

theorem State.vectorArea_iff (s : State) :
    s.vectorArea = true ↔ s.misa.getLsbD 21 = true ∨ s.cfg.vecArea = .reserved := by
  rw [State.vectorArea, Bool.or_eq_true, beq_iff_eq]
  rfl

theorem State.frameSize_of {s : State} {x : Xlen} {va : Bool} (hx : s.cfg.xlen = x) (hva : s.vectorArea = va) :
    s.frameSize = frameSizeOf x s.cfg.mcReserved va := by
  rw [State.frameSize, hx, hva]

theorem frameSizeOf_rv64 (r : Nat) :
    frameSizeOf .rv64 r true = 144 + (176 + ((516 + r + 15) / 16 * 16 + 560) + 15) / 16 * 16 ∧
    frameSizeOf .rv64 r false = 144 + (176 + (516 + r + 7) / 8 * 8 + 15) / 16 * 16 :=
  ⟨rfl, rfl⟩

theorem frameSizeOf_rv32 (r : Nat) :
    frameSizeOf .rv32 r true = 144 + (160 + ((388 + r + 15) / 16 * 16 + 544) + 15) / 16 * 16 ∧
    frameSizeOf .rv32 r false = 144 + (160 + (388 + r + 7) / 8 * 8 + 15) / 16 * 16 :=
  ⟨rfl, rfl⟩

/-- Settles O39: `FRAME_SIZE` at each XLEN, with and without the vector area. -/
theorem frameSizes : Obligations.FrameSizes := by
  refine ⟨fun s => ?_, rfl, rfl, rfl, rfl⟩
  have hwithout (h : ¬ (s.misa.getLsbD 21 = true ∨ s.cfg.vecArea = .reserved)) : s.vectorArea = false :=
    Bool.eq_false_iff.mpr (mt s.vectorArea_iff.mp h)
  exact ⟨fun hx h => (State.frameSize_of hx (s.vectorArea_iff.mpr h)).trans (frameSizeOf_rv64 _).1,
    fun hx h => (State.frameSize_of hx (hwithout h)).trans (frameSizeOf_rv64 _).2,
    fun hx h => (State.frameSize_of hx (s.vectorArea_iff.mpr h)).trans (frameSizeOf_rv32 _).1,
    fun hx h => (State.frameSize_of hx (hwithout h)).trans (frameSizeOf_rv32 _).2⟩

/-! ### Loads from the fields of a frame (43_signal_frame.md R282 to R288, R293, R294) -/

namespace State.HasFrameOf

variable {s u : State} {frame : Word} {x : Xlen} (h : u.HasFrameOf s frame) (hs : s.Inv) (hx : s.cfg.xlen = x)
include h hs

theorem load_trampoline (ht : s.cfg.hasTrampoline = true) :
    u.frameLoad frame 0 4 = 0x08B00893 ∧ u.frameLoad frame 4 4 = 0x00000073 := by
  have hfield {f : Field} (hf : f ∈ s.infoAndTrampFields) := mem_frameFields_infoAndTramp hf
  constructor
  · exact h.load_four hs (v := trampWord0.setWidth 64) (by decide) (hfield (by simp [State.infoAndTrampFields, ht]))
  · exact h.load_four hs (v := trampWord1.setWidth 64) (by decide) (hfield (by simp [State.infoAndTrampFields, ht]))

theorem readByte_info (b : Nat) (hb : b < 128) : u.mem.readByte (frame.toNat + 8 + b) = s.ops.req.info[b] := by
  have hbytes := readBytes_writeFields hs.mem.wf frame.toNat (apart_frameFields s)
    (mem_frameFields_infoAndTramp (f := (infoOff, s.ops.req.info.toList)) List.mem_cons_self)
  have hlen : b < s.ops.req.info.toList.length := by rwa [Vector.length_toList]
  rw [h.mem]
  calc _ = _ := (Memory.getElem_readBytes _ (frame.toNat + infoOff) _ b hlen).symm
    _ = s.ops.req.info.toList[b] := List.getElem_of_eq hbytes _
    _ = s.ops.req.info[b] := Vector.getElem_toList _

include hx

theorem load_ucLinks : u.frameLoad frame ucFlagsOff x.bytes = 0 ∧ u.frameLoad frame (ucLinkOff x) x.bytes = 0 := by
  subst hx
  have hfield {f : Field} (hf : f ∈ s.ucontextFields) := mem_frameFields_ucontext hf
  exact ⟨h.load_xlen hs (Xlen.trunc_zero _) (hfield (by simp [State.ucontextFields])),
    h.load_xlen hs (Xlen.trunc_zero _) (hfield (by simp [State.ucontextFields]))⟩

theorem load_ucStack : u.frameLoad frame (ssSpOff x) x.bytes = s.altstack.ssSp ∧
    u.frameLoad frame (ssFlagsOff x) 4 = s.sasSsFlags (s.readX 2) ∧
    u.frameLoad frame (ssSizeOff x) x.bytes = s.altstack.ssSize ∧
    u.frameLoad frame (sigmaskOff x) 8 = s.ops.req.mask := by
  subst hx
  have hfield {f : Field} (hf : f ∈ s.ucontextFields) := mem_frameFields_ucontext hf
  exact ⟨h.load_xlen hs hs.width.ssSp (hfield (by simp [State.ucontextFields])),
    h.load_four hs (s.toNat_sasSsFlags_lt (s.readX 2)) (hfield (by simp [State.ucontextFields])),
    h.load_xlen hs hs.width.ssSize (hfield (by simp [State.ucontextFields])),
    h.load_eight hs (hfield (by simp [State.ucontextFields]))⟩

theorem load_pc : u.frameLoad frame (pcOff x) x.bytes = s.pc := by
  subst hx
  exact h.load_xlen hs hs.width.pc (mem_frameFields_pc s)

theorem load_x (i : RegIdx) (hi : i ≠ 0) : u.frameLoad frame (pcOff x + x.bytes * i.toNat) x.bytes = s.readX i := by
  subst hx
  exact h.load_xlen hs (hs.width.x i) (mem_frameFields_x s i hi)

theorem load_f (j : RegIdx) : u.frameLoad frame (fprOff x + 8 * j.toNat) 8 = s.readF j := by
  subst hx
  exact h.load_eight hs (mem_frameFields_f s j)

theorem load_fcsr_at : u.frameLoad frame (fcsrOff x) 4 = s.fcsrValue.setWidth 64 := by
  subst hx
  rw [← h.cfg]
  exact h.load_fcsr hs

theorem load_vr (hv : s.vActive = true) (k : RegIdx) :
    u.frameLoad frame (vrOff x s.cfg.mcReserved + 16 * k.toNat) 8 = (s.readV k).extractLsb' 0 64 ∧
    u.frameLoad frame (vrOff x s.cfg.mcReserved + 16 * k.toNat + 8) 8 = (s.readV k).extractLsb' 64 64 := by
  subst hx
  obtain ⟨hlow, hhigh⟩ := mem_frameFields_vr s hv k
  exact ⟨h.load_eight hs hlow, h.load_eight hs hhigh⟩

theorem load_vcsr_at (hv : s.vActive = true) (k : Nat) (hk : k < 5) :
    u.frameLoad frame (vcsrOff x s.cfg.mcReserved + k * x.bytes) x.bytes = s.vec.csrs[k]'hk := by
  subst hx
  have hload := h.load_vcsr hs hv k hk
  rwa [h.cfg] at hload

/-- The whole frame, for either XLEN. -/
theorem context :
    (s.cfg.hasTrampoline = true → u.frameLoad frame 0 4 = 0x08B00893 ∧ u.frameLoad frame 4 4 = 0x00000073) ∧
    (∀ (b : Nat) (hb : b < 128), u.mem.readByte (frame.toNat + 8 + b) = s.ops.req.info[b]) ∧
    u.frameLoad frame ucFlagsOff x.bytes = 0 ∧ u.frameLoad frame (ucLinkOff x) x.bytes = 0 ∧
    u.frameLoad frame (ssSpOff x) x.bytes = s.altstack.ssSp ∧
    u.frameLoad frame (ssFlagsOff x) 4 = s.sasSsFlags (s.readX 2) ∧
    u.frameLoad frame (ssSizeOff x) x.bytes = s.altstack.ssSize ∧
    u.frameLoad frame (sigmaskOff x) 8 = s.ops.req.mask ∧
    u.frameLoad frame (pcOff x) x.bytes = s.pc ∧
    (∀ i : RegIdx, i ≠ 0 → u.frameLoad frame (pcOff x + x.bytes * i.toNat) x.bytes = s.readX i) ∧
    (∀ j : RegIdx, u.frameLoad frame (fprOff x + 8 * j.toNat) 8 = s.readF j) ∧
    u.frameLoad frame (fcsrOff x) 4 = s.fcsrValue.setWidth 64 ∧
    (s.vActive = true →
      (∀ k : RegIdx, u.frameLoad frame (vrOff x s.cfg.mcReserved + 16 * k.toNat) 8 = (s.readV k).extractLsb' 0 64 ∧
        u.frameLoad frame (vrOff x s.cfg.mcReserved + 16 * k.toNat + 8) 8 = (s.readV k).extractLsb' 64 64) ∧
      u.frameLoad frame (vcsrOff x s.cfg.mcReserved + 0 * x.bytes) x.bytes = s.vec.vstart ∧
      u.frameLoad frame (vcsrOff x s.cfg.mcReserved + 1 * x.bytes) x.bytes = s.vec.vxsat.setWidth 64 ∧
      u.frameLoad frame (vcsrOff x s.cfg.mcReserved + 2 * x.bytes) x.bytes = s.vec.vxrm.setWidth 64 ∧
      u.frameLoad frame (vcsrOff x s.cfg.mcReserved + 3 * x.bytes) x.bytes = s.vec.vl ∧
      u.frameLoad frame (vcsrOff x s.cfg.mcReserved + 4 * x.bytes) x.bytes = s.vec.vtype) := by
  obtain ⟨hflags, hlink⟩ := h.load_ucLinks hs hx
  obtain ⟨hsp, hssFlags, hsize, hmask⟩ := h.load_ucStack hs hx
  exact ⟨h.load_trampoline hs, h.readByte_info hs, hflags, hlink, hsp, hssFlags, hsize, hmask, h.load_pc hs hx,
    h.load_x hs hx, h.load_f hs hx, h.load_fcsr_at hs hx, fun hv =>
      have hcsr := h.load_vcsr_at hs hx hv
      ⟨h.load_vr hs hx hv, hcsr 0 (by decide), hcsr 1 (by decide), hcsr 2 (by decide), hcsr 3 (by decide),
        hcsr 4 (by decide)⟩⟩

end State.HasFrameOf

theorem State.hasFrameOf_of_exec {s t : State} (hg : s.ops.req.sigOk = true)
    (hl : s.lock s.frameAddr s.frameSize .write = true) (h : exec .sigSetup s = .next t) :
    t.HasFrameOf s s.frameAddr := by
  obtain rfl : (s.deliver s.frameAddr).respond .ok = t :=
    Host.Outcome.next.inj ((execSigSetup_admitted hg hl).symm.trans h)
  exact State.hasFrameOf_of_deliver s.frameAddr rfl rfl rfl rfl

/-- Settles O42: the fields of the frame at the offsets of XLEN = 64. -/
theorem frameHoldsTheContextRv64 : Obligations.FrameHoldsTheContextRv64 := fun _ _ hs hx hg hl h =>
  (State.hasFrameOf_of_exec hg hl h).context hs hx

/-- Settles O43: the fields of the frame at the offsets of XLEN = 32. -/
theorem frameHoldsTheContextRv32 : Obligations.FrameHoldsTheContextRv32 := fun _ _ hs hx hg hl h =>
  (State.hasFrameOf_of_exec hg hl h).context hs hx

end Sys2Proof.Machine
end

section
/-! SUPPORT. The bytes a delivery leaves, and the delivery that fails. -/

namespace Sys2Proof.Machine

/-! ### The bytes outside the fields of a frame (43_signal_frame.md R281 to R284, R293) -/

theorem State.ucontextFields_inside {s : State} {f : Field} (hf : f ∈ s.ucontextFields) :
    (144 ≤ f.1 ∧ f.1 + f.2.length ≤ 144 + 3 * s.cfg.xlen.bytes + 4) ∨
      (144 + 4 * s.cfg.xlen.bytes ≤ f.1 ∧ f.1 + f.2.length ≤ 144 + 5 * s.cfg.xlen.bytes + 8) := by
  simp only [State.ucontextFields, List.mem_cons, List.not_mem_nil, or_false] at hf
  rcases hf with rfl | rfl | rfl | rfl | rfl | rfl <;>
    simp only [length_leBytes, ucFlagsOff, ucLinkOff, ssSpOff, ssFlagsOff, ssSizeOff, sigmaskOff, ucOff] <;> omega

theorem State.infoAndTrampFields_inside {s : State} {f : Field} (hf : f ∈ s.infoAndTrampFields) :
    (s.cfg.hasTrampoline = true ∧ f.1 + f.2.length ≤ 8) ∨ (8 ≤ f.1 ∧ f.1 + f.2.length ≤ 136) := by
  rcases List.mem_cons.mp hf with rfl | hf
  · exact .inr ⟨Nat.le_refl _, by rw [Vector.length_toList, infoOff]⟩
  · split at hf
    · have hwords : f.1 + f.2.length ≤ 8 := by
        simp only [List.mem_cons, List.not_mem_nil, or_false] at hf
        rcases hf with rfl | rfl <;> simp
      exact .inl ⟨‹_›, hwords⟩
    · cases hf

theorem State.mcontextFields_inside {s : State} {f : Field} (hf : f ∈ s.mcontextFields) :
    (pcOff s.cfg.xlen ≤ f.1 ∧ f.1 + f.2.length ≤ fcsrOff s.cfg.xlen + 4) ∨
      (s.vActive = true ∧ vrOff s.cfg.xlen s.cfg.mcReserved ≤ f.1 ∧
        f.1 + f.2.length ≤ vcsrOff s.cfg.xlen s.cfg.mcReserved + 5 * s.cfg.xlen.bytes) := by
  rw [mcontextFields_eq, List.mem_append] at hf
  obtain hscalar | hvector := hf
  · exact .inl (within_scalarFields s f hscalar)
  · refine .inr ⟨?_, within_vectorFields s f hvector⟩
    unfold State.vectorFields at hvector
    split at hvector
    · assumption
    · cases hvector

/-- A delivery leaves every byte that is in none of its fields. -/
theorem State.readByte_deliver_outside {s : State} (hm : s.mem.wf) (frame : Word) {a : Nat}
    (h : ∀ f ∈ s.frameFields, ∀ o, f.1 ≤ o → o < f.1 + f.2.length → a ≠ frame.toNat + o) :
    (s.deliver frame).mem.readByte a = s.mem.readByte a := by
  have hmem : (s.deliver frame).mem = writeFields s.mem frame.toNat s.frameFields := by rw [s.deliver_frame]
  rw [hmem]
  refine readByte_writeFields_outside hm _ _ _ fun f hf => ?_
  by_contra hin
  exact h f hf (a - frame.toNat) (by omega) (by omega) (by omega)

/-- Settles O44: each field lies in one of the stored ranges. -/
theorem sigSetupLeavesOtherBytes : Obligations.SigSetupLeavesOtherBytes := by
  intro s t hs h w mcb vb stored a ha
  have hmcb : mcb = mcbOff s.cfg.xlen := by
    simp only [mcb]
    cases s.cfg.xlen <;> rfl
  obtain ⟨-, ⟨-, rfl⟩ | ⟨-, rfl⟩⟩ := exec_sigSetup_cases h
  · refine State.readByte_deliver_outside hs.mem.wf s.frameAddr fun f hf o hlo hhi => ha o ?_
    simp only [State.frameFields, List.mem_append] at hf
    obtain (hmc | huc) | hinfo := hf
    · obtain ⟨hbase, hend⟩ | ⟨hv, hbase, hend⟩ := State.mcontextFields_inside hmc
      · simp only [pcOff, fcsrOff] at hbase hend
        exact .inr (.inr (.inr (.inr (.inl (by omega)))))
      · simp only [vrOff, vcsrOff, vBase, roundUp] at hbase hend
        exact .inr (.inr (.inr (.inr (.inr ⟨hv, by omega⟩))))
    · obtain hfirst | hsecond := State.ucontextFields_inside huc
      · exact .inr (.inr (.inl (by omega)))
      · exact .inr (.inr (.inr (.inl (by omega))))
    · obtain ⟨ht, hend⟩ | ⟨hbase, hend⟩ := State.infoAndTrampFields_inside hinfo
      · exact .inl ⟨ht, by omega⟩
      · exact .inr (.inl (by omega))
  · rfl

/-! ### Locks, and the delivery that fails (20_memory.md R102, R103, 43_signal_frame.md R292, R296, R297) -/

theorem admitted_iff (regions : List Region) (mode : LockMode) (a : Nat) : admitted regions mode a = true ↔
    ∃ r ∈ regions, r.base ≤ a ∧ a < r.base + r.size ∧ (mode = .read → r.readable = true) ∧
      (mode = .write → r.writable = true) := by
  unfold admitted
  cases mode <;> simp [and_assoc]

theorem admittedRange_iff (regions : List Region) (mode : LockMode) (a n : Nat) :
    admittedRange regions mode a n = true ↔ ∀ k, k < n → admitted regions mode (a + k) = true := by
  induction n generalizing a with
  | zero => simp [admittedRange]
  | succ n ih =>
    rw [admittedRange, Bool.and_eq_true, ih, Nat.forall_lt_succ_left]
    simp only [Nat.add_zero, Nat.add_assoc, Nat.add_comm 1]

theorem State.lock_iff (s : State) (addr : Word) (n : Nat) (mode : LockMode) : s.lock addr n mode = true ↔
    addr.toNat + n ≤ 2 ^ s.cfg.xlen.bits ∧ ∀ k, k < n → admitted s.cfg.regions mode (addr.toNat + k) = true := by
  rw [State.lock, Bool.and_eq_true, decide_eq_true_eq, admittedRange_iff]

/-- No frame is admitted at the bogus address: a frame is more than one byte long (R292). -/
theorem State.lock_ones (s : State) (mode : LockMode) : s.lock s.cfg.xlen.ones s.frameSize mode = false := by
  refine Bool.eq_false_iff.mpr fun hl => ?_
  have hbound := ((s.lock_iff _ _ _).mp hl).1
  have hsize := fcsrEnd_le_frameSize s
  have hpos := Nat.two_pow_pos s.cfg.xlen.bits
  rw [Xlen.toNat_ones] at hbound
  simp only [fcsrOff] at hsize
  omega

theorem execSigSetup_denied {s : State} (hg : s.ops.req.sigOk = true)
    (hl : s.lock s.frameAddr s.frameSize .write = false) :
    execSigSetup s = .next (s.respond (setupFailure s.ops.req.sig)) := by
  unfold execSigSetup
  rw [if_pos hg, if_neg (Bool.eq_false_iff.mp hl)]

theorem setupFailure_eq (sig : BitVec 8) : setupFailure sig =
    { status := .frameFault, dout := 0, wout := 0, forceSig := some 11,
      resetDisp := if sig.toNat = 11 then some 11 else none, causeOut := none } := by
  have hsig : sig = sigsegv ↔ sig.toNat = 11 := BitVec.toNat_inj.symm
  simp only [setupFailure, hsig]
  rfl

/-- Settles O45: a lock is its bound and its bytes; a frame that would overflow is at the bogus address, which is denied. -/
theorem sigSetupFailureChangesNothing : Obligations.SigSetupFailureChangesNothing := by
  refine ⟨fun s addr n mode => ?_, fun s h₁ h₂ hfail => ?_⟩
  · simp only [State.lock_iff, admitted_iff]
  · have hdenied : s.lock s.frameAddr s.frameSize .write = false := by
      obtain hl | ⟨hsp, hframe⟩ := hfail
      · exact hl
      · rw [State.frameAddr_of_overflow hsp hframe]
        exact s.lock_ones .write
    rw [← setupFailure_eq]
    exact execSigSetup_denied (SigReq.sigOk_of_bounds h₁ h₂) hdenied

end Sys2Proof.Machine
end
